-- ==== Sys2Proof/Word.lean ====
section
/-! DEFINITION. The bit-vector types of the simple9 codec core (spec/00_scope.md R8, R9). -/

namespace Sys2Proof

/-- One byte of the Stream (R91). -/
abbrev Byte := BitVec 8

/-- A Word: 4 selector bits and 28 payload bits (R92). -/
abbrev Word := BitVec 32

/-- One slot of VIN or VOUT, `SLOT_BITS` = 32 (R8, R83). -/
abbrev Slot := BitVec 32

/-- A Word's payload `w[31:4]` (R92). -/
abbrev Payload := BitVec 28

/-- A Word's selector field `w[3:0]` (R92). -/
abbrev Selector := BitVec 4

end Sys2Proof
end

