-- ==== Sys2Proof/Config.lean ====
section
/-! DEFINITION. What an implementation fixes (the OPEN parameters of spec/00_scope.md R8), the constants the source
fixes, and the free values: opaque constants, so that nothing can be proved of them. -/

namespace Sys2Proof.Config

/-- `MAX_VALUE` = 2^28 - 1, the largest codable Value (R8). -/
def maxValue : Nat := 268435455

/-- `OVERRUN_PAD` = `MAX_CAP` - 1, the extra slots DECODE_FAST needs (R8, R211). -/
def overrunPad : Nat := 27

/-- The two OPEN parameters, fixed when the block is built (R8, R313). -/
structure Params where
  /-- `LEN_BITS`, the width of the sequence length (D3). -/
  lenBits : Nat
  /-- `OUT_SLOTS`, the number of slots of VOUT (D4). -/
  outSlots : Nat
  deriving DecidableEq, Repr

/-- The legal ranges of R8: `LEN_BITS` 8 to 64, `OUT_SLOTS` at least 28. -/
abbrev Params.Legal (p : Params) : Prop := 8 ≤ p.lenBits ∧ p.lenBits ≤ 64 ∧ 28 ≤ p.outSlots

/-- The parameters of `State.reset`: `LEN_BITS` at the spec's default; `OUT_SLOTS` as in the spec's test vectors,
DESIGN CHOICE, log entry 2. -/
def defaultParams : Params := { lenBits := 32, outSlots := 1024 }

/-- FREE VALUE (log entry 4): what a slot of VOUT that nothing has written holds (R33, R42, U5). -/
opaque voutUnwritten : Nat → BitVec 32

/-- FREE VALUE (log entry 5): what a slot of VIN in which the caller has placed nothing holds (R34, R314). -/
opaque vinUnplaced : Nat → BitVec 32

/-- FREE VALUE (log entry 16): the 12-bit row the selector ROM answers for addresses 9 to 15 (R140, R152, U14). -/
opaque romUnspecified : BitVec 4 → BitVec 12

end Sys2Proof.Config
end

