-- ==== Sys2Proof/Syntax.lean ====
section
/-! DEFINITION. The instructions: one constructor per row of spec/opcode_table.json, in the table's order.
"Instruction" is meant as spec/00_scope.md R14 maps it: commands, header bytes, Words, datapath operations. -/

namespace Sys2Proof

/-- The 40 rows of the opcode table. A count, length or index of `LEN_BITS` bits is a natural number; `WellFormed`
bounds it. -/
inductive Instr where
  /-- NOP, `cmd_op` 0 (R244); its `cmd_len` is ignored. -/
  | nop
  /-- ENCODE, `cmd_op` 1, with `cmd_len` (R241). -/
  | encode (len : Nat)
  /-- DECODE, `cmd_op` 2 (R242); its `cmd_len` is ignored. -/
  | decode
  /-- DECODE_FAST, `cmd_op` 3 (R243); its `cmd_len` is ignored. -/
  | decodeFast
  /-- VB_CONT, a header byte with its continuation marker set, and its 7-bit group (R96, R122). -/
  | vbCont (group : BitVec 7)
  /-- VB_LAST, a header byte with its continuation marker clear, and its 7-bit group (R96, R122). -/
  | vbLast (group : BitVec 7)
  /-- W0: a Word of selector 0 under DECODE, with its payload `w[31:4]` (R93, R193). -/
  | w0 (payload : Payload)
  /-- W1: a Word of selector 1 under DECODE, with its payload `w[31:4]` (R93, R193). -/
  | w1 (payload : Payload)
  /-- W2: a Word of selector 2 under DECODE, with its payload `w[31:4]` (R93, R193). -/
  | w2 (payload : Payload)
  /-- W3: a Word of selector 3 under DECODE, with its payload `w[31:4]` (R93, R193). -/
  | w3 (payload : Payload)
  /-- W4: a Word of selector 4 under DECODE, with its payload `w[31:4]` (R93, R193). -/
  | w4 (payload : Payload)
  /-- W5: a Word of selector 5 under DECODE, with its payload `w[31:4]` (R93, R193). -/
  | w5 (payload : Payload)
  /-- W6: a Word of selector 6 under DECODE, with its payload `w[31:4]` (R93, R193). -/
  | w6 (payload : Payload)
  /-- W7: a Word of selector 7 under DECODE, with its payload `w[31:4]` (R93, R193). -/
  | w7 (payload : Payload)
  /-- W8: a Word of selector 8 under DECODE, with its payload `w[31:4]` (R93, R193). -/
  | w8 (payload : Payload)
  /-- XU0: a Word of selector 0 under DECODE_FAST, with its payload `w[31:4]` (R213). -/
  | xu0 (payload : Payload)
  /-- XU1: a Word of selector 1 under DECODE_FAST, with its payload `w[31:4]` (R214). -/
  | xu1 (payload : Payload)
  /-- XU2: a Word of selector 2 under DECODE_FAST, with its payload `w[31:4]` (R215). -/
  | xu2 (payload : Payload)
  /-- XU3: a Word of selector 3 under DECODE_FAST, with its payload `w[31:4]` (R216). -/
  | xu3 (payload : Payload)
  /-- XU4: a Word of selector 4 under DECODE_FAST, with its payload `w[31:4]` (R217). -/
  | xu4 (payload : Payload)
  /-- XU5: a Word of selector 5 under DECODE_FAST, with its payload `w[31:4]` (R218). -/
  | xu5 (payload : Payload)
  /-- XU6: a Word of selector 6 under DECODE_FAST, with its payload `w[31:4]` (R219). -/
  | xu6 (payload : Payload)
  /-- XU7: a Word of selector 7 under DECODE_FAST, with its payload `w[31:4]` (R220). -/
  | xu7 (payload : Payload)
  /-- XU8: a Word of selector 8 under DECODE_FAST, with its payload `w[31:4]` (R221). -/
  | xu8 (payload : Payload)
  /-- SEL9_ILLEGAL: a Word of selector 9, with its ignored bits `w[31:4]` (R103). -/
  | sel9Illegal (ignored : Payload)
  /-- SEL10_ILLEGAL: a Word of selector 10, with its ignored bits `w[31:4]` (R103). -/
  | sel10Illegal (ignored : Payload)
  /-- SEL11_ILLEGAL: a Word of selector 11, with its ignored bits `w[31:4]` (R103). -/
  | sel11Illegal (ignored : Payload)
  /-- SEL12_ILLEGAL: a Word of selector 12, with its ignored bits `w[31:4]` (R103). -/
  | sel12Illegal (ignored : Payload)
  /-- SEL13_ILLEGAL: a Word of selector 13, with its ignored bits `w[31:4]` (R103). -/
  | sel13Illegal (ignored : Payload)
  /-- SEL14_ILLEGAL: a Word of selector 14, with its ignored bits `w[31:4]` (R103). -/
  | sel14Illegal (ignored : Payload)
  /-- SEL15_ILLEGAL: a Word of selector 15, with its ignored bits `w[31:4]` (R103). -/
  | sel15Illegal (ignored : Payload)
  /-- VB_ENC: the header encoder on `n` (R120). -/
  | vbEnc (n : Nat)
  /-- VB_DEC: the header decoder on the byte source (R122). -/
  | vbDec
  /-- SEL_LOOKUP: a read of the selector ROM at a 4-bit address (R140). -/
  | selLookup (s : Selector)
  /-- FIT: does `x` fit `bits` bits (R162). -/
  | fit (x : Slot) (bits : Nat)
  /-- RUN: how many Values from `idx` row `s` can take (R163). -/
  | run (s : Fin 9) (idx : Nat)
  /-- ACCEPT: is row `s` accepted at `idx` (R164). -/
  | accept (s : Fin 9) (idx : Nat)
  /-- SELECT: the first accepted row at `idx` (R165). -/
  | select (idx : Nat)
  /-- PACK: the Word of selector `s` holding the `k` Values from `idx` (R166). -/
  | pack (s : Fin 9) (k : Nat) (idx : Nat)
  /-- EXTRACT_G: the generic extractor on the Word of selector `s` and this payload (R193). -/
  | extractG (s : Fin 9) (payload : Payload)
  deriving DecidableEq, Repr

end Sys2Proof
end

