-- ==== Sys2Proof/WellFormed.lean ====
section
/-! DEFINITION. Which instructions are well formed: every operand is a value its field can hold. -/

namespace Sys2Proof

/-- A number of `LEN_BITS` bits (R8). -/
abbrev fitsLen (p : Config.Params) (v : Nat) : Bool := v < 2 ^ p.lenBits

/-- Every operand is in its range: a length or index is a `LEN_BITS`-bit number (R38, R120, R163 to R166), a width is
1 to 28 (R162), an item count is 1 to 28 (R30, R166). All other operands are in range by their type. -/
def WellFormed (p : Config.Params) : Instr → Bool
  | .nop => true
  | .encode len => fitsLen p len
  | .decode => true
  | .decodeFast => true
  | .vbCont _ => true
  | .vbLast _ => true
  | .w0 _ => true
  | .w1 _ => true
  | .w2 _ => true
  | .w3 _ => true
  | .w4 _ => true
  | .w5 _ => true
  | .w6 _ => true
  | .w7 _ => true
  | .w8 _ => true
  | .xu0 _ => true
  | .xu1 _ => true
  | .xu2 _ => true
  | .xu3 _ => true
  | .xu4 _ => true
  | .xu5 _ => true
  | .xu6 _ => true
  | .xu7 _ => true
  | .xu8 _ => true
  | .sel9Illegal _ => true
  | .sel10Illegal _ => true
  | .sel11Illegal _ => true
  | .sel12Illegal _ => true
  | .sel13Illegal _ => true
  | .sel14Illegal _ => true
  | .sel15Illegal _ => true
  | .vbEnc n => fitsLen p n
  | .vbDec => true
  | .selLookup _ => true
  | .fit _ bits => 1 ≤ bits && bits ≤ 28
  | .run _ idx => fitsLen p idx
  | .accept _ idx => fitsLen p idx
  | .select idx => fitsLen p idx
  | .pack _ k idx => 1 ≤ k && k ≤ 28 && fitsLen p idx
  | .extractG _ _ => true

end Sys2Proof
end

