-- ==== Sys2Proof/Decode.lean ====
section
/-! DEFINITION. The encodings of spec/30_encoding.md: LE32, the fields of a Word, the decoder (total, rejecting by
name), the encoder, and the host's `decodeTableWord`. -/

namespace Sys2Proof

/-- `LE32(w)`: the four bytes of a Word in stream order, least significant byte first (R12, R70). -/
def le32 (w : Word) : List Byte :=
  [w.extractLsb' 0 8, w.extractLsb' 8 8, w.extractLsb' 16 8, w.extractLsb' 24 8]

/-- The Word that four bytes of the stream give: `b0 | b1 << 8 | b2 << 16 | b3 << 24` (R70, R253). -/
def wordOfLe (b0 b1 b2 b3 : Byte) : Word :=
  b0.setWidth 32 ||| b1.setWidth 32 <<< 8 ||| b2.setWidth 32 <<< 16 ||| b3.setWidth 32 <<< 24

/-- The Word that the bytes of one `SourceRead(4)` give (R253). -/
def wordOfBytes (bs : List Byte) : Word := wordOfLe (bs.getD 0 0) (bs.getD 1 0) (bs.getD 2 0) (bs.getD 3 0)

/-- `w[3:0]` (R92). -/
def selectorOf (w : Word) : Selector := w.extractLsb' 0 4

/-- `w[31:4]` (R92). -/
def payloadOf (w : Word) : Payload := w.extractLsb' 4 28

/-- The Word with these two fields (R92). -/
def wordOf (s : Selector) (p : Payload) : Word := p ++ s

/-- `b[6:0]`, a header byte's 7-bit group (R96). -/
def groupOf (b : Byte) : BitVec 7 := b.extractLsb' 0 7

/-- The bits of one instruction as the core meets them: the command port's pair (R38, R99), a header byte (R96), or a
Word together with `OP`, which fixes the decoder that interprets it (R102). -/
inductive Code where
  | cmd (op : BitVec 2) (len : Nat)
  | vb (b : Byte)
  | word (op : BitVec 2) (w : Word)
  deriving DecidableEq, Repr

/-- Why bits are not an instruction. -/
inductive DecodeError where
  /-- A Word of selector 0 to 8 while `OP` is neither DECODE nor DECODE_FAST: no decoder interprets it (R24, R102). -/
  | noDecoder (op : BitVec 2)
  deriving DecidableEq, Repr

/-- What the decoder answers. -/
inductive Decoded where
  | instr (i : Instr)
  | rejected (e : DecodeError)
  deriving DecidableEq, Repr

/-- Decoding a command (R99, R113): `cmd_op` in full; `cmd_len` is read by ENCODE only. -/
def decodeCmd (op : BitVec 2) (len : Nat) : Instr :=
  match op.toNat with
  | 0 => .nop
  | 1 => .encode len
  | 2 => .decode
  | _ => .decodeFast

/-- Decoding a header byte (R96, R112): bit 7 is the continuation marker. -/
def decodeByte (b : Byte) : Instr :=
  if b.msb then .vbCont (groupOf b) else .vbLast (groupOf b)

/-- A Word of selector 9 to 15 (R103). -/
def decodeIllegal (s : Nat) (p : Payload) : Instr :=
  match s with
  | 9 => .sel9Illegal p
  | 10 => .sel10Illegal p
  | 11 => .sel11Illegal p
  | 12 => .sel12Illegal p
  | 13 => .sel13Illegal p
  | 14 => .sel14Illegal p
  | _ => .sel15Illegal p

/-- A Word of selector 0 to 8 under DECODE (R93, R102). -/
def decodeGeneric (s : Nat) (p : Payload) : Instr :=
  match s with
  | 0 => .w0 p
  | 1 => .w1 p
  | 2 => .w2 p
  | 3 => .w3 p
  | 4 => .w4 p
  | 5 => .w5 p
  | 6 => .w6 p
  | 7 => .w7 p
  | _ => .w8 p

/-- A Word of selector 0 to 8 under DECODE_FAST (R102, R212). -/
def decodeUnrolled (s : Nat) (p : Payload) : Instr :=
  match s with
  | 0 => .xu0 p
  | 1 => .xu1 p
  | 2 => .xu2 p
  | 3 => .xu3 p
  | 4 => .xu4 p
  | 5 => .xu5 p
  | 6 => .xu6 p
  | 7 => .xu7 p
  | _ => .xu8 p

/-- Decoding a Word (R102, R103): the low four bits select the row; `OP` says which decoder runs. -/
def decodeWord (op : BitVec 2) (w : Word) : Decoded :=
  if 8 < (selectorOf w).toNat then .instr (decodeIllegal (selectorOf w).toNat (payloadOf w))
  else if op = 2 then .instr (decodeGeneric (selectorOf w).toNat (payloadOf w))
  else if op = 3 then .instr (decodeUnrolled (selectorOf w).toNat (payloadOf w))
  else .rejected (.noDecoder op)

/-- The decoder: total; the only bits it rejects are a Word that no decoder interprets. -/
def decode : Code → Decoded
  | .cmd op len => .instr (decodeCmd op len)
  | .vb b => .instr (decodeByte b)
  | .word op w => decodeWord op w

/-- The encoder, from the same tables (R93, R96, R99, R103). An ignored `cmd_len` is encoded as 0; an illegal Word is
given the mode DECODE. A datapath operation has no bit encoding (R110). -/
def encode : Instr → Option Code
  | .nop => some (.cmd 0 0)
  | .encode len => some (.cmd 1 len)
  | .decode => some (.cmd 2 0)
  | .decodeFast => some (.cmd 3 0)
  | .vbCont g => some (.vb (1#1 ++ g))
  | .vbLast g => some (.vb (0#1 ++ g))
  | .w0 p => some (.word 2 (wordOf 0 p))
  | .w1 p => some (.word 2 (wordOf 1 p))
  | .w2 p => some (.word 2 (wordOf 2 p))
  | .w3 p => some (.word 2 (wordOf 3 p))
  | .w4 p => some (.word 2 (wordOf 4 p))
  | .w5 p => some (.word 2 (wordOf 5 p))
  | .w6 p => some (.word 2 (wordOf 6 p))
  | .w7 p => some (.word 2 (wordOf 7 p))
  | .w8 p => some (.word 2 (wordOf 8 p))
  | .xu0 p => some (.word 3 (wordOf 0 p))
  | .xu1 p => some (.word 3 (wordOf 1 p))
  | .xu2 p => some (.word 3 (wordOf 2 p))
  | .xu3 p => some (.word 3 (wordOf 3 p))
  | .xu4 p => some (.word 3 (wordOf 4 p))
  | .xu5 p => some (.word 3 (wordOf 5 p))
  | .xu6 p => some (.word 3 (wordOf 6 p))
  | .xu7 p => some (.word 3 (wordOf 7 p))
  | .xu8 p => some (.word 3 (wordOf 8 p))
  | .sel9Illegal p => some (.word 2 (wordOf 9 p))
  | .sel10Illegal p => some (.word 2 (wordOf 10 p))
  | .sel11Illegal p => some (.word 2 (wordOf 11 p))
  | .sel12Illegal p => some (.word 2 (wordOf 12 p))
  | .sel13Illegal p => some (.word 2 (wordOf 13 p))
  | .sel14Illegal p => some (.word 2 (wordOf 14 p))
  | .sel15Illegal p => some (.word 2 (wordOf 15 p))
  | .vbEnc _ => none
  | .vbDec => none
  | .selLookup _ => none
  | .fit _ _ => none
  | .run _ _ => none
  | .accept _ _ => none
  | .select _ => none
  | .pack _ _ _ => none
  | .extractG _ _ => none

/-- The bytes of an instruction as the hardware meets them in stream order: one byte for the formats CMD and VB, four
for W (R70, R73, R90). -/
def bytesOf (nbits w : Nat) : List Byte :=
  (List.range (nbits / 8)).map fun i => BitVec.ofNat 8 (w >>> (8 * i))

/-- Which code a table word stands for, by its width and value (log entry 18). Below one byte, or one byte that is a
command code 0 to 3: format CMD with `cmd_len` 0. Any other byte: format VB. Four bytes: format W, under DECODE.
The table gives one word to several rows; the first of them is taken. -/
def tableCode (nbits w : Nat) : Option Code :=
  if nbits = 0 then none
  else if nbits < 8 then some (.cmd (BitVec.ofNat 2 w) 0)
  else match bytesOf nbits w with
    | [b] => if b.toNat < 4 then some (.cmd (b.setWidth 2) 0) else some (.vb b)
    | [b0, b1, b2, b3] => some (.word 2 (wordOfBytes [b0, b1, b2, b3]))
    | _ => none

/-- The instruction the decoder reads from a word of spec/opcode_table.json (log entry 18). -/
def decodeTableWord (nbits w : Nat) : Option Instr :=
  match tableCode nbits w with
  | none => none
  | some c =>
    match decode c with
    | .instr i => some i
    | .rejected _ => none

end Sys2Proof
end

