-- ==== Sys2Proof/Machine/State.lean ====
section
/-! DEFINITION. The state of one S9CORE instance: the registers of spec/10_state.md R22, VOUT, the block's parameters,
and the environment (VIN, the peers, the outside's events), all as plain data. -/

namespace Sys2Proof.Machine

/-- `ST`, the sequencer state (R23). -/
inductive SeqState where
  | idle | eHdr | ePack | eEmit | dHdr | dWord | dExt | done | fault
  deriving DecidableEq, Repr

/-- VOUT (R33): (slot index, value) pairs, indices strictly rising. An unlisted slot has not been written (U5). -/
abbrev Memory := List (Nat × Slot)

/-- A row of the selector ROM, `(cap, bits, waste)` (R101, R140). -/
structure Row where
  cap : Nat
  bits : Nat
  waste : Nat
  deriving DecidableEq, Repr

/-- A peer's verdict on one transaction (R69). `moved` is how many bytes of a transaction that fails the peer took or
gave all the same, which the spec leaves open (U7, log entry 7). -/
structure Answer where
  ok : Bool
  moved : Nat
  deriving DecidableEq, Repr

/-- What the outside does at the core's ports before a step (R44, log entry 8). -/
inductive Event where
  /-- Nothing: the sequencer takes its step. -/
  | tick
  /-- The caller presents a command (R38). -/
  | command (op : BitVec 2) (len : Nat)
  /-- `reset` is asserted (R310). -/
  | reset
  /-- The caller places the Values of its next Sequence in VIN (R314). -/
  | placeVin (values : List Slot)
  /-- The caller connects a source that holds these bytes (R315). -/
  | connectSource (bytes : List Byte)
  deriving DecidableEq, Repr

/-- The MODEL's own: what stands on the output wires of the last datapath operation run as an instruction
(log entry 9). -/
inductive DpOut where
  /-- No datapath operation has been run. -/
  | quiet
  /-- VB_ENC: the header's bytes (R120). -/
  | bytes (bs : List Byte)
  /-- VB_DEC: `(value, bytesConsumed)` (R122). -/
  | header (value consumed : Nat)
  /-- SEL_LOOKUP: `valid` and the row (R140). -/
  | lookup (valid : Bool) (row : Row)
  /-- FIT, ACCEPT: one bit (R162, R164). -/
  | bit (b : Bool)
  /-- RUN: the number of Values (R163); EXTRACT_G: the new count (R193). -/
  | count (k : Nat)
  /-- SELECT: the first accepted row and its run, or that the scan met none (R165, log entry 12). -/
  | selection (r : Option (Fin 9 × Nat))
  /-- PACK: the Word (R166). -/
  | packed (w : Word)
  deriving DecidableEq, Repr

/-- Why the model itself stops; the spec's own faults are next states (R285). -/
inductive Fault where
  /-- A write to a slot of VOUT at or above `OUT_SLOTS`, which does not exist (R63). Raised by the nine Words under
  DECODE, the nine trees and EXTRACT_G; no reachable state makes one (R223). Safe. -/
  | voutOutside
  /-- A read of a slot of VIN at or above `N`, which does not exist (R62). Raised by PACK on operands that reach past
  the Sequence; the sequencer never gives it such operands. Safe. -/
  | vinOutside
  deriving DecidableEq, Repr

/-- Why a step has no meaning. -/
inductive Refusal where
  /-- The instruction has no meaning yet; raised by no arm of this model. Safe. -/
  | notModelled (mnemonic : String)
  /-- The caller changed VIN during an operation, or the encoder met a Value above `MAX_VALUE` after START had checked
  them all, which can only follow from such a change (R318, U9: refuse). Raised by the port event that places Values
  while `busy`, and by E_PACK. Safe. -/
  | vinDisturbed
  /-- The caller connected another source during an operation, which no rule describes (R67, R315). Raised by the port
  event while `busy`. Safe. -/
  | sourceSwapped
  deriving DecidableEq, Repr

/-- The whole state. Registers of `LEN_BITS`, `LEN_BITS` + 1 and `LEN_BITS` + 3 bits are natural numbers that every
write reduces to their width (log entry 3). -/
structure State where
  /-- `LEN_BITS` and `OUT_SLOTS` (R8, R313); no step changes them. -/
  params : Config.Params
  /-- `ST` (R23). -/
  st : SeqState
  /-- `OP` (R24). -/
  op : BitVec 2
  /-- `N`, `LEN_BITS` bits (R25). -/
  n : Nat
  /-- `ICUR`, `LEN_BITS` bits (R26). -/
  icur : Nat
  /-- `OCNT`, `LEN_BITS` + 1 bits (R27). -/
  ocnt : Nat
  /-- `NBYTES`, `LEN_BITS` + 3 bits (R28). -/
  nbytes : Nat
  /-- `WREG` (R29). -/
  wreg : Word
  /-- `KREG` (R30). -/
  kreg : BitVec 5
  /-- `HREG`, `LEN_BITS` bits (R31). -/
  hreg : Nat
  /-- `HIDX` (R31). -/
  hidx : BitVec 4
  /-- `FCODE` (R32). -/
  fcode : BitVec 4
  /-- `FINFO`, `LEN_BITS` bits (R32). -/
  finfo : Nat
  /-- `VOUT` (R33). -/
  vout : Memory
  /-- VIN, the caller's (R34): the Values placed, slot 0 first. -/
  vin : List Slot
  /-- The bytes the source still has to deliver (R65). -/
  source : List Byte
  /-- The source's coming verdicts, one a transaction; none left: it does not answer (R69, R261, log entry 6). -/
  sourceAns : List Answer
  /-- The bytes the sink has received, first byte first (R64). -/
  sink : List Byte
  /-- The sink's coming verdicts, as for the source. -/
  sinkAns : List Answer
  /-- What the outside does before each coming step; none left: nothing. -/
  events : List Event
  /-- The MODEL's own: the datapath's output wires (log entry 9). -/
  dp : DpOut
  deriving DecidableEq, Repr

/-- The state right after reset (R42): every register 0, `ST` = IDLE, VOUT unspecified (nothing listed). The
parameters and the environment are DESIGN CHOICES, log entries 2, 9 and 23. -/
def State.reset : State where
  params := Config.defaultParams
  st := .idle
  op := 0
  n := 0
  icur := 0
  ocnt := 0
  nbytes := 0
  wreg := 0
  kreg := 0
  hreg := 0
  hidx := 0
  fcode := 0
  finfo := 0
  vout := []
  vin := []
  source := []
  sourceAns := []
  sink := []
  sinkAns := []
  events := []
  dp := .quiet

end Sys2Proof.Machine
end

