-- ==== Sys2Proof/Machine/Ops.lean ====
section
/-! DEFINITION. The named operations every meaning is written over: VOUT, VIN, the two peers, the registers' widths,
fault entry (`raise`), START's re-initialisation and reset. -/

namespace Sys2Proof.Machine

/-! ### VOUT -/

/-- The canonical form of VOUT: slot indices strictly rising. -/
abbrev Memory.wf (m : Memory) : Prop := (m.map Prod.fst).Pairwise (· < ·)

/-- What a slot holds; `none`: nothing has written it (R33, U5). -/
def Memory.read : Memory → Nat → Option Slot
  | [], _ => none
  | (a, v) :: rest, i => if i = a then some v else Memory.read rest i

/-- `VOUT[i] <- v` (R11), keeping the indices rising. -/
def Memory.write : Memory → Nat → Slot → Memory
  | [], i, v => [(i, v)]
  | (a, x) :: rest, i, v =>
    if i < a then (i, v) :: (a, x) :: rest
    else if i = a then (i, v) :: rest
    else (a, x) :: Memory.write rest i v

/-- Successive slots from `i`, in ascending index order (R63). -/
def Memory.writeRun : Memory → Nat → List Slot → Memory
  | m, _, [] => m
  | m, i, v :: vs => Memory.writeRun (Memory.write m i v) (i + 1) vs

/-- What the caller finds in a slot of VOUT: a slot nothing has written holds a free value (U5, log entry 4). -/
def State.voutAt (s : State) (i : Nat) : Slot := (Memory.read s.vout i).getD (Config.voutUnwritten i)

/-! ### VIN -/

/-- `VIN[i]` (R11, R34): a slot in which the caller has placed nothing holds a free value (log entry 5). -/
def vinAt (vin : List Slot) (i : Nat) : Slot := vin[i]?.getD (Config.vinUnplaced i)

/-- The least `i < len` with `VIN[i] > MAX_VALUE` (R161, R273). -/
def firstTooLarge (vin : List Slot) (len : Nat) : Option Nat :=
  (List.range len).find? fun i => Config.maxValue < (vinAt vin i).toNat

/-! ### Register widths -/

/-- The low `w` bits of a number: what a register of `w` bits keeps of it (R10, log entry 3). -/
def lowBits (w v : Nat) : Nat := v % 2 ^ w

/-- What a `LEN_BITS`-bit register keeps (R22). -/
def State.lenReg (s : State) (v : Nat) : Nat := lowBits s.params.lenBits v

/-- What OCNT, one bit wider, keeps (R27). -/
def State.ocntReg (s : State) (v : Nat) : Nat := lowBits (s.params.lenBits + 1) v

/-- What NBYTES, three bits wider, keeps (R28). -/
def State.nbytesReg (s : State) (v : Nat) : Nat := lowBits (s.params.lenBits + 3) v

/-- `MAX_HDR_BYTES = ceil(LEN_BITS / 7)` (R8). -/
def maxHdrBytes (p : Config.Params) : Nat := (p.lenBits + 6) / 7

/-! ### Faults -/

/-- Fault code PV_EMPTY (R271, R272). -/
def pvEmpty : BitVec 4 := 1
/-- Fault code PV_VALUE (R271, R273). -/
def pvValue : BitVec 4 := 2
/-- Fault code PV_SELECTOR (R271, R274). -/
def pvSelector : BitVec 4 := 3
/-- Fault code PV_HEADER (R271, R275). -/
def pvHeader : BitVec 4 := 4
/-- Fault code IO_SINK (R271, R276). -/
def ioSink : BitVec 4 := 5
/-- Fault code IO_SOURCE (R271, R277). -/
def ioSource : BitVec 4 := 6
/-- Fault code ALLOC (R271, R278). -/
def allocFail : BitVec 4 := 7
/-- Fault code BUFCONTRACT, a name only: never raised (R271, R279, U13). -/
def bufContract : BitVec 4 := 8

/-- Fault entry, `raise`: FCODE, FINFO, ST <- FAULT, and nothing else (R285). There is no return from it but reset
(R288). -/
def State.raise (s : State) (code : BitVec 4) (info : Nat) : State :=
  { s with fcode := code, finfo := s.lenReg info, st := .fault }

/-! ### START and reset -/

/-- The registers an accepted START writes (R247, R248): all of R22 but ST and VOUT. -/
def State.startRegs (s : State) (op : BitVec 2) (n hreg : Nat) : State :=
  { s with op := op, n := n, icur := 0, ocnt := 0, nbytes := 0, wreg := 0, kreg := 0, hreg := hreg, hidx := 0,
           fcode := 0, finfo := 0 }

/-- Is a START accepted: ST is IDLE or DONE (R245). -/
def State.accepts (s : State) : Bool := s.st = .idle || s.st = .done

/-- Reset (R310): the values of R42; VOUT and the peers are untouched (D15). -/
def State.resetEvent (s : State) : State :=
  { s with st := .idle, op := 0, n := 0, icur := 0, ocnt := 0, nbytes := 0, wreg := 0, kreg := 0, hreg := 0, hidx := 0,
           fcode := 0, finfo := 0 }

/-! ### The byte sink and the byte source -/

/-- What became of a transaction with a peer. -/
inductive Transaction where
  /-- The peer has given no verdict: the step that made the request is not enabled (R66, R261). -/
  | waiting
  /-- The peer failed it (R68, R69). -/
  | failed (s : State)
  /-- The peer performed it; the bytes a source delivered. -/
  | done (bytes : List Byte) (s : State)

/-- How many bytes of a failed transaction of `n` bytes moved: what the answer says, 0 to `n - 1` (U7). -/
def movedOf (a : Answer) (n : Nat) : Nat := min a.moved (n - 1)

/-- `SinkWrite(bs)` (R11, R64, R66 to R69). -/
def sinkWrite (s : State) (bs : List Byte) : Transaction :=
  match s.sinkAns with
  | [] => .waiting
  | a :: rest =>
    if a.ok then .done [] { s with sink := s.sink ++ bs, sinkAns := rest }
    else .failed { s with sink := s.sink ++ bs.take (movedOf a bs.length), sinkAns := rest }

/-- `SourceRead(n)` (R11, R65 to R69): it succeeds when the verdict is ok and at least `n` bytes remain. -/
def sourceRead (s : State) (n : Nat) : Transaction :=
  match s.sourceAns with
  | [] => .waiting
  | a :: rest =>
    if a.ok && n ≤ s.source.length then
      .done (s.source.take n) { s with source := s.source.drop n, sourceAns := rest }
    else .failed { s with source := s.source.drop (movedOf a n), sourceAns := rest }

end Sys2Proof.Machine
end

