-- ==== Sys2Proof/Machine/Flags.lean ====
section
/-! DEFINITION. The status flags and result ports: functions of the registers, with no storage of their own
(spec/10_state.md R36, R37). -/

namespace Sys2Proof.Machine

/-- `busy` (R36). -/
def State.busy (s : State) : Bool :=
  match s.st with
  | .eHdr | .ePack | .eEmit | .dHdr | .dWord | .dExt => true
  | .idle | .done | .fault => false

/-- `idle` (R36). -/
def State.isIdle (s : State) : Bool := s.st = .idle

/-- `done` (R36). -/
def State.isDone (s : State) : Bool := s.st = .done

/-- `fault` (R36). -/
def State.isFault (s : State) : Bool := s.st = .fault

/-- The port `RES_N` (R37). -/
def State.resN (s : State) : Nat := s.n

/-- The port `RES_BYTES` (R37). -/
def State.resBytes (s : State) : Nat := s.nbytes

/-- Slot `i` of a decode's result: `VOUT[i]` when `done`, the operation was a decode and `i < RES_N`; otherwise it is
no result and the model gives the caller none (R37, R224, R286, R317, U3, U12, log entry 17). -/
def State.resultSlot (s : State) (i : Nat) : Option Slot :=
  if s.isDone && (s.op = 2 || s.op = 3) && i < s.resN then some (s.voutAt i) else none

end Sys2Proof.Machine
end

