-- ==== Sys2Proof/Machine/Operands.lean ====
section
/-! DEFINITION. The operands: the selector ROM (spec/41_selector_table.md), the fields of a Word as the generic
extractor and as the nine fixed trees take them, the header's groups. -/

namespace Sys2Proof.Machine

/-! ### The selector ROM -/

/-- `ROM[s]`: the nine rows in their fixed order (R11, R141 to R149, R151). -/
def rom : Fin 9 → Row
  | 0 => { cap := 28, bits := 1, waste := 0 }
  | 1 => { cap := 14, bits := 2, waste := 0 }
  | 2 => { cap := 9, bits := 3, waste := 1 }
  | 3 => { cap := 7, bits := 4, waste := 0 }
  | 4 => { cap := 5, bits := 5, waste := 3 }
  | 5 => { cap := 4, bits := 7, waste := 0 }
  | 6 => { cap := 3, bits := 9, waste := 1 }
  | 7 => { cap := 2, bits := 14, waste := 0 }
  | 8 => { cap := 1, bits := 28, waste := 0 }

/-- The 12-bit storage form of a row: `cap`, `bits`, `waste` from the top (R101). -/
def Row.stored (r : Row) : BitVec 12 := BitVec.ofNat 5 r.cap ++ BitVec.ofNat 5 r.bits ++ BitVec.ofNat 2 r.waste

/-- The row that 12 stored bits hold (R101). -/
def rowOfStored (b : BitVec 12) : Row :=
  { cap := (b.extractLsb' 7 5).toNat, bits := (b.extractLsb' 2 5).toNat, waste := (b.extractLsb' 0 2).toNat }

/-- SEL_LOOKUP (R140): `valid` and the row; addresses 9 to 15 answer `valid = 0` and an unspecified row, a free value
(R152, U14). -/
def romLookup (s : Selector) : Bool × Row :=
  if h : s.toNat < 9 then (true, rom ⟨s.toNat, h⟩) else (false, rowOfStored (Config.romUnspecified s))

/-- `mask_s = 2^bits - 1`, on the 28-bit payload (R153, R193). -/
def maskOf (bits : Nat) : Payload := BitVec.ofNat 28 (2 ^ bits - 1)

/-! ### The fields of a Word -/

/-- The generic extractor's items (R193): mask, append, shift right by `bits`, `k` times. -/
def genericItems (bits : Nat) : Nat → Payload → List Slot
  | 0, _ => []
  | k + 1, p => (p &&& maskOf bits).setWidth 32 :: genericItems bits k (p >>> bits)

/-- `w[hi:lo]`, zero-extended to a slot (R9, R98). -/
def slice (w : Word) (hi lo : Nat) : Slot := (w.extractLsb' lo (hi - lo + 1)).setWidth 32

/-- The 28 wires of tree XU0: `w[4]` to `w[31]` (R213). -/
def treeXu0 (w : Word) : List Slot := (List.range 28).map fun j => slice w (4 + j) (4 + j)

/-- The 14 fields of tree XU1 (R214). -/
def treeXu1 (w : Word) : List Slot :=
  [slice w 5 4, slice w 7 6, slice w 9 8, slice w 11 10, slice w 13 12, slice w 15 14,
   slice w 17 16, slice w 19 18, slice w 21 20, slice w 23 22, slice w 25 24, slice w 27 26,
   slice w 29 28, slice w 31 30]

/-- The 9 fields of tree XU2 (R215). -/
def treeXu2 (w : Word) : List Slot :=
  [slice w 6 4, slice w 9 7, slice w 12 10, slice w 15 13, slice w 18 16, slice w 21 19,
   slice w 24 22, slice w 27 25, slice w 30 28]

/-- The 7 fields of tree XU3 (R216). -/
def treeXu3 (w : Word) : List Slot :=
  [slice w 7 4, slice w 11 8, slice w 15 12, slice w 19 16, slice w 23 20, slice w 27 24,
   slice w 31 28]

/-- The 5 fields of tree XU4 (R217). -/
def treeXu4 (w : Word) : List Slot :=
  [slice w 8 4, slice w 13 9, slice w 18 14, slice w 23 19, slice w 28 24]

/-- The 4 fields of tree XU5 (R218). -/
def treeXu5 (w : Word) : List Slot :=
  [slice w 10 4, slice w 17 11, slice w 24 18, slice w 31 25]

/-- The 3 fields of tree XU6 (R219). -/
def treeXu6 (w : Word) : List Slot :=
  [slice w 12 4, slice w 21 13, slice w 30 22]

/-- The 2 fields of tree XU7 (R220). -/
def treeXu7 (w : Word) : List Slot :=
  [slice w 17 4, slice w 31 18]

/-- The 1 field of tree XU8 (R221). -/
def treeXu8 (w : Word) : List Slot :=
  [slice w 31 4]

/-! ### The header's groups -/

/-- A 7-bit group put at its place in the header value: `p = group << (7 * i)`, and `value | p`; `none` when `p` does
not fit `LEN_BITS` bits (R97, R122, R123 (a)). -/
def headerGroup (p : Config.Params) (i value : Nat) (g : BitVec 7) : Option Nat :=
  if 2 ^ p.lenBits ≤ g.toNat <<< (7 * i) then none else some (value ||| g.toNat <<< (7 * i))

end Sys2Proof.Machine
end

