-- ==== Sys2Proof/Machine/Datapath.lean ====
section
/-! DEFINITION. The datapath operations of the five sub-blocks as functions (VB_ENC, FIT, RUN, ACCEPT, SELECT, PACK of
spec/40_varbyte.md and spec/42_block_encoder.md), the extractors' writes to VOUT, and the nine rows of the opcode table
that name a datapath operation, as instructions. Such an instruction writes its result to `dp` (log entry 9). -/

namespace Sys2Proof.Machine

/-! ### The VarByte encoder -/

/-- A VB_CONT byte for the low group of `n`: `0x80 | n[6:0]` (R120). -/
def contByte (n : Nat) : Byte := 1#1 ++ BitVec.ofNat 7 n

/-- A VB_LAST byte: `n[6:0]` (R120). -/
def lastByte (n : Nat) : Byte := 0#1 ++ BitVec.ofNat 7 n

/-- The loop of R120, with a bound on the bytes still to come. -/
def vbEncLoop : Nat → Nat → List Byte
  | 0, n => [lastByte n]
  | f + 1, n => if 128 ≤ n then contByte n :: vbEncLoop f (n >>> 7) else [lastByte n]

/-- VB_ENC (R120, R121): 10 bytes are enough for every legal `LEN_BITS` (R8). -/
def vbEncode (n : Nat) : List Byte := vbEncLoop 9 n

/-! ### The encoder's datapath: the Sequence is `v`, its length `n` -/

/-- FIT (R162): `x < 2^bits`. -/
def fits (x : Slot) (bits : Nat) : Bool := x.toNat < 2 ^ bits

/-- The loop of RUN from count `k`, at most `fuel` Values more (R163). -/
def runLoop (v : Nat → Slot) (n bits idx : Nat) : Nat → Nat → Nat
  | 0, k => k
  | fuel + 1, k => if idx + k < n ∧ fits (v (idx + k)) bits then runLoop v n bits idx fuel (k + 1) else k

/-- RUN (R163). -/
def runLength (v : Nat → Slot) (n : Nat) (s : Fin 9) (idx : Nat) : Nat :=
  runLoop v n (rom s).bits idx (rom s).cap 0

/-- ACCEPT (R164). -/
def accepts (v : Nat → Slot) (n : Nat) (s : Fin 9) (idx : Nat) : Bool :=
  runLength v n s idx = (rom s).cap || idx + runLength v n s idx = n

/-- SELECT (R165): the first accepted row in table order and its run; none when the scan ends without one, which R165
says is not reached when every Value is at most `MAX_VALUE` (log entry 12). -/
def selectRow (v : Nat → Slot) (n idx : Nat) : Option (Fin 9 × Nat) :=
  ([0, 1, 2, 3, 4, 5, 6, 7, 8] : List (Fin 9)).findSome? fun s =>
    if accepts v n s idx then some (s, runLength v n s idx) else none

/-- PACK (R166): `zext_32(s)`, then each Value put at its field. -/
def packWord (v : Nat → Slot) (s : Fin 9) (k idx : Nat) : Word :=
  (List.range k).foldl (fun w j => w ||| v (idx + j) <<< (4 + j * (rom s).bits)) (BitVec.ofNat 32 s.val)

/-! ### The extractors' writes -/

/-- Writes the items of one Word to successive slots from `VOUT[OCNT]` and adds their number to OCNT (R193, R212);
`none` when a slot at or above `OUT_SLOTS` would be written (log entry 13). -/
def State.putItems (s : State) (items : List Slot) : Option State :=
  if s.ocnt + items.length ≤ s.params.outSlots then
    some { s with vout := Memory.writeRun s.vout s.ocnt items, ocnt := s.ocntReg (s.ocnt + items.length) }
  else none

/-- How many items the generic decoder takes from a Word: `min(cap, N - OCNT)` (R193). -/
def State.takeCount (s : State) (r : Row) : Nat := min r.cap (s.n - s.ocnt)

/-- EXTRACT_G on the payload of a Word of row `r` (R193). -/
def State.extractGeneric (s : State) (r : Row) (p : Payload) : Option State :=
  s.putItems (genericItems r.bits (s.takeCount r) p)

/-! ### The header decoder -/

/-- How the whole VB_DEC ends. -/
inductive HeaderEnd where
  /-- A byte's verdict is still outstanding. -/
  | waiting
  /-- It raised. -/
  | raised (s : State)
  /-- `(value, bytesConsumed)`. -/
  | decoded (value consumed : Nat) (s : State)

/-- The loop of R122 at byte `i` with the value so far; `fuel` is how many bytes `MAX_HDR_BYTES` still permits. -/
def vbDecLoop : Nat → Nat → Nat → State → HeaderEnd
  | 0, i, _, s => .raised (s.raise pvHeader i)
  | fuel + 1, i, value, s =>
    match sourceRead s 1 with
    | .waiting => .waiting
    | .failed s' => .raised (s'.raise ioSource 0)
    | .done bytes s' =>
      let b := bytes.headD 0
      match headerGroup s.params i value (groupOf b) with
      | none => .raised (s'.raise pvHeader i)
      | some v =>
        if b.msb then
          if i + 1 = maxHdrBytes s.params then .raised (s'.raise pvHeader i) else vbDecLoop fuel (i + 1) v s'
        else .decoded v (i + 1) s'

/-! ### The datapath operations as instructions -/

/-- VB_ENC (R120): the operand is a number of `LEN_BITS` bits. No flag, no fault. Run in every sequencer state (log
entry 26). -/
def execVbEnc (n : Nat) (s : State) : Host.Outcome State Fault Refusal :=
  .next { s with dp := .bytes (vbEncode (s.lenReg n)) }

/-- VB_DEC (R122, R123), where the sequencer invokes it: in D_HDR (R125, log entry 10). It consumes the source's bytes,
raises IO_SOURCE or PV_HEADER, and otherwise answers the value and the bytes consumed. While a verdict it needs is
outstanding it is not enabled (R261). -/
def execVbDec (s : State) : Host.Outcome State Fault Refusal :=
  if s.st = .dHdr then
    match vbDecLoop (maxHdrBytes s.params) 0 0 s with
    | .waiting => .next s
    | .raised s' => .next s'
    | .decoded value consumed s' => .next { s' with dp := .header value consumed }
  else .next s

/-- SEL_LOOKUP (R140, R152). No flag, no fault. Run in every sequencer state (log entry 26). -/
def execSelLookup (a : Selector) (s : State) : Host.Outcome State Fault Refusal :=
  .next { s with dp := .lookup (romLookup a).1 (romLookup a).2 }

/-- FIT (R162). No flag, no fault. Run in every sequencer state (log entry 26). -/
def execFit (x : Slot) (bits : Nat) (s : State) : Host.Outcome State Fault Refusal :=
  .next { s with dp := .bit (fits x bits) }

/-- RUN (R163) over the Sequence `VIN[0 .. N-1]`. No flag, no fault. As an instruction it reads VIN in every sequencer
state and under every OP, DESIGN CHOICE, log entry 26. -/
def execRun (r : Fin 9) (idx : Nat) (s : State) : Host.Outcome State Fault Refusal :=
  .next { s with dp := .count (runLength (vinAt s.vin) s.n r idx) }

/-- ACCEPT (R164) over the Sequence `VIN[0 .. N-1]`. No flag, no fault. As an instruction it reads VIN in every sequencer
state and under every OP, DESIGN CHOICE, log entry 26. -/
def execAccept (r : Fin 9) (idx : Nat) (s : State) : Host.Outcome State Fault Refusal :=
  .next { s with dp := .bit (accepts (vinAt s.vin) s.n r idx) }

/-- SELECT (R165) over the Sequence `VIN[0 .. N-1]`. No flag, no fault. As an instruction it reads VIN in every sequencer
state and under every OP, DESIGN CHOICE, log entry 26. -/
def execSelect (idx : Nat) (s : State) : Host.Outcome State Fault Refusal :=
  .next { s with dp := .selection (selectRow (vinAt s.vin) s.n idx) }

/-- PACK (R166, R167) over the Sequence `VIN[0 .. N-1]`. No flag, no fault of the spec; operands that reach past the
Sequence ask for a slot of VIN that does not exist (R62, log entry 13). As an instruction it reads VIN in every sequencer
state and under every OP, DESIGN CHOICE, log entry 26. -/
def execPack (r : Fin 9) (k idx : Nat) (s : State) : Host.Outcome State Fault Refusal :=
  if idx + k ≤ s.n then .next { s with dp := .packed (packWord (vinAt s.vin) r k idx) } else .fault .vinOutside

/-- EXTRACT_G (R193), where the sequencer invokes it: in D_EXT of a DECODE (R254, log entry 10). It writes the slots and
OCNT and answers the new count; the sequencer state stays. -/
def execExtractG (r : Fin 9) (p : Payload) (s : State) : Host.Outcome State Fault Refusal :=
  if s.st = .dExt ∧ s.op = 2 then
    match s.extractGeneric (rom r) p with
    | some t => .next { t with dp := .count t.ocnt }
    | none => .fault .voutOutside
  else .next s

end Sys2Proof.Machine
end

