-- ==== Sys2Proof/Machine/Commands.lean ====
section
/-! DEFINITION. The four commands (spec/45_commands_and_sequencer.md R240 to R248). -/

namespace Sys2Proof.Machine

/-- NOP: it changes no state in any sequencer state (R244). -/
def execNop (s : State) : Host.Outcome State Fault Refusal := .next s

/-- START ENCODE (R241, R247): accepted in IDLE and DONE only (R245); PV_EMPTY before PV_VALUE (R283). The port carries
`LEN_BITS` bits of the length (R38). -/
def execEncode (len : Nat) (s : State) : Host.Outcome State Fault Refusal :=
  if s.accepts then
    let t := s.startRegs 1 (s.lenReg len) (s.lenReg len)
    if t.n = 0 then .next (t.raise pvEmpty 0)
    else
      match firstTooLarge t.vin t.n with
      | some i => .next (t.raise pvValue i)
      | none => .next { t with st := .eHdr }
  else .next s

/-- The START step of either decoder (R248). -/
def State.startDecode (s : State) (op : BitVec 2) : State :=
  if s.accepts then { s.startRegs op 0 0 with st := .dHdr } else s

/-- START DECODE (R242, R248). -/
def execDecode (s : State) : Host.Outcome State Fault Refusal := .next (s.startDecode 2)

/-- START DECODE_FAST (R243, R248). -/
def execDecodeFast (s : State) : Host.Outcome State Fault Refusal := .next (s.startDecode 3)

end Sys2Proof.Machine
end

