-- ==== Sys2Proof/Machine/Header.lean ====
section
/-! DEFINITION. The two kinds of header byte (spec/40_varbyte.md R122, R123): what step D_HDR does once the source has
delivered the byte and NBYTES has counted it (spec/45_commands_and_sequencer.md R252). -/

namespace Sys2Proof.Machine

/-- The slots a decode needs (R33, R191, R211): `N`, or `N + 27` for DECODE_FAST, without wrap-around. -/
def State.need (s : State) : Nat := s.n + if s.op = 3 then Config.overrunPad else 0

/-- Allocation, once `N` is known (R252): ALLOC, or DONE when `N = 0`, or D_WORD. -/
def State.allocate (s : State) : State :=
  if s.params.outSlots < s.need then s.raise allocFail s.n
  else if s.n = 0 then { s with st := .done }
  else { s with st := .dWord }

/-- VB_CONT (R122, R123, R252): its group joins HREG and the header goes on; PV_HEADER when the group does not fit or
this is the last byte the width allows. Enabled in D_HDR only (log entry 14). -/
def execVbCont (g : BitVec 7) (s : State) : Host.Outcome State Fault Refusal :=
  if s.st = .dHdr then
    match headerGroup s.params s.hidx.toNat s.hreg g with
    | none => .next (s.raise pvHeader s.hidx.toNat)
    | some v =>
      let t := { s with hreg := s.lenReg v }
      if s.hidx.toNat + 1 = maxHdrBytes s.params then .next (t.raise pvHeader s.hidx.toNat)
      else .next { t with hidx := s.hidx + 1, st := .dHdr }
  else .next s

/-- VB_LAST (R122, R123, R252): its group joins HREG, which becomes `N`, and the buffer is allocated. Enabled in D_HDR
only. -/
def execVbLast (g : BitVec 7) (s : State) : Host.Outcome State Fault Refusal :=
  if s.st = .dHdr then
    match headerGroup s.params s.hidx.toNat s.hreg g with
    | none => .next (s.raise pvHeader s.hidx.toNat)
    | some v => .next ({ s with hreg := s.lenReg v, hidx := s.hidx + 1, n := s.lenReg v } : State).allocate
  else .next s

end Sys2Proof.Machine
end

