-- ==== Sys2Proof/Machine/Illegal.lean ====
section
/-! DEFINITION. The Words of selector 9 to 15, in either decoder: PV_SELECTOR before any slot is written
(spec/30_encoding.md R103, spec/60_exceptions.md R274, spec/45_commands_and_sequencer.md R254). -/

namespace Sys2Proof.Machine

/-- Step D_EXT on an illegal selector: PV_SELECTOR with FINFO the selector; WREG still holds the Word. Enabled in D_EXT
only (log entry 14). -/
def illegalExt (sel : Nat) (s : State) : Host.Outcome State Fault Refusal :=
  if s.st = .dExt then .next (s.raise pvSelector sel) else .next s

/-- SEL9_ILLEGAL (R103, R274); its other 28 bits are ignored. -/
def execSel9Illegal (_ : Payload) (s : State) : Host.Outcome State Fault Refusal := illegalExt 9 s

/-- SEL10_ILLEGAL (R103, R274); its other 28 bits are ignored. -/
def execSel10Illegal (_ : Payload) (s : State) : Host.Outcome State Fault Refusal := illegalExt 10 s

/-- SEL11_ILLEGAL (R103, R274); its other 28 bits are ignored. -/
def execSel11Illegal (_ : Payload) (s : State) : Host.Outcome State Fault Refusal := illegalExt 11 s

/-- SEL12_ILLEGAL (R103, R274); its other 28 bits are ignored. -/
def execSel12Illegal (_ : Payload) (s : State) : Host.Outcome State Fault Refusal := illegalExt 12 s

/-- SEL13_ILLEGAL (R103, R274); its other 28 bits are ignored. -/
def execSel13Illegal (_ : Payload) (s : State) : Host.Outcome State Fault Refusal := illegalExt 13 s

/-- SEL14_ILLEGAL (R103, R274); its other 28 bits are ignored. -/
def execSel14Illegal (_ : Payload) (s : State) : Host.Outcome State Fault Refusal := illegalExt 14 s

/-- SEL15_ILLEGAL (R103, R274); its other 28 bits are ignored. -/
def execSel15Illegal (_ : Payload) (s : State) : Host.Outcome State Fault Refusal := illegalExt 15 s

end Sys2Proof.Machine
end

