-- ==== Sys2Proof/Machine/Generic.lean ====
section
/-! DEFINITION. The Words of selector 0 to 8 under DECODE: step D_EXT with OP = 2, extraction by EXTRACT_G
(spec/43_generic_decoder.md R192 to R194, spec/45_commands_and_sequencer.md R254). -/

namespace Sys2Proof.Machine

/-- The end of D_EXT: `ST <- (if OCNT >= N then DONE else D_WORD)` (R194, R222, R254). -/
def State.finishExt (s : State) : State := { s with st := if s.n ≤ s.ocnt then .done else .dWord }

/-- Step D_EXT of a DECODE on the payload of a Word of row `r`. WREG is left as it is. Enabled in D_EXT with OP = 2
only (log entry 14). -/
def genericExt (r : Row) (p : Payload) (s : State) : Host.Outcome State Fault Refusal :=
  if s.st = .dExt ∧ s.op = 2 then
    match s.extractGeneric r p with
    | some t => .next t.finishExt
    | none => .fault .voutOutside
  else .next s

/-- W0 under DECODE (R141, R193). -/
def execW0 (p : Payload) (s : State) : Host.Outcome State Fault Refusal := genericExt (rom 0) p s

/-- W1 under DECODE (R142, R193). -/
def execW1 (p : Payload) (s : State) : Host.Outcome State Fault Refusal := genericExt (rom 1) p s

/-- W2 under DECODE (R143, R193). -/
def execW2 (p : Payload) (s : State) : Host.Outcome State Fault Refusal := genericExt (rom 2) p s

/-- W3 under DECODE (R144, R193). -/
def execW3 (p : Payload) (s : State) : Host.Outcome State Fault Refusal := genericExt (rom 3) p s

/-- W4 under DECODE (R145, R193). -/
def execW4 (p : Payload) (s : State) : Host.Outcome State Fault Refusal := genericExt (rom 4) p s

/-- W5 under DECODE (R146, R193). -/
def execW5 (p : Payload) (s : State) : Host.Outcome State Fault Refusal := genericExt (rom 5) p s

/-- W6 under DECODE (R147, R193). -/
def execW6 (p : Payload) (s : State) : Host.Outcome State Fault Refusal := genericExt (rom 6) p s

/-- W7 under DECODE (R148, R193). -/
def execW7 (p : Payload) (s : State) : Host.Outcome State Fault Refusal := genericExt (rom 7) p s

/-- W8 under DECODE (R149, R193). -/
def execW8 (p : Payload) (s : State) : Host.Outcome State Fault Refusal := genericExt (rom 8) p s

end Sys2Proof.Machine
end

