-- ==== Sys2Proof/Machine/Unrolled.lean ====
section
/-! DEFINITION. The Words of selector 0 to 8 under DECODE_FAST: step D_EXT with OP = 3, one fixed tree each
(spec/44_unrolled_decoder.md R212 to R221, spec/45_commands_and_sequencer.md R254). -/

namespace Sys2Proof.Machine

/-- Step D_EXT of a DECODE_FAST: the tree's items go to successive slots whatever `N` is, and their number is added to
OCNT (R212). Enabled in D_EXT with OP = 3 only (log entry 14). -/
def unrolledExt (items : List Slot) (s : State) : Host.Outcome State Fault Refusal :=
  if s.st = .dExt ∧ s.op = 3 then
    match s.putItems items with
    | some t => .next t.finishExt
    | none => .fault .voutOutside
  else .next s

/-- XU0 (R213). -/
def execXu0 (p : Payload) (s : State) : Host.Outcome State Fault Refusal := unrolledExt (treeXu0 (wordOf 0 p)) s

/-- XU1 (R214). -/
def execXu1 (p : Payload) (s : State) : Host.Outcome State Fault Refusal := unrolledExt (treeXu1 (wordOf 1 p)) s

/-- XU2 (R215). -/
def execXu2 (p : Payload) (s : State) : Host.Outcome State Fault Refusal := unrolledExt (treeXu2 (wordOf 2 p)) s

/-- XU3 (R216). -/
def execXu3 (p : Payload) (s : State) : Host.Outcome State Fault Refusal := unrolledExt (treeXu3 (wordOf 3 p)) s

/-- XU4 (R217). -/
def execXu4 (p : Payload) (s : State) : Host.Outcome State Fault Refusal := unrolledExt (treeXu4 (wordOf 4 p)) s

/-- XU5 (R218). -/
def execXu5 (p : Payload) (s : State) : Host.Outcome State Fault Refusal := unrolledExt (treeXu5 (wordOf 5 p)) s

/-- XU6 (R219). -/
def execXu6 (p : Payload) (s : State) : Host.Outcome State Fault Refusal := unrolledExt (treeXu6 (wordOf 6 p)) s

/-- XU7 (R220). -/
def execXu7 (p : Payload) (s : State) : Host.Outcome State Fault Refusal := unrolledExt (treeXu7 (wordOf 7 p)) s

/-- XU8 (R221). -/
def execXu8 (p : Payload) (s : State) : Host.Outcome State Fault Refusal := unrolledExt (treeXu8 (wordOf 8 p)) s

end Sys2Proof.Machine
end

