-- ==== Sys2Proof/Machine/Dispatch.lean ====
section
/-! DEFINITION. exec: one arm per instruction, each one call of its meaning. -/

namespace Sys2Proof.Machine

def exec (i : Instr) (s : State) : Host.Outcome State Fault Refusal :=
  match i with
  | .nop => Sys2Proof.Machine.execNop s
  | .encode len => Sys2Proof.Machine.execEncode len s
  | .decode => Sys2Proof.Machine.execDecode s
  | .decodeFast => Sys2Proof.Machine.execDecodeFast s
  | .vbCont g => Sys2Proof.Machine.execVbCont g s
  | .vbLast g => Sys2Proof.Machine.execVbLast g s
  | .w0 p => Sys2Proof.Machine.execW0 p s
  | .w1 p => Sys2Proof.Machine.execW1 p s
  | .w2 p => Sys2Proof.Machine.execW2 p s
  | .w3 p => Sys2Proof.Machine.execW3 p s
  | .w4 p => Sys2Proof.Machine.execW4 p s
  | .w5 p => Sys2Proof.Machine.execW5 p s
  | .w6 p => Sys2Proof.Machine.execW6 p s
  | .w7 p => Sys2Proof.Machine.execW7 p s
  | .w8 p => Sys2Proof.Machine.execW8 p s
  | .xu0 p => Sys2Proof.Machine.execXu0 p s
  | .xu1 p => Sys2Proof.Machine.execXu1 p s
  | .xu2 p => Sys2Proof.Machine.execXu2 p s
  | .xu3 p => Sys2Proof.Machine.execXu3 p s
  | .xu4 p => Sys2Proof.Machine.execXu4 p s
  | .xu5 p => Sys2Proof.Machine.execXu5 p s
  | .xu6 p => Sys2Proof.Machine.execXu6 p s
  | .xu7 p => Sys2Proof.Machine.execXu7 p s
  | .xu8 p => Sys2Proof.Machine.execXu8 p s
  | .sel9Illegal p => Sys2Proof.Machine.execSel9Illegal p s
  | .sel10Illegal p => Sys2Proof.Machine.execSel10Illegal p s
  | .sel11Illegal p => Sys2Proof.Machine.execSel11Illegal p s
  | .sel12Illegal p => Sys2Proof.Machine.execSel12Illegal p s
  | .sel13Illegal p => Sys2Proof.Machine.execSel13Illegal p s
  | .sel14Illegal p => Sys2Proof.Machine.execSel14Illegal p s
  | .sel15Illegal p => Sys2Proof.Machine.execSel15Illegal p s
  | .vbEnc n => Sys2Proof.Machine.execVbEnc n s
  | .vbDec => Sys2Proof.Machine.execVbDec s
  | .selLookup a => Sys2Proof.Machine.execSelLookup a s
  | .fit x bits => Sys2Proof.Machine.execFit x bits s
  | .run r idx => Sys2Proof.Machine.execRun r idx s
  | .accept r idx => Sys2Proof.Machine.execAccept r idx s
  | .select idx => Sys2Proof.Machine.execSelect idx s
  | .pack r k idx => Sys2Proof.Machine.execPack r k idx s
  | .extractG r p => Sys2Proof.Machine.execExtractG r p s

end Sys2Proof.Machine
end

