-- ==== Sys2Proof/Machine/Sequencer.lean ====
section
/-! DEFINITION. The sequencer's own steps (E_HDR, E_PACK, E_EMIT, D_WORD), the outside's port events, and the fetch:
which instruction the coming step runs, from the command port, from the source in D_HDR or from WREG in D_EXT
(spec/45_commands_and_sequencer.md R245 to R257). -/

namespace Sys2Proof.Machine

/-- E_HDR: emit one header byte (R249). -/
def stepEHdr (s : State) : Host.Outcome State Fault Refusal :=
  match sinkWrite s [if 128 ≤ s.hreg then contByte s.hreg else lastByte s.hreg] with
  | .waiting => .next s
  | .failed t => .next (t.raise ioSink 0)
  | .done _ t =>
    .next { t with nbytes := s.nbytesReg (s.nbytes + 1), hidx := s.hidx + 1, hreg := s.hreg >>> 7,
                   st := if 128 ≤ s.hreg then .eHdr else .ePack }

/-- E_PACK: choose the row and build the Word (R250). No row is accepted only if VIN has changed since START checked it
(R165, R318, U9): refused. -/
def stepEPack (s : State) : Host.Outcome State Fault Refusal :=
  if s.icur = s.n then .next { s with st := .done }
  else
    match selectRow (vinAt s.vin) s.n s.icur with
    | some (r, k) =>
      .next { s with wreg := packWord (vinAt s.vin) r k s.icur, kreg := BitVec.ofNat 5 k, st := .eEmit }
    | none => .refused .vinDisturbed

/-- E_EMIT: write the Word (R251). -/
def stepEEmit (s : State) : Host.Outcome State Fault Refusal :=
  match sinkWrite s (le32 s.wreg) with
  | .waiting => .next s
  | .failed t => .next (t.raise ioSink 0)
  | .done _ t =>
    .next { t with nbytes := s.nbytesReg (s.nbytes + 4), icur := s.lenReg (s.icur + s.kreg.toNat), st := .ePack }

/-- D_WORD: read one Word (R253). -/
def stepDWord (s : State) : Host.Outcome State Fault Refusal :=
  match sourceRead s 4 with
  | .waiting => .next s
  | .failed t => .next (t.raise ioSource 0)
  | .done bs t =>
    .next { t with wreg := wordOfBytes bs, nbytes := s.nbytesReg (s.nbytes + 4), st := .dExt }

/-- What the coming step is: an instruction, run on the state its fetch leaves, or a step of the sequencer or of the
outside that is no instruction, with its outcome. -/
inductive Fetched where
  | instr (i : Instr) (s : State)
  | settled (o : Host.Outcome State Fault Refusal)

/-- The fetch at the source in D_HDR: one byte, counted in NBYTES (R252). -/
def fetchHeader (s : State) : Fetched :=
  match sourceRead s 1 with
  | .waiting => .settled (.next s)
  | .failed t => .settled (.next (t.raise ioSource 0))
  | .done bs t => .instr (decodeByte (bs.headD 0)) { t with nbytes := s.nbytesReg (s.nbytes + 1) }

/-- The fetch in D_EXT: the Word in WREG, as the decoder OP names reads it (R254). With OP neither DECODE nor
DECODE_FAST, in which no run enters D_EXT, a legal selector is extracted by none of R254's lines and only its last line
is left (log entry 15). -/
def fetchWord (s : State) : Fetched :=
  match decode (.word s.op s.wreg) with
  | .instr i => .instr i s
  | .rejected _ => .settled (.next s.finishExt)

/-- The sequencer's turn: at most one step is enabled in every state (R258). In IDLE, DONE and FAULT none is (R255,
R256, log entry 21). -/
def fetchSequencer (s : State) : Fetched :=
  match s.st with
  | .idle => .settled (.next s)
  | .eHdr => .settled (stepEHdr s)
  | .ePack => .settled (stepEPack s)
  | .eEmit => .settled (stepEEmit s)
  | .dHdr => fetchHeader s
  | .dWord => .settled (stepDWord s)
  | .dExt => fetchWord s
  | .done => .settled (.next s)
  | .fault => .settled (.next s)

/-- The caller places Values in VIN: a slot is 32 bits (R34); not while `busy` (R74, R318, U9, log entry 25). -/
def placeVin (values : List Slot) (s : State) : Host.Outcome State Fault Refusal :=
  if s.busy then .refused .vinDisturbed else .next { s with vin := values }

/-- The caller connects a source (R315); not while `busy` (log entry 25). -/
def connectSource (bytes : List Byte) (s : State) : Host.Outcome State Fault Refusal :=
  if s.busy then .refused .sourceSwapped else .next { s with source := bytes }

/-- The command port: the pair presented, with the `LEN_BITS` bits its length wires carry (R38, R99). -/
def fetchCommand (op : BitVec 2) (len : Nat) (s : State) : Fetched :=
  match decode (.cmd op (s.lenReg len)) with
  | .instr i => .instr i s
  | .rejected _ => .settled (.next s)

/-- The fetch: the outside's next event if there is one, and otherwise the sequencer's turn (log entry 8). -/
def fetch (s : State) : Fetched :=
  match s.events with
  | [] => fetchSequencer s
  | .tick :: es => fetchSequencer { s with events := es }
  | .command op len :: es => fetchCommand op len { s with events := es }
  | .reset :: es => .settled (.next ({ s with events := es } : State).resetEvent)
  | .placeVin values :: es => .settled (placeVin values { s with events := es })
  | .connectSource bytes :: es => .settled (connectSource bytes { s with events := es })

/-- The state `withFetchWord` answers: what the coming step fetches is `c` (log entry 18). -/
def presentCode (s : State) : Code → State
  | .cmd op len => { s with events := .command op len :: s.events }
  | .vb b =>
    { s with st := .dHdr, op := 2, source := b :: s.source, sourceAns := { ok := true, moved := 0 } :: s.sourceAns,
             events := .tick :: s.events }
  | .word op w => { s with st := .dExt, op := op, wreg := w, events := .tick :: s.events }

end Sys2Proof.Machine
end

