-- ==== Sys2Proof/Machine/Step.lean ====
section
/-! DEFINITION. The step, and the host's `withFetchWord`. -/

namespace Sys2Proof.Machine

/-- Running what was fetched: an instruction, on the state its fetch leaves, or a step that is no instruction. -/
def runFetched : Fetched → Host.Outcome State Fault Refusal
  | .instr i t => exec i t
  | .settled o => o

/-- One step of the machine. -/
def step (s : State) : Host.Outcome State Fault Refusal := runFetched (fetch s)

/-- `s` with the table word `w` standing where the coming step fetches its instruction (log entries 18, 19). -/
def State.withFetchWord (s : State) (nbits w : Nat) : State :=
  match tableCode nbits w with
  | some c => presentCode s c
  | none => s

end Sys2Proof.Machine
end

