-- ==== Sys2Proof/Machine/Whole.lean ====
section
/-! DEFINITION. The whole operations as functions on lists: ENCODE (spec/42_block_encoder.md R170), DECODE
(spec/43_generic_decoder.md R195) and DECODE_FAST (spec/44_unrolled_decoder.md R227). No step uses them; they are the
spec's second form of the machine (spec/45_commands_and_sequencer.md R259). -/

namespace Sys2Proof.Machine

/-! ### ENCODE -/

/-- The Words of R170's loop from cursor `idx`, in at most `fuel` rounds. -/
def encodeBody (v : Nat → Slot) (n : Nat) : Nat → Nat → List Byte
  | 0, _ => []
  | fuel + 1, idx =>
    if idx < n then
      match selectRow v n idx with
      | some (r, k) => le32 (packWord v r k idx) ++ encodeBody v n fuel (idx + k)
      | none => []
    else []

/-- ENCODE (R170): the Stream of a Sequence. -/
def encodeStream (values : List Slot) : List Byte :=
  vbEncode values.length ++ encodeBody (vinAt values) values.length values.length 0

/-! ### DECODE and DECODE_FAST -/

/-- How VB_DEC ends on a byte list. -/
inductive HeaderValue where
  | decoded (value consumed : Nat) (rest : List Byte)
  | faulted (code : BitVec 4) (info : Nat)
  deriving DecidableEq, Repr

/-- VB_DEC on a byte list (R122, R123), from byte `i` with the value so far; `fuel` bytes are still permitted. -/
def vbDecodeBytes (p : Config.Params) : Nat → Nat → Nat → List Byte → HeaderValue
  | 0, i, _, _ => .faulted pvHeader i
  | _ + 1, _, _, [] => .faulted ioSource 0
  | fuel + 1, i, value, b :: rest =>
    match headerGroup p i value (groupOf b) with
    | none => .faulted pvHeader i
    | some v =>
      if b.msb then
        if i + 1 = maxHdrBytes p then .faulted pvHeader i else vbDecodeBytes p fuel (i + 1) v rest
      else .decoded v (i + 1) rest

/-- VB_DEC on a byte list. -/
def vbDecode (p : Config.Params) (bytes : List Byte) : HeaderValue := vbDecodeBytes p (maxHdrBytes p) 0 0 bytes

/-- The items of the tree that a selector fires (R212 to R221). -/
def treeItems : Fin 9 → Word → List Slot
  | 0, w => treeXu0 w
  | 1, w => treeXu1 w
  | 2, w => treeXu2 w
  | 3, w => treeXu3 w
  | 4, w => treeXu4 w
  | 5, w => treeXu5 w
  | 6, w => treeXu6 w
  | 7, w => treeXu7 w
  | 8, w => treeXu8 w

/-- How a whole decode ends: the slots written, `VOUT[0 .. OCNT-1]`, the length `N`, the bytes read and the bytes left
unread; or a fault. -/
inductive DecodeEnd where
  | finished (slots : List Slot) (n nbytes : Nat) (rest : List Byte)
  | faulted (code : BitVec 4) (info : Nat)
  deriving DecidableEq, Repr

/-- The loop of R195 and R227 in at most `fuel` rounds; `slots` are the slots written so far, `fast` chooses the
trees. -/
def decodeBody (fast : Bool) (n : Nat) : Nat → List Slot → Nat → List Byte → DecodeEnd
  | 0, slots, nbytes, src => .finished slots n nbytes src
  | fuel + 1, slots, nbytes, src =>
    if n ≤ slots.length then .finished slots n nbytes src
    else if src.length < 4 then .faulted ioSource 0
    else
      let w := wordOfBytes (src.take 4)
      if h : (selectorOf w).toNat < 9 then
        let r : Fin 9 := ⟨(selectorOf w).toNat, h⟩
        let items :=
          if fast then treeItems r w
          else genericItems (rom r).bits (min (rom r).cap (n - slots.length)) (payloadOf w)
        decodeBody fast n fuel (slots ++ items) (nbytes + 4) (src.drop 4)
      else .faulted pvSelector (selectorOf w).toNat

/-- DECODE (`fast` false, R195) or DECODE_FAST (`fast` true, R227) of a byte source that delivers every byte it has. -/
def decodeStream (p : Config.Params) (fast : Bool) (src : List Byte) : DecodeEnd :=
  match vbDecode p src with
  | .faulted code info => .faulted code info
  | .decoded n h rest =>
    if p.outSlots < n + (if fast then Config.overrunPad else 0) then .faulted allocFail n
    else decodeBody fast n n [] h rest

end Sys2Proof.Machine
end

