-- ==== Sys2Proof/Safety.lean ====
section
/-! DEFINITION. What counts as a safe run of the codec core: the invariant of its reachable states, what the caller owes
it, and the terms the statements use. -/

namespace Sys2Proof.Safety

open Sys2Proof.Machine

/-- Every slot of the Sequence `VIN[0 .. N-1]` is a codable Value (R161). -/
def ValuesLegal (vin : List Slot) (n : Nat) : Prop := ∀ i, i < n → (vinAt vin i).toNat ≤ Config.maxValue

/-- The registers are within their widths (R22). -/
structure Widths (s : State) : Prop where
  n : s.n < 2 ^ s.params.lenBits
  icur : s.icur < 2 ^ s.params.lenBits
  ocnt : s.ocnt < 2 ^ (s.params.lenBits + 1)
  nbytes : s.nbytes < 2 ^ (s.params.lenBits + 3)
  hreg : s.hreg < 2 ^ s.params.lenBits
  finfo : s.finfo < 2 ^ s.params.lenBits

/-- A running ENCODE: it is the operation, its input has been checked, and the cursor is within it (R26, R161). -/
structure Encoding (s : State) : Prop where
  op : s.op = 1
  pos : 0 < s.n
  values : ValuesLegal s.vin s.n
  cursor : s.icur ≤ s.n

/-- A running decode past its header: its buffer is allocated and items are still missing (R33, R254). -/
structure Decoding (s : State) : Prop where
  op : s.op = 2 ∨ s.op = 3
  room : s.need ≤ s.params.outSlots
  missing : s.ocnt < s.n

/-- What each sequencer state implies of the registers (R23 to R33). -/
def StateLegal (s : State) : Prop :=
  match s.st with
  | .idle => True
  | .eHdr => Encoding s ∧ s.icur = 0 ∧ s.hidx.toNat < maxHdrBytes s.params ∧ s.hreg = s.n >>> (7 * s.hidx.toNat)
  | .ePack => Encoding s
  | .eEmit => Encoding s ∧ 1 ≤ s.kreg.toNat ∧ s.kreg.toNat ≤ 28 ∧ s.icur + s.kreg.toNat ≤ s.n
  | .dHdr =>
    (s.op = 2 ∨ s.op = 3) ∧ s.n = 0 ∧ s.ocnt = 0 ∧ s.hidx.toNat < maxHdrBytes s.params ∧
      s.hreg < 2 ^ (7 * s.hidx.toNat)
  | .dWord => Decoding s
  | .dExt => Decoding s
  | .done =>
    (s.op = 1 ∧ s.icur = s.n) ∨ (s.op = 2 ∧ s.ocnt = s.n) ∨ (s.op = 3 ∧ s.n ≤ s.ocnt ∧ s.ocnt ≤ s.n + Config.overrunPad)
  | .fault => True

/-- The invariant of the reachable states: legal parameters, registers within their widths, a fault code exactly in
FAULT and then one of 1 to 7 (R32, R271), HIDX at most `MAX_HDR_BYTES` (R31), VOUT canonical and within `OUT_SLOTS`
(R63), and what the sequencer state implies. -/
structure Inv (s : State) : Prop where
  params : s.params.Legal
  widths : Widths s
  noFault : s.st ≠ .fault → s.fcode = 0 ∧ s.finfo = 0
  inFault : s.st = .fault → 1 ≤ s.fcode.toNat ∧ s.fcode.toNat ≤ 7
  hidx : s.hidx.toNat ≤ maxHdrBytes s.params
  voutWf : Memory.wf s.vout
  voutIn : ∀ e ∈ s.vout, e.1 < s.params.outSlots
  legal : StateLegal s

/-- The caller keeps VIN and its source still while the core is `busy` (R74, R318): the outside's next event is not one
that disturbs a running operation. -/
def CallerKeepsStill (s : State) : Prop :=
  match s.events with
  | .placeVin _ :: _ => s.busy = false
  | .connectSource _ :: _ => s.busy = false
  | _ => True

/-- The value of field `j` of a Word whose fields are `bits` wide: `w[4 + j*bits + bits - 1 : 4 + j*bits]` (R92, R98),
as a number. -/
def fieldValue (w : Word) (bits j : Nat) : Nat := w.toNat / 2 ^ (4 + j * bits) % 2 ^ bits

/-- The value that header bytes carry: each byte's low 7 bits at its place, low group first (R71, R97). -/
def headerSum : List Byte → Nat
  | [] => 0
  | b :: bs => b.toNat % 128 + 128 * headerSum bs

/-- The shape of a header: one byte or more, every byte but the last with its continuation marker set, the last with it
clear (R91, R96). -/
def IsHeader : List Byte → Prop
  | [] => False
  | [b] => b.toNat < 128
  | b :: bs => 128 ≤ b.toNat ∧ IsHeader bs

/-- The instruction a Word of selector `r` is under DECODE: W0 to W8. -/
def wInstr : Fin 9 → Payload → Instr
  | 0, p => .w0 p
  | 1, p => .w1 p
  | 2, p => .w2 p
  | 3, p => .w3 p
  | 4, p => .w4 p
  | 5, p => .w5 p
  | 6, p => .w6 p
  | 7, p => .w7 p
  | 8, p => .w8 p

/-- The instruction a Word of selector `r` is under DECODE_FAST: XU0 to XU8. -/
def xuInstr : Fin 9 → Payload → Instr
  | 0, p => .xu0 p
  | 1, p => .xu1 p
  | 2, p => .xu2 p
  | 3, p => .xu3 p
  | 4, p => .xu4 p
  | 5, p => .xu5 p
  | 6, p => .xu6 p
  | 7, p => .xu7 p
  | 8, p => .xu8 p

/-- The instruction a Word of selector 9 + `r` is: SEL9_ILLEGAL to SEL15_ILLEGAL. -/
def illegalInstr : Fin 7 → Payload → Instr
  | 0, p => .sel9Illegal p
  | 1, p => .sel10Illegal p
  | 2, p => .sel11Illegal p
  | 3, p => .sel12Illegal p
  | 4, p => .sel13Illegal p
  | 5, p => .sel14Illegal p
  | 6, p => .sel15Illegal p

/-- It is the sequencer's turn, on this state: the outside's next event, if there is one, is a tick. -/
def sequencerTurn (s : State) : Option State :=
  match s.events with
  | [] => some s
  | .tick :: es => some { s with events := es }
  | _ => none

/-- `k` is the largest count with `k <= cap`, `k <= N - idx` and all of `v[idx .. idx+k-1]` fitting `bits` bits
(R163). -/
def IsRun (v : Nat → Slot) (n : Nat) (r : Row) (idx k : Nat) : Prop :=
  k ≤ r.cap ∧ k ≤ n - idx ∧ (∀ j, j < k → (v (idx + j)).toNat < 2 ^ r.bits) ∧
    (k < r.cap → k < n - idx → 2 ^ r.bits ≤ (v (idx + k)).toNat)

/-- Steps from `s` until `k` have been taken, stopping at a stop. -/
abbrev runFor (k : Nat) (s : State) : Host.Outcome State Fault Refusal := Host.Core.run Sys2Proof.core k s

end Sys2Proof.Safety
end

