-- ==== Sys2Proof/Certificates/Slice0/Obligations.lean ====
section
/-! DEFINITION. The statements for the provers. Each docstring names the rule of spec/ it formalises. `r` is a row of
the selector ROM, `L` is `LEN_BITS`. -/

open Sys2Proof Sys2Proof.Machine Sys2Proof.Safety

/-! ### Encodings -/

/-- R102, R112, R113 (30_encoding.md): decoding the encoding of a well-formed instruction gives the instruction. -/
def Obligations.DecodeOfEncodeIsTheInstruction : Prop :=
  ∀ (p : Config.Params) (i : Instr) (c : Code), WellFormed p i = true → encode i = some c → decode c = .instr i

/-- R92, R96, R102: no bit of a header byte, or of a Word of selector 0 to 8 under either decoder, is dropped. -/
def Obligations.EncodeOfDecodedBitsIsTheBits : Prop :=
  (∀ (b : Byte) (i : Instr), decode (.vb b) = .instr i → encode i = some (.vb b)) ∧
  ∀ (op : BitVec 2) (w : Word) (i : Instr), op = 2 ∨ op = 3 → w.toNat % 16 ≤ 8 → decode (.word op w) = .instr i →
    encode i = some (.word op w)

/-- R96, R99, R103 and the worked Words of 95_test_vectors.md: words written out from the encodings decode to the
instructions they stand for. -/
def Obligations.SpecWordsDecodeAsWritten : Prop :=
  decode (.cmd 0b01#2 29) = .instr (.encode 29) ∧ decode (.cmd 0b11#2 0) = .instr .decodeFast ∧
  decode (.vb 0b10101100#8) = .instr (.vbCont 0b0101100#7) ∧ decode (.vb 0b00000010#8) = .instr (.vbLast 0b0000010#7) ∧
  decode (.word 2 0b11111111111111111111111111110000#32) = .instr (.w0 0b1111111111111111111111111111#28) ∧
  decode (.word 3 0b01001011000110010000011001000110#32) = .instr (.xu6 0b0100101100011001000001100100#28) ∧
  decode (.word 2 0b00000000000000000000000000001010#32) = .instr (.sel10Illegal 0#28)

/-- R70: the four bytes of a Word in stream order, and the Word that four bytes give; the one undoes the other. -/
def Obligations.WordSurvivesTheByteStream : Prop :=
  (∀ w : Word, wordOfBytes (le32 w) = w ∧
    (le32 w).map BitVec.toNat =
      [w.toNat % 256, w.toNat / 256 % 256, w.toNat / 65536 % 256, w.toNat / 16777216 % 256]) ∧
  ∀ b0 b1 b2 b3 : Byte,
    (wordOfBytes [b0, b1, b2, b3]).toNat =
      b0.toNat + 256 * b1.toNat + 65536 * b2.toNat + 16777216 * b3.toNat

/-- R150: the row invariant of the selector ROM and its consequences. -/
def Obligations.RomRowsFillTheWord : Prop :=
  (∀ r : Fin 9, 4 + (rom r).cap * (rom r).bits + (rom r).waste = 32 ∧ (rom r).cap * (rom r).bits ≤ 28 ∧
    1 ≤ (rom r).cap ∧ (rom r).cap ≤ 28 ∧ 1 ≤ (rom r).bits ∧ (rom r).bits ≤ 28 ∧ (rom r).waste ≤ 3 ∧
    (rom r).waste = 28 - (rom r).cap * (rom r).bits) ∧
  (rom 0).cap = 28

/-- R101: the storage form of a row and the nine stored rows. -/
def Obligations.RomRowsAreStoredAsListed : Prop :=
  (∀ r : Fin 9, (rom r).stored.extractLsb' 7 5 = BitVec.ofNat 5 (rom r).cap ∧
    (rom r).stored.extractLsb' 2 5 = BitVec.ofNat 5 (rom r).bits ∧
    (rom r).stored.extractLsb' 0 2 = BitVec.ofNat 2 (rom r).waste ∧ rowOfStored (rom r).stored = rom r) ∧
  ([0, 1, 2, 3, 4, 5, 6, 7, 8] : List (Fin 9)).map (fun r => (rom r).stored) =
    [0xE04, 0x708, 0x48D, 0x390, 0x297, 0x21C, 0x1A5, 0x138, 0x0F0]

/-! ### Reset and the step -/

/-- R42: the registers right after reset. VOUT is unspecified: nothing of it is listed (log entry 4). -/
def Obligations.ResetStateHasTheSpecValues : Prop :=
  let s := State.reset
  s.st = .idle ∧ s.op = 0 ∧ s.n = 0 ∧ s.icur = 0 ∧ s.ocnt = 0 ∧ s.nbytes = 0 ∧ s.wreg = 0 ∧ s.kreg = 0 ∧ s.hreg = 0 ∧
    s.hidx = 0 ∧ s.fcode = 0 ∧ s.finfo = 0 ∧ s.busy = false ∧ s.isDone = false ∧ s.isFault = false ∧ s.resN = 0 ∧
    s.resBytes = 0

/-- R310, R42, D15: reset, in any state, gives every register its reset value and leaves VOUT and the peers
untouched (log entry 4). -/
def Obligations.ResetClearsEveryRegister : Prop :=
  ∀ (s : State) (es : List Event), s.events = .reset :: es →
    step s = .next { s with st := .idle, op := 0, n := 0, icur := 0, ocnt := 0, nbytes := 0, wreg := 0, kreg := 0,
                            hreg := 0, hidx := 0, fcode := 0, finfo := 0, events := es }

/-- R245, R252, R254: a step runs the instruction decoded from the command port, from the header byte that the source
delivers (consumed and counted in NBYTES), or from WREG. -/
def Obligations.StepRunsTheDecodedInstruction : Prop :=
  (∀ (s : State) (op : BitVec 2) (len : Nat) (es : List Event) (i : Instr), s.events = .command op len :: es →
    decode (.cmd op (len % 2 ^ s.params.lenBits)) = .instr i → step s = exec i { s with events := es }) ∧
  (∀ (s t : State) (a : Answer) (as : List Answer) (b : Byte) (bs : List Byte) (i : Instr), sequencerTurn s = some t →
    t.st = .dHdr → t.sourceAns = a :: as → a.ok = true → t.source = b :: bs → decode (.vb b) = .instr i →
    step s = exec i { t with source := bs, sourceAns := as, nbytes := (t.nbytes + 1) % 2 ^ (t.params.lenBits + 3) }) ∧
  ∀ (s t : State) (i : Instr), sequencerTurn s = some t → t.st = .dExt → decode (.word t.op t.wreg) = .instr i →
    step s = exec i t

/-- R36: the status flags are functions of ST, exactly one of idle, busy, done, fault holds, and after reset the three
outputs are 0. -/
def Obligations.StatusShowsExactlyOneOfFour : Prop :=
  (∀ s : State,
    (s.busy = true ↔ s.st = .eHdr ∨ s.st = .ePack ∨ s.st = .eEmit ∨ s.st = .dHdr ∨ s.st = .dWord ∨ s.st = .dExt) ∧
    (s.isDone = true ↔ s.st = .done) ∧ (s.isFault = true ↔ s.st = .fault) ∧ (s.isIdle = true ↔ s.st = .idle) ∧
    s.isIdle.toNat + s.busy.toNat + s.isDone.toNat + s.isFault.toNat = 1) ∧
  State.reset.busy = false ∧ State.reset.isDone = false ∧ State.reset.isFault = false

/-! ### Commands -/

/-- R244: NOP changes nothing in any sequencer state. -/
def Obligations.NopChangesNothing : Prop :=
  ∀ s : State, exec .nop s = .next s ∧
    ∀ (len : Nat) (es : List Event), s.events = .command 0 len :: es → step s = .next { s with events := es }

/-- R247: START ENCODE, accepted in IDLE and DONE, re-initialises the registers; PV_EMPTY on length 0; PV_VALUE with the
least offending index; otherwise E_HDR. `m` is what the `LEN_BITS` wires of the port carry. -/
def Obligations.StartEncodeChecksThenBegins : Prop :=
  ∀ (s : State) (len : Nat), s.st = .idle ∨ s.st = .done →
    let m := len % 2 ^ s.params.lenBits
    let t : State := { s with op := 1, n := m, icur := 0, ocnt := 0, nbytes := 0, wreg := 0, kreg := 0, hreg := m,
                              hidx := 0, fcode := 0, finfo := 0 }
    (0 < m → (∀ i, i < m → (vinAt s.vin i).toNat ≤ 268435455) → exec (.encode len) s = .next { t with st := .eHdr }) ∧
    (m = 0 → exec (.encode len) s = .next { t with fcode := 1, finfo := 0, st := .fault }) ∧
    ∀ i, i < m → 268435455 < (vinAt s.vin i).toNat → (∀ j, j < i → (vinAt s.vin j).toNat ≤ 268435455) →
      exec (.encode len) s = .next { t with fcode := 2, finfo := i, st := .fault }

/-- R248: START DECODE and START DECODE_FAST, accepted in IDLE and DONE. -/
def Obligations.StartDecodeBeginsTheHeader : Prop :=
  ∀ s : State, s.st = .idle ∨ s.st = .done →
    exec .decode s = .next { s with st := .dHdr, op := 2, n := 0, icur := 0, ocnt := 0, nbytes := 0, wreg := 0,
                                    kreg := 0, hreg := 0, hidx := 0, fcode := 0, finfo := 0 } ∧
    exec .decodeFast s = .next { s with st := .dHdr, op := 3, n := 0, icur := 0, ocnt := 0, nbytes := 0, wreg := 0,
                                        kreg := 0, hreg := 0, hidx := 0, fcode := 0, finfo := 0 }

/-- R245, R320: a START presented while `busy` or in FAULT is lost: the step that takes it changes nothing else. -/
def Obligations.StartIsLostWhileBusyOrFaulted : Prop :=
  ∀ (s : State) (op : BitVec 2) (len : Nat) (es : List Event), s.st ≠ .idle → s.st ≠ .done →
    s.events = .command op len :: es → step s = .next { s with events := es }

/-- R43, R247, R248: an accepted START forgets every register: two states that agree on VOUT, the parameters and the
environment have the same outcome, whatever their registers hold. -/
def Obligations.StartForgetsEveryRegister : Prop :=
  ∀ (s t : State) (i : Instr), (s.st = .idle ∨ s.st = .done) → (t.st = .idle ∨ t.st = .done) →
    (i = .decode ∨ i = .decodeFast ∨ ∃ len, i = .encode len) → s.params = t.params → s.vout = t.vout → s.vin = t.vin →
    s.source = t.source → s.sourceAns = t.sourceAns → s.sink = t.sink → s.sinkAns = t.sinkAns → s.events = t.events →
    s.dp = t.dp → exec i s = exec i t

/-- R99, U15: `cmd_len` is read by ENCODE only. -/
def Obligations.LengthIsReadByEncodeOnly : Prop :=
  ∀ (s : State) (op : BitVec 2) (len len' : Nat) (es : List Event), op ≠ 1 →
    step { s with events := .command op len :: es } = step { s with events := .command op len' :: es }

/-! ### The header -/

/-- R123, R252: VB_CONT in D_HDR puts its group at its place and the header goes on; PV_HEADER, with FINFO the byte's
index, when the group does not fit `LEN_BITS` bits or this is byte `MAX_HDR_BYTES - 1`. -/
def Obligations.ContinuationByteExtendsTheHeader : Prop :=
  ∀ (s : State) (g : BitVec 7), s.params.Legal → s.st = .dHdr → s.hreg < 2 ^ s.params.lenBits →
    let p := g.toNat * 2 ^ (7 * s.hidx.toNat)
    (p < 2 ^ s.params.lenBits → s.hidx.toNat + 1 ≠ (s.params.lenBits + 6) / 7 →
      exec (.vbCont g) s = .next { s with hreg := s.hreg ||| p, hidx := s.hidx + 1 }) ∧
    (p < 2 ^ s.params.lenBits → s.hidx.toNat + 1 = (s.params.lenBits + 6) / 7 →
      exec (.vbCont g) s =
        .next { s with hreg := s.hreg ||| p, fcode := 4, finfo := s.hidx.toNat, st := .fault }) ∧
    (2 ^ s.params.lenBits ≤ p →
      exec (.vbCont g) s = .next { s with fcode := 4, finfo := s.hidx.toNat, st := .fault })

/-- R123, R252, R278: VB_LAST in D_HDR completes `N`; then DONE when `N = 0`, D_WORD when the buffer suffices, ALLOC
with FINFO `N` when it does not; PV_HEADER when the group does not fit. -/
def Obligations.LastByteSetsTheLengthAndAllocates : Prop :=
  ∀ (s : State) (g : BitVec 7), s.params.Legal → s.st = .dHdr → s.hreg < 2 ^ s.params.lenBits →
    let p := g.toNat * 2 ^ (7 * s.hidx.toNat)
    let v := s.hreg ||| p
    let need := v + if s.op = 3 then 27 else 0
    let t : State := { s with hreg := v, hidx := s.hidx + 1, n := v }
    (p < 2 ^ s.params.lenBits → need ≤ s.params.outSlots → 0 < v →
      exec (.vbLast g) s = .next { t with st := .dWord }) ∧
    (p < 2 ^ s.params.lenBits → need ≤ s.params.outSlots → v = 0 →
      exec (.vbLast g) s = .next { t with st := .done }) ∧
    (p < 2 ^ s.params.lenBits → s.params.outSlots < need →
      exec (.vbLast g) s = .next { t with fcode := 7, finfo := v, st := .fault }) ∧
    (2 ^ s.params.lenBits ≤ p →
      exec (.vbLast g) s = .next { s with fcode := 4, finfo := s.hidx.toNat, st := .fault })

/-- R120, R121, R97: VB_ENC answers a header that carries `n`, of the least length. That the answer stands in `dp` and
that every sequencer state may run it are the model's choices (log entries 9 and 26). -/
def Obligations.VbEncEmitsTheShortestHeader : Prop :=
  ∀ (n : Nat) (s : State), s.params.Legal → n < 2 ^ s.params.lenBits →
    ∃ bs, exec (.vbEnc n) s = .next { s with dp := .bytes bs } ∧ IsHeader bs ∧ headerSum bs = n ∧
      ∀ bs', IsHeader bs' → headerSum bs' = n → bs.length ≤ bs'.length

/-- R122, R97, R105: VB_DEC in D_HDR reads any header of at most `MAX_HDR_BYTES` bytes whose value fits, superfluous
zero groups included, consumes exactly its bytes and answers its value. That VB_DEC runs whole as an instruction in D_HDR
and writes no register, not NBYTES either, is the model's choice (log entry 10); so is that the answer stands in `dp` (log
entry 9). -/
def Obligations.VbDecReadsEveryLegalHeader : Prop :=
  ∀ (s : State) (h rest : List Byte) (as as' : List Answer), s.st = .dHdr → IsHeader h →
    h.length ≤ (s.params.lenBits + 6) / 7 → headerSum h < 2 ^ s.params.lenBits → s.source = h ++ rest →
    s.sourceAns = as ++ as' → as.length = h.length → (∀ a ∈ as, a.ok = true) →
    exec .vbDec s = .next { s with source := rest, sourceAns := as', dp := .header (headerSum h) h.length }

/-- R123, R275: VB_DEC in D_HDR raises PV_HEADER, with FINFO the byte's index, at the first byte whose group does not
fit or that is the last the width permits and has its continuation marker set; the byte is consumed and no further one
is read. That VB_DEC runs whole as an instruction in D_HDR and leaves NBYTES, HREG and HIDX as they are while bytes are
consumed is the model's choice (log entry 10). -/
def Obligations.VbDecRejectsAHeaderThatDoesNotFit : Prop :=
  ∀ (s : State) (h rest : List Byte) (b : Byte) (as as' : List Answer), s.params.Legal → s.st = .dHdr →
    (∀ c ∈ h, 128 ≤ c.toNat) → h.length < (s.params.lenBits + 6) / 7 →
    (2 ^ s.params.lenBits ≤ b.toNat % 128 * 2 ^ (7 * h.length) ∨
      (128 ≤ b.toNat ∧ h.length + 1 = (s.params.lenBits + 6) / 7)) →
    s.source = h ++ b :: rest → s.sourceAns = as ++ as' → as.length = h.length + 1 → (∀ a ∈ as, a.ok = true) →
    exec .vbDec s =
      .next { s with source := rest, sourceAns := as', fcode := 4, finfo := h.length, st := .fault }

/-- R122: VB_DEC in D_HDR raises IO_SOURCE at the first byte the source fails or does not have. That VB_DEC runs whole as
an instruction in D_HDR and leaves NBYTES, HREG and HIDX as they are is the model's choice, and so is that it changes
nothing at all, and consumes no byte already answered, while a later verdict it needs is outstanding (log entry 10). -/
def Obligations.VbDecReportsASourceFailure : Prop :=
  ∀ (s : State) (h rest : List Byte) (as : List Answer), s.st = .dHdr → (∀ c ∈ h, 128 ≤ c.toNat) →
    h.length < (s.params.lenBits + 6) / 7 → s.source = h ++ rest → as.length = h.length → (∀ a ∈ as, a.ok = true) →
    (∀ (a : Answer) (as' : List Answer), s.sourceAns = as ++ a :: as' → a.ok = false ∨ rest = [] →
      exec .vbDec s = .next { s with source := rest, sourceAns := as', fcode := 6, finfo := 0, st := .fault }) ∧
    (s.sourceAns = as → exec .vbDec s = .next s)

/-- R124: VB_DEC of a source that begins with VB_ENC(n) returns `n` and its length; VB_ENC is injective, VB_DEC is
not. -/
def Obligations.HeaderRoundTrip : Prop :=
  (∀ (p : Config.Params) (n : Nat) (rest : List Byte), p.Legal → n < 2 ^ p.lenBits →
    vbDecode p (vbEncode n ++ rest) = .decoded n (vbEncode n).length rest) ∧
  (∀ (p : Config.Params) (m n : Nat), p.Legal → m < 2 ^ p.lenBits → n < 2 ^ p.lenBits → vbEncode m = vbEncode n →
    m = n) ∧
  ∀ p : Config.Params, p.Legal → ∃ (h h' : List Byte) (n : Nat), h ≠ h' ∧
    vbDecode p h = .decoded n h.length [] ∧ vbDecode p h' = .decoded n h'.length []

/-! ### The selector ROM and the encoder's datapath -/

/-- R140 to R149, R152: SEL_LOOKUP answers the nine rows with `valid = 1`, and `valid = 0` for 9 to 15, and changes
nothing else. That the answer stands in `dp` and that every sequencer state may run it are the model's choices (log
entries 9 and 26). -/
def Obligations.SelLookupAnswersTheNineRows : Prop :=
  ∀ (a : Selector) (s : State),
    (∀ row : Row, [(0, ⟨28, 1, 0⟩), (1, ⟨14, 2, 0⟩), (2, ⟨9, 3, 1⟩), (3, ⟨7, 4, 0⟩), (4, ⟨5, 5, 3⟩), (5, ⟨4, 7, 0⟩),
        (6, ⟨3, 9, 1⟩), (7, ⟨2, 14, 0⟩), (8, ⟨1, 28, 0⟩)].lookup a.toNat = some row →
      exec (.selLookup a) s = .next { s with dp := .lookup true row }) ∧
    (9 ≤ a.toNat → ∃ row, exec (.selLookup a) s = .next { s with dp := .lookup false row })

/-- R162: FIT answers `x < 2^bits`. The same comparison for a width of 0 or above 28, which no wire carries, is the
model's (log entry 11); that the answer stands in `dp` and that every sequencer state may run it are the model's choices
(log entries 9 and 26). -/
def Obligations.FitComparesWithThePowerOfTwo : Prop :=
  ∀ (x : Slot) (bits : Nat) (s : State),
    exec (.fit x bits) s = .next { s with dp := .bit (decide (x.toNat < 2 ^ bits)) }

/-- R163: RUN answers the largest fitting run at the cursor. The answer for a cursor at or above `N` is the model's (log
entry 11); that the answer stands in `dp` and that every sequencer state may run it, reading VIN, are the model's choices
(log entries 9 and 26). -/
def Obligations.RunAnswersTheLargestFittingRun : Prop :=
  ∀ (r : Fin 9) (idx : Nat) (s : State),
    ∃ k, exec (.run r idx) s = .next { s with dp := .count k } ∧ IsRun (vinAt s.vin) s.n (rom r) idx k

/-- R164: ACCEPT answers whether the run fills the row or uses up the input; an accepted run within the input has at
least one Value. That the answer stands in `dp` and that every sequencer state may run it, reading VIN, are the model's
choices (log entries 9 and 26). -/
def Obligations.AcceptIffFullOrExhausted : Prop :=
  ∀ (r : Fin 9) (idx k : Nat) (s : State), idx < s.n → IsRun (vinAt s.vin) s.n (rom r) idx k →
    exec (.accept r idx) s = .next { s with dp := .bit (decide (k = (rom r).cap ∨ idx + k = s.n)) } ∧
    (k = (rom r).cap ∨ idx + k = s.n → 1 ≤ k)

/-- R165: on legal Values SELECT answers the first row in table order that is accepted, and its run.
That the answer stands in `dp` and that every sequencer state may run it, reading VIN, are the model's
choices (log entries 9 and 26). -/
def Obligations.SelectAnswersTheFirstAcceptedRow : Prop :=
  ∀ (idx : Nat) (s : State), idx < s.n → ValuesLegal s.vin s.n →
    ∃ (r : Fin 9) (k : Nat), exec (.select idx) s = .next { s with dp := .selection (some (r, k)) } ∧
      IsRun (vinAt s.vin) s.n (rom r) idx k ∧ (k = (rom r).cap ∨ idx + k = s.n) ∧
      ∀ (r' : Fin 9) (k' : Nat), r' < r → IsRun (vinAt s.vin) s.n (rom r') idx k' →
        k' ≠ (rom r').cap ∧ idx + k' ≠ s.n

/-- R166, R167, R92: PACK answers the Word whose selector is `r`, whose fields 0 to `k - 1` are the Values, and whose
other bits are 0. That the answer stands in `dp` and that every sequencer state may run it, reading VIN, are the model's
choices (log entries 9 and 26). -/
def Obligations.PackPutsEachValueInItsField : Prop :=
  ∀ (r : Fin 9) (k idx : Nat) (s : State), k ≤ (rom r).cap → idx + k ≤ s.n →
    (∀ j, j < k → (vinAt s.vin (idx + j)).toNat < 2 ^ (rom r).bits) →
    ∃ w : Word, exec (.pack r k idx) s = .next { s with dp := .packed w } ∧ w.toNat % 16 = r.val ∧
      (∀ j, j < k → fieldValue w (rom r).bits j = (vinAt s.vin (idx + j)).toNat) ∧
      w.toNat < 2 ^ (4 + k * (rom r).bits)

/-- The model's own (log entry 13), from R62 and R63: an access to a slot that does not exist stops. PACK reads no
`VIN[i]` with `i >= N`; W0 to W8, XU0 to XU8 and EXTRACT_G write no slot at or above `OUT_SLOTS`. -/
def Obligations.SlotsThatDoNotExistStop : Prop :=
  (∀ (r : Fin 9) (k idx : Nat) (s : State), s.n < idx + k → exec (.pack r k idx) s = .fault .vinOutside) ∧
  (∀ (r : Fin 9) (p : Payload) (s : State), s.st = .dExt → s.op = 2 →
    s.params.outSlots < s.ocnt + min (rom r).cap (s.n - s.ocnt) →
    exec (wInstr r p) s = .fault .voutOutside ∧ exec (.extractG r p) s = .fault .voutOutside) ∧
  ∀ (r : Fin 9) (p : Payload) (s : State), s.st = .dExt → s.op = 3 → s.params.outSlots < s.ocnt + (rom r).cap →
    exec (xuInstr r p) s = .fault .voutOutside

/-! ### The decoders -/

/-- R193, R194, R254, R98: W0 to W8 in D_EXT of a DECODE. With `k = min(cap, N - OCNT)`, fields 0 to `k - 1` go to slots
OCNT to OCNT + k - 1, every other slot and every register but OCNT and ST stays, and the operation ends when the count
reaches `N`. -/
def Obligations.WordUnderDecodeFillsItsSlots : Prop :=
  ∀ (r : Fin 9) (p : Payload) (s : State), s.st = .dExt → s.op = 2 →
    let k := min (rom r).cap (s.n - s.ocnt)
    let w := wordOf (BitVec.ofNat 4 r.val) p
    s.ocnt + k ≤ s.params.outSlots → s.ocnt + k < 2 ^ (s.params.lenBits + 1) →
    ∃ t, exec (wInstr r p) s = .next t ∧
      (∀ j, j < k → Memory.read t.vout (s.ocnt + j) = some (BitVec.ofNat 32 (fieldValue w (rom r).bits j))) ∧
      (∀ i, i < s.ocnt ∨ s.ocnt + k ≤ i → Memory.read t.vout i = Memory.read s.vout i) ∧
      t = { s with vout := t.vout, ocnt := s.ocnt + k, st := if s.n ≤ s.ocnt + k then .done else .dWord }

/-- R212 to R222, R254: XU0 to XU8 in D_EXT of a DECODE_FAST write all `cap` fields to slots OCNT to OCNT + cap - 1
whatever `N` is and add `cap` to OCNT; every other slot and every register but OCNT and ST stays. That the slots at `N`
and above hold those fields is the model's choice: they are any value for the caller and no result (U3, log entry 17). -/
def Obligations.TreeUnderDecodeFastFillsItsSlots : Prop :=
  ∀ (r : Fin 9) (p : Payload) (s : State), s.st = .dExt → s.op = 3 →
    let k := (rom r).cap
    let w := wordOf (BitVec.ofNat 4 r.val) p
    s.ocnt + k ≤ s.params.outSlots → s.ocnt + k < 2 ^ (s.params.lenBits + 1) →
    ∃ t, exec (xuInstr r p) s = .next t ∧
      (∀ j, j < k → Memory.read t.vout (s.ocnt + j) = some (BitVec.ofNat 32 (fieldValue w (rom r).bits j))) ∧
      (∀ i, i < s.ocnt ∨ s.ocnt + k ≤ i → Memory.read t.vout i = Memory.read s.vout i) ∧
      t = { s with vout := t.vout, ocnt := s.ocnt + k, st := if s.n ≤ s.ocnt + k then .done else .dWord }

/-- R193: EXTRACT_G writes `min(cap, N - OCNT)` items to the slots from OCNT and answers the new count. That it runs as an
instruction in D_EXT of a DECODE, that ST stays and that the count stands in `dp` are the model's choices (log entries 9
and 10). -/
def Obligations.ExtractGFillsSlotsAndCounts : Prop :=
  ∀ (r : Fin 9) (p : Payload) (s : State), s.st = .dExt → s.op = 2 →
    let k := min (rom r).cap (s.n - s.ocnt)
    let w := wordOf (BitVec.ofNat 4 r.val) p
    s.ocnt + k ≤ s.params.outSlots → s.ocnt + k < 2 ^ (s.params.lenBits + 1) →
    ∃ t, exec (.extractG r p) s = .next t ∧
      (∀ j, j < k → Memory.read t.vout (s.ocnt + j) = some (BitVec.ofNat 32 (fieldValue w (rom r).bits j))) ∧
      (∀ i, i < s.ocnt ∨ s.ocnt + k ≤ i → Memory.read t.vout i = Memory.read s.vout i) ∧
      t = { s with vout := t.vout, ocnt := s.ocnt + k, dp := .count (s.ocnt + k) }

/-- R103, R274, R254: SEL9_ILLEGAL to SEL15_ILLEGAL in D_EXT raise PV_SELECTOR with FINFO the selector and write nothing
else. -/
def Obligations.IllegalSelectorRaisesPvSelector : Prop :=
  (∀ (r : Fin 7) (p : Payload) (s : State), s.params.Legal → s.st = .dExt →
    exec (illegalInstr r p) s = .next { s with fcode := 3, finfo := 9 + r.val, st := .fault }) ∧
  ∀ s t : State, s.params.Legal → sequencerTurn s = some t → t.st = .dExt → 9 ≤ t.wreg.toNat % 16 →
    step s = .next { t with fcode := 3, finfo := t.wreg.toNat % 16, st := .fault }

/-- R95, R104, R193: under DECODE the waste bits and the fields that are not taken have no effect at all. -/
def Obligations.UnusedBitsDoNotReachADecode : Prop :=
  ∀ (r : Fin 9) (p p' : Payload) (s : State),
    (∀ j, j < min (rom r).cap (s.n - s.ocnt) →
      fieldValue (wordOf (BitVec.ofNat 4 r.val) p) (rom r).bits j =
        fieldValue (wordOf (BitVec.ofNat 4 r.val) p') (rom r).bits j) →
    exec (wInstr r p) s = exec (wInstr r p') s

/-- R226, for one Word: the tree and the generic extractor leave the same values below `N`, the same sequencer state and
the same registers but OP and OCNT. -/
def Obligations.TreeAgreesWithExtractorBelowLength : Prop :=
  ∀ (r : Fin 9) (p : Payload) (s t u : State), s.st = .dExt → s.ocnt < s.n →
    s.n + 27 < 2 ^ (s.params.lenBits + 1) → exec (wInstr r p) { s with op := 2 } = .next t →
    exec (xuInstr r p) { s with op := 3 } = .next u →
    (∀ i, i < s.n → Memory.read t.vout i = Memory.read u.vout i) ∧
      u = { t with op := 3, ocnt := u.ocnt, vout := u.vout }

/-- The model's own (log entries 10 and 14), from R257: an instruction outside the sequencer state, or under another
operation than the one, that may run it has no effect. -/
def Obligations.InstructionsNotEnabledChangeNothing : Prop :=
  ∀ s : State,
    (s.st ≠ .dHdr → exec .vbDec s = .next s ∧
      ∀ g : BitVec 7, exec (.vbCont g) s = .next s ∧ exec (.vbLast g) s = .next s) ∧
    (s.st ≠ .dExt → ∀ (r : Fin 7) (p : Payload), exec (illegalInstr r p) s = .next s) ∧
    (s.st ≠ .dExt ∨ s.op ≠ 2 → ∀ (r : Fin 9) (p : Payload),
      exec (wInstr r p) s = .next s ∧ exec (.extractG r p) s = .next s) ∧
    (s.st ≠ .dExt ∨ s.op ≠ 3 → ∀ (r : Fin 9) (p : Payload), exec (xuInstr r p) s = .next s)

/-! ### The sequencer's own steps -/

/-- R249: E_HDR writes one header byte; IO_SINK when the sink fails it. -/
def Obligations.EHdrEmitsOneHeaderByte : Prop :=
  ∀ (s t : State) (a : Answer) (as : List Answer), sequencerTurn s = some t → t.st = .eHdr → t.sinkAns = a :: as →
    (a.ok = true → 128 ≤ t.hreg →
      step s = .next { t with sink := t.sink ++ [BitVec.ofNat 8 (128 + t.hreg % 128)], sinkAns := as,
                              nbytes := (t.nbytes + 1) % 2 ^ (t.params.lenBits + 3), hidx := t.hidx + 1,
                              hreg := t.hreg / 128 }) ∧
    (a.ok = true → t.hreg < 128 →
      step s = .next { t with sink := t.sink ++ [BitVec.ofNat 8 t.hreg], sinkAns := as,
                              nbytes := (t.nbytes + 1) % 2 ^ (t.params.lenBits + 3), hidx := t.hidx + 1,
                              hreg := 0, st := .ePack }) ∧
    (a.ok = false → step s = .next { t with sinkAns := as, fcode := 5, finfo := 0, st := .fault })

/-- R250, R165, R166, R167: E_PACK goes to DONE when the input is used up; otherwise it puts in WREG the Word of the
first accepted row with its Values, and their number in KREG. -/
def Obligations.EPackBuildsTheGreedyWord : Prop :=
  ∀ s t : State, sequencerTurn s = some t → t.st = .ePack →
    (t.icur = t.n → step s = .next { t with st := .done }) ∧
    (t.icur < t.n → ValuesLegal t.vin t.n →
      ∃ (r : Fin 9) (k : Nat) (w : Word),
        step s = .next { t with wreg := w, kreg := BitVec.ofNat 5 k, st := .eEmit } ∧
        IsRun (vinAt t.vin) t.n (rom r) t.icur k ∧ (k = (rom r).cap ∨ t.icur + k = t.n) ∧
        (∀ (r' : Fin 9) (k' : Nat), r' < r → IsRun (vinAt t.vin) t.n (rom r') t.icur k' →
          k' ≠ (rom r').cap ∧ t.icur + k' ≠ t.n) ∧
        w.toNat % 16 = r.val ∧
        (∀ j, j < k → fieldValue w (rom r).bits j = (vinAt t.vin (t.icur + j)).toNat) ∧
        w.toNat < 2 ^ (4 + k * (rom r).bits))

/-- R251, R276, U7: E_EMIT writes the Word, least significant byte first, and moves the cursor; when the sink fails it,
IO_SINK, with 0 to 3 of its bytes in the sink. How many is the model's
free number (log entry 7). -/
def Obligations.EEmitWritesTheWord : Prop :=
  ∀ (s t : State) (a : Answer) (as : List Answer), sequencerTurn s = some t → t.st = .eEmit → t.sinkAns = a :: as →
    (a.ok = true → t.icur + t.kreg.toNat < 2 ^ t.params.lenBits →
      step s = .next { t with
        sink := t.sink ++ [t.wreg.extractLsb' 0 8, t.wreg.extractLsb' 8 8, t.wreg.extractLsb' 16 8,
          t.wreg.extractLsb' 24 8],
        sinkAns := as, nbytes := (t.nbytes + 4) % 2 ^ (t.params.lenBits + 3), icur := t.icur + t.kreg.toNat,
        st := .ePack }) ∧
    (a.ok = false → ∃ m, m ≤ 3 ∧
      step s = .next { t with sink := t.sink ++ (le32 t.wreg).take m, sinkAns := as, fcode := 5, finfo := 0,
                              st := .fault })

/-- R253: D_WORD reads four bytes, least significant first. R277, U7: IO_SOURCE when the source fails or fewer than four
remain, with 0 to 3 of them lost; how many is the model's free number (log entry 7). -/
def Obligations.DWordReadsOneWord : Prop :=
  ∀ (s t : State) (a : Answer) (as : List Answer), sequencerTurn s = some t → t.st = .dWord → t.sourceAns = a :: as →
    (∀ (b0 b1 b2 b3 : Byte) (rest : List Byte), a.ok = true → t.source = b0 :: b1 :: b2 :: b3 :: rest →
      step s = .next { t with
        source := rest, sourceAns := as, nbytes := (t.nbytes + 4) % 2 ^ (t.params.lenBits + 3), st := .dExt,
        wreg := BitVec.ofNat 32 (b0.toNat + 256 * b1.toNat + 65536 * b2.toNat + 16777216 * b3.toNat) }) ∧
    (a.ok = false ∨ t.source.length < 4 → ∃ m, m ≤ 3 ∧
      step s = .next { t with source := t.source.drop m, sourceAns := as, fcode := 6, finfo := 0, st := .fault })

/-- R252, R277: in D_HDR a failed read, or a source with no byte left, raises IO_SOURCE. -/
def Obligations.HeaderReadFailureRaisesIoSource : Prop :=
  ∀ (s t : State) (a : Answer) (as : List Answer), sequencerTurn s = some t → t.st = .dHdr → t.sourceAns = a :: as →
    a.ok = false ∨ t.source = [] → step s = .next { t with sourceAns := as, fcode := 6, finfo := 0, st := .fault }

/-- R261, U11: while the peer gives no verdict the machine stays as it is, for ever. Waiting is a step that
leaves the state (log entry 6). -/
def Obligations.UnansweredTransactionWaitsForEver : Prop :=
  ∀ (s : State) (k : Nat), s.events = [] →
    ((s.st = .eHdr ∨ s.st = .eEmit) ∧ s.sinkAns = []) ∨ ((s.st = .dHdr ∨ s.st = .dWord) ∧ s.sourceAns = []) →
    runFor k s = .next s ∧ s.busy = true

/-! ### The whole machine -/

/-- The invariant holds right after reset. -/
def Obligations.InvariantHoldsAtReset : Prop := Inv State.reset

/-- R22 to R33, R63, R271: every step keeps the invariant of the reachable states. -/
def Obligations.EveryStepKeepsTheInvariant : Prop :=
  ∀ s t : State, Inv s → step s = .next t → Inv t

/-- R223, R228, R165: from a state with the invariant no step stops, so no write leaves VOUT and SELECT always finds a
row, as long as the caller keeps VIN and its source still during an operation. -/
def Obligations.NoReachableStepStops : Prop :=
  ∀ s : State, Inv s → CallerKeepsStill s → ∃ t, step s = .next t

/-- R256, R288, R289: in FAULT only reset changes a register, VOUT or what a peer has. -/
def Obligations.FaultIsLeftByResetOnly : Prop :=
  ∀ s t : State, s.st = .fault → step s = .next t → (∀ es, s.events ≠ .reset :: es) →
    t = { s with events := t.events, vin := t.vin, source := t.source } ∧
      ((∀ bs es, s.events ≠ .connectSource bs :: es) → t.source = s.source)

/-- R257: the complete transition relation, as the pairs of sequencer states a step may join. -/
def Obligations.OnlyListedTransitionsOccur : Prop :=
  ∀ s t : State, step s = .next t → (∀ es, s.events ≠ .reset :: es) → s.st = t.st ∨
    (s.st, t.st) ∈ ([(.idle, .eHdr), (.done, .eHdr), (.idle, .fault), (.done, .fault), (.idle, .dHdr), (.done, .dHdr),
      (.eHdr, .ePack), (.eHdr, .fault), (.ePack, .eEmit), (.ePack, .done), (.eEmit, .ePack), (.eEmit, .fault),
      (.dHdr, .dWord), (.dHdr, .done), (.dHdr, .fault), (.dWord, .dExt), (.dWord, .fault), (.dExt, .dWord),
      (.dExt, .done), (.dExt, .fault)] : List (SeqState × SeqState))

/-- R271, R279: a fault code arises only at the step that raises it; 8 and 9 to 15 never do. -/
def Obligations.FaultCodesComeFromTheirSteps : Prop :=
  ∀ s t : State, step s = .next t → s.st ≠ .fault → t.st = .fault →
    (t.fcode = 1 ∧ (s.st = .idle ∨ s.st = .done)) ∨ (t.fcode = 2 ∧ (s.st = .idle ∨ s.st = .done)) ∨
    (t.fcode = 3 ∧ s.st = .dExt) ∨ (t.fcode = 4 ∧ s.st = .dHdr) ∨ (t.fcode = 5 ∧ (s.st = .eHdr ∨ s.st = .eEmit)) ∨
    (t.fcode = 6 ∧ (s.st = .dHdr ∨ s.st = .dWord)) ∨ (t.fcode = 7 ∧ s.st = .dHdr)

/-- R63, R64, R65: only D_EXT writes VOUT, only E_HDR and E_EMIT write the sink, which only ever grows, and only D_HDR
and D_WORD read the source, front to back, unless the caller connects another. -/
def Obligations.EachSpaceIsReachedByItsOwnSteps : Prop :=
  ∀ s t : State, step s = .next t →
    (t.vout = s.vout ∨ s.st = .dExt) ∧
    (∃ bs, t.sink = s.sink ++ bs ∧ bs.length ≤ 4 ∧ (bs = [] ∨ s.st = .eHdr ∨ s.st = .eEmit)) ∧
    ((∀ bs es, s.events ≠ .connectSource bs :: es) →
      ∃ m, m ≤ 4 ∧ t.source = s.source.drop m ∧ (m = 0 ∨ s.st = .dHdr ∨ s.st = .dWord))

/-- R24, R247, R248, R310: OP is written only by an accepted START and by reset. R313: the parameters never change. -/
def Obligations.OperationAndParametersStayFixed : Prop :=
  ∀ s t : State, step s = .next t →
    t.params = s.params ∧
    (t.op = s.op ∨ (∃ es, s.events = .reset :: es) ∨
      ((s.st = .idle ∨ s.st = .done) ∧ ∃ op len es, s.events = .command op len :: es ∧ t.op = op))

/-! ### The whole operations -/

/-- R173 (b), R171: a Stream is its header and `m` Words, `ceil(N / 28) <= m <= N`. -/
def Obligations.StreamLengthIsHeaderPlusWords : Prop :=
  ∀ v : List Slot, v ≠ [] → (∀ x ∈ v, x.toNat ≤ 268435455) →
    ∃ m, (encodeStream v).length = (vbEncode v.length).length + 4 * m ∧ (v.length + 27) / 28 ≤ m ∧ m ≤ v.length

/-- R173 (c): a Sequence of Values 0 and 1 takes exactly `ceil(N / 28)` Words. -/
def Obligations.TrivialInputTakesTheFewestWords : Prop :=
  ∀ v : List Slot, v ≠ [] → (∀ x ∈ v, x.toNat ≤ 1) →
    (encodeStream v).length = (vbEncode v.length).length + 4 * ((v.length + 27) / 28)

/-- R65, R196, R222, R223: a decode that ends well has consumed exactly the bytes it counts, and has written `N` slots
(DECODE) or from `N` to `N + 27` (DECODE_FAST). -/
def Obligations.DecodeConsumesWhatItCounts : Prop :=
  ∀ (p : Config.Params) (fast : Bool) (src : List Byte) (slots : List Slot) (n nbytes : Nat)
    (rest : List Byte), p.Legal →
    decodeStream p fast src = .finished slots n nbytes rest →
    (∃ read, src = read ++ rest ∧ read.length = nbytes) ∧ n ≤ slots.length ∧
      slots.length ≤ n + (if fast then 27 else 0) ∧ n + (if fast then 27 else 0) ≤ p.outSlots

/-- R226: on every byte source DECODE_FAST and DECODE end alike, with the same length, byte count, unread bytes and the
same first `N` slots, or the same fault; only DECODE_FAST can raise ALLOC where DECODE does not. -/
def Obligations.FastDecoderAgreesWithGenericDecoder : Prop :=
  ∀ (p : Config.Params) (src : List Byte), p.Legal →
    (∀ slots n nbytes rest, decodeStream p true src = .finished slots n nbytes rest →
      decodeStream p false src = .finished (slots.take n) n nbytes rest) ∧
    (∀ code info, code ≠ 7 → decodeStream p true src = .faulted code info →
      decodeStream p false src = .faulted code info) ∧
    ∀ code info, decodeStream p false src = .faulted code info →
      decodeStream p true src = .faulted code info ∨ ∃ n, decodeStream p true src = .faulted 7 n

/-- R200, R226 as functions: both decoders give back what ENCODE encoded, whatever bytes follow the Stream. -/
def Obligations.DecodeOfEncodeIsTheSequence : Prop :=
  ∀ (p : Config.Params) (fast : Bool) (v : List Slot) (rest : List Byte), p.Legal → v ≠ [] →
    v.length < 2 ^ p.lenBits → (∀ x ∈ v, x.toNat ≤ 268435455) → v.length + (if fast then 27 else 0) ≤ p.outSlots →
    ∃ slots, decodeStream p fast (encodeStream v ++ rest) = .finished slots v.length (encodeStream v).length rest ∧
      slots.take v.length = v

/-- R259 for ENCODE: from IDLE or DONE, with a sink that accepts every transaction, the steps write exactly the Stream
that the whole-operation function gives and end in DONE with its length in RES_BYTES. -/
def Obligations.EncodeStepsWriteTheStream : Prop :=
  ∀ (s : State) (v : List Slot), s.params.Legal → s.st = .idle ∨ s.st = .done → v ≠ [] →
    v.length < 2 ^ s.params.lenBits → (∀ x ∈ v, x.toNat ≤ 268435455) → s.vin = v →
    s.events = [.command 1 v.length] → (∀ a ∈ s.sinkAns, a.ok = true) →
    (encodeStream v).length ≤ s.sinkAns.length →
    ∃ k t, runFor k s = .next t ∧ t.st = .done ∧ t.sink = s.sink ++ encodeStream v ∧ t.resN = v.length ∧
      t.resBytes = (encodeStream v).length ∧ t.vout = s.vout ∧ t.fcode = 0

/-- R259 for the decodes that end well: from IDLE or DONE, with a source that gives every byte it has, the steps end in
DONE as the whole-operation function says: `VOUT[0 .. N-1]` is the Sequence and no slot above the need is touched. Of the
overrun slots nothing is said (U3). -/
def Obligations.DecodeStepsFollowTheFunction : Prop :=
  ∀ (s : State) (fast : Bool) (len : Nat) (slots : List Slot) (n nbytes : Nat) (rest : List Byte), s.params.Legal →
    s.st = .idle ∨ s.st = .done → s.events = [.command (if fast then 3 else 2) len] →
    (∀ a ∈ s.sourceAns, a.ok = true) → s.source.length < s.sourceAns.length →
    decodeStream s.params fast s.source = .finished slots n nbytes rest →
    ∃ k t, runFor k s = .next t ∧ t.st = .done ∧ t.resN = n ∧ t.resBytes = nbytes ∧ t.source = rest ∧
      (∀ i, i < n → Memory.read t.vout i = slots[i]?) ∧
      (∀ i, n + (if fast then 27 else 0) ≤ i → Memory.read t.vout i = Memory.read s.vout i) ∧ t.sink = s.sink ∧
      t.fcode = 0

/-- R259 for the decodes that fault: the steps end in FAULT with the code and the information that the whole-operation
function gives. -/
def Obligations.DecodeStepsFaultAsTheFunction : Prop :=
  ∀ (s : State) (fast : Bool) (len : Nat) (code : BitVec 4) (info : Nat), s.params.Legal →
    s.st = .idle ∨ s.st = .done → s.events = [.command (if fast then 3 else 2) len] →
    (∀ a ∈ s.sourceAns, a.ok = true) → s.source.length < s.sourceAns.length →
    decodeStream s.params fast s.source = .faulted code info →
    ∃ k t, runFor k s = .next t ∧ t.st = .fault ∧ t.fcode = code ∧ t.finfo = info

/-- R200, R226 on the machine: a DECODE or DECODE_FAST whose source holds the Stream of a Sequence ends in DONE with the
Sequence as its result, its length in RES_N and the Stream's length in RES_BYTES. -/
def Obligations.MachineDecodesWhatItEncoded : Prop :=
  ∀ (s : State) (fast : Bool) (len : Nat) (v : List Slot) (rest : List Byte), s.params.Legal →
    s.st = .idle ∨ s.st = .done → v ≠ [] → v.length < 2 ^ s.params.lenBits → (∀ x ∈ v, x.toNat ≤ 268435455) →
    v.length + (if fast then 27 else 0) ≤ s.params.outSlots → s.source = encodeStream v ++ rest →
    s.events = [.command (if fast then 3 else 2) len] → (∀ a ∈ s.sourceAns, a.ok = true) →
    s.source.length < s.sourceAns.length →
    ∃ k t, runFor k s = .next t ∧ t.st = .done ∧ t.resN = v.length ∧ t.resBytes = (encodeStream v).length ∧
      t.source = rest ∧ ∀ i, i < v.length → t.resultSlot i = v[i]?
end

