-- ==== Sys2Proof/Laws/Memory.lean ====
section
/-! SUPPORT. VOUT: a read after a write, and the canonical form that every write keeps. -/

namespace Sys2Proof.Machine

@[simp] theorem Memory.read_nil (i : Nat) : Memory.read [] i = none := rfl

@[simp] theorem Memory.writeRun_nil (m : Memory) (i : Nat) : Memory.writeRun m i [] = m := rfl

@[simp] theorem Memory.writeRun_cons (m : Memory) (i : Nat) (v : Slot) (vs : List Slot) :
    Memory.writeRun m i (v :: vs) = Memory.writeRun (Memory.write m i v) (i + 1) vs := rfl

/-- A read after a write gives the value written there and leaves every other slot as it was. -/
theorem Memory.read_write (m : Memory) (i j : Nat) (v : Slot) :
    Memory.read (Memory.write m i v) j = if j = i then some v else Memory.read m j := by
  induction m with
  | nil => simp [Memory.write, Memory.read]
  | cons e rest ih =>
    obtain ⟨a, x⟩ := e
    simp only [Memory.write]
    split
    · simp [Memory.read]
    · split
      · rename_i h; subst h; simp only [Memory.read]; split <;> rfl
      · simp only [Memory.read, ih]; split <;> split <;> first | rfl | omega

@[simp] theorem Memory.read_write_same (m : Memory) (i : Nat) (v : Slot) :
    Memory.read (Memory.write m i v) i = some v := by simp [Memory.read_write]

theorem Memory.read_write_other (m : Memory) {i j : Nat} (v : Slot) (h : j ≠ i) :
    Memory.read (Memory.write m i v) j = Memory.read m j := by simp [Memory.read_write, h]

/-- A run of writes: inside it a slot holds its item, outside it nothing has changed (R63, R193). -/
theorem Memory.read_writeRun (items : List Slot) (m : Memory) (i j : Nat) :
    Memory.read (Memory.writeRun m i items) j =
      if i ≤ j ∧ j < i + items.length then items[j - i]? else Memory.read m j := by
  induction items generalizing m i with
  | nil => simp
  | cons v vs ih =>
    rw [Memory.writeRun_cons, ih, Memory.read_write]
    by_cases hj : j = i
    · subst hj; simp
    · by_cases hr : i + 1 ≤ j ∧ j < i + 1 + vs.length
      · have h : j - i = (j - (i + 1)) + 1 := by omega
        rw [if_pos hr, if_pos (by simp; omega), h, List.getElem?_cons_succ]
      · rw [if_neg hr, if_neg hj, if_neg (by simp; omega)]

/-- The slots a write lists: those listed before, and the one written. -/
theorem Memory.mem_write {m : Memory} {i : Nat} {v : Slot} {e : Nat × Slot} (h : e ∈ Memory.write m i v) :
    e ∈ m ∨ e = (i, v) := by
  induction m with
  | nil => simpa [Memory.write] using h
  | cons x rest ih =>
    obtain ⟨a, y⟩ := x
    simp only [Memory.write] at h
    split at h
    · rcases List.mem_cons.1 h with h | h
      · exact .inr h
      · exact .inl h
    · split at h
      · rcases List.mem_cons.1 h with h | h
        · exact .inr h
        · exact .inl (List.mem_cons_of_mem _ h)
      · rcases List.mem_cons.1 h with h | h
        · exact .inl (h ▸ List.mem_cons_self)
        · rcases ih h with h | h
          · exact .inl (List.mem_cons_of_mem _ h)
          · exact .inr h

/-- Every write keeps the canonical form. -/
theorem Memory.write_wf {m : Memory} (h : Memory.wf m) (i : Nat) (v : Slot) : Memory.wf (Memory.write m i v) := by
  induction m with
  | nil => simp [Memory.wf, Memory.write]
  | cons e rest ih =>
    obtain ⟨a, x⟩ := e
    have hr : Memory.wf rest := (List.pairwise_cons.1 h).2
    have ha : ∀ b ∈ rest.map Prod.fst, a < b := (List.pairwise_cons.1 h).1
    simp only [Memory.write]
    split
    · rename_i hi
      refine List.pairwise_cons.2 ⟨?_, h⟩
      intro b hb
      rcases List.mem_cons.1 hb with hb | hb
      · simpa [hb] using hi
      · exact lt_trans hi (ha b hb)
    · split
      · rename_i hi; subst hi; exact List.pairwise_cons.2 ⟨ha, hr⟩
      · rename_i h1 h2
        refine List.pairwise_cons.2 ⟨?_, ih hr⟩
        intro b hb
        obtain ⟨e, he, rfl⟩ := List.mem_map.1 hb
        rcases Memory.mem_write he with he | rfl
        · exact ha _ (List.mem_map.2 ⟨e, he, rfl⟩)
        · simp only; omega

theorem Memory.writeRun_wf {m : Memory} (h : Memory.wf m) (items : List Slot) (i : Nat) :
    Memory.wf (Memory.writeRun m i items) := by
  induction items generalizing m i with
  | nil => exact h
  | cons v vs ih => exact ih (Memory.write_wf h i v) (i + 1)

/-- A run of writes below a bound lists no slot at or above it. -/
theorem Memory.writeRun_below {m : Memory} {b : Nat} (h : ∀ e ∈ m, e.1 < b) (items : List Slot) (i : Nat)
    (hi : i + items.length ≤ b) : ∀ e ∈ Memory.writeRun m i items, e.1 < b := by
  induction items generalizing m i with
  | nil => exact h
  | cons v vs ih =>
    have hlen : i + (vs.length + 1) ≤ b := by simpa using hi
    refine ih ?_ (i + 1) (by omega)
    intro e he
    rcases Memory.mem_write he with he | rfl
    · exact h e he
    · simp only; omega

/-- Reset's VOUT has the canonical form. -/
theorem State.reset_vout_wf : Memory.wf State.reset.vout := by decide

end Sys2Proof.Machine
end

