-- ==== Sys2Proof/Laws/Peers.lean ====
section
/-! SUPPORT. What a transaction with a peer can do, and the widths registers keep. -/

namespace Sys2Proof.Machine

/-- A number that fits is kept whole. -/
theorem lowBits_of_lt {w v : Nat} (h : v < 2 ^ w) : lowBits w v = v := Nat.mod_eq_of_lt h

theorem lowBits_lt (w v : Nat) : lowBits w v < 2 ^ w := Nat.mod_lt _ (Nat.two_pow_pos w)

theorem State.lenReg_of_lt {s : State} {v : Nat} (h : v < 2 ^ s.params.lenBits) : s.lenReg v = v := lowBits_of_lt h

theorem State.lenReg_lt (s : State) (v : Nat) : s.lenReg v < 2 ^ s.params.lenBits := lowBits_lt _ _

theorem State.ocntReg_of_lt {s : State} {v : Nat} (h : v < 2 ^ (s.params.lenBits + 1)) : s.ocntReg v = v :=
  lowBits_of_lt h

theorem State.nbytesReg_lt (s : State) (v : Nat) : s.nbytesReg v < 2 ^ (s.params.lenBits + 3) := lowBits_lt _ _

@[simp] theorem State.lenReg_zero (s : State) : s.lenReg 0 = 0 := Nat.zero_mod _

/-- A sink transaction waits exactly when no verdict is left. -/
theorem sinkWrite_waiting {s : State} (h : s.sinkAns = []) (bs : List Byte) : sinkWrite s bs = .waiting := by
  simp [sinkWrite, h]

/-- A sink transaction the sink accepts appends all its bytes (R64, R68). -/
theorem sinkWrite_ok {s : State} {a : Answer} {rest : List Answer} (h : s.sinkAns = a :: rest) (ha : a.ok = true)
    (bs : List Byte) : sinkWrite s bs = .done [] { s with sink := s.sink ++ bs, sinkAns := rest } := by
  simp [sinkWrite, h, ha]

/-- A sink transaction the sink fails (R68, U7). -/
theorem sinkWrite_fail {s : State} {a : Answer} {rest : List Answer} (h : s.sinkAns = a :: rest) (ha : a.ok = false)
    (bs : List Byte) :
    sinkWrite s bs = .failed { s with sink := s.sink ++ bs.take (movedOf a bs.length), sinkAns := rest } := by
  simp [sinkWrite, h, ha]

/-- A source transaction waits exactly when no verdict is left. -/
theorem sourceRead_waiting {s : State} (h : s.sourceAns = []) (n : Nat) : sourceRead s n = .waiting := by
  simp [sourceRead, h]

/-- A source transaction that succeeds delivers the next `n` bytes and consumes them (R65, R68). -/
theorem sourceRead_ok {s : State} {a : Answer} {rest : List Answer} (h : s.sourceAns = a :: rest) (ha : a.ok = true)
    {n : Nat} (hn : n ≤ s.source.length) :
    sourceRead s n = .done (s.source.take n) { s with source := s.source.drop n, sourceAns := rest } := by
  simp [sourceRead, h, ha, hn]

/-- A source transaction fails when the verdict is fail or too few bytes remain (R69). -/
theorem sourceRead_fail {s : State} {a : Answer} {rest : List Answer} (h : s.sourceAns = a :: rest) {n : Nat}
    (hf : a.ok = false ∨ s.source.length < n) :
    sourceRead s n = .failed { s with source := s.source.drop (movedOf a n), sourceAns := rest } := by
  rcases hf with hf | hf
  · simp [sourceRead, h, hf]
  · have : ¬ n ≤ s.source.length := by omega
    simp [sourceRead, h, this]

/-- Everything a sink transaction can do. -/
theorem sinkWrite_cases (s : State) (bs : List Byte) :
    (s.sinkAns = [] ∧ sinkWrite s bs = .waiting) ∨
    (∃ a rest, s.sinkAns = a :: rest ∧ a.ok = true ∧
      sinkWrite s bs = .done [] { s with sink := s.sink ++ bs, sinkAns := rest }) ∨
    (∃ a rest, s.sinkAns = a :: rest ∧ a.ok = false ∧
      sinkWrite s bs = .failed { s with sink := s.sink ++ bs.take (movedOf a bs.length), sinkAns := rest }) := by
  rcases h : s.sinkAns with _ | ⟨a, rest⟩
  · exact .inl ⟨rfl, sinkWrite_waiting h bs⟩
  · cases ha : a.ok
    · exact .inr (.inr ⟨a, rest, rfl, ha, sinkWrite_fail h ha bs⟩)
    · exact .inr (.inl ⟨a, rest, rfl, ha, sinkWrite_ok h ha bs⟩)

/-- Everything a source transaction can do. -/
theorem sourceRead_cases (s : State) (n : Nat) :
    (s.sourceAns = [] ∧ sourceRead s n = .waiting) ∨
    (∃ a rest, s.sourceAns = a :: rest ∧ a.ok = true ∧ n ≤ s.source.length ∧
      sourceRead s n = .done (s.source.take n) { s with source := s.source.drop n, sourceAns := rest }) ∨
    (∃ a rest, s.sourceAns = a :: rest ∧ (a.ok = false ∨ s.source.length < n) ∧
      sourceRead s n = .failed { s with source := s.source.drop (movedOf a n), sourceAns := rest }) := by
  rcases h : s.sourceAns with _ | ⟨a, rest⟩
  · exact .inl ⟨rfl, sourceRead_waiting h n⟩
  · cases ha : a.ok
    · exact .inr (.inr ⟨a, rest, rfl, .inl ha, sourceRead_fail h (.inl ha)⟩)
    · by_cases hn : n ≤ s.source.length
      · exact .inr (.inl ⟨a, rest, rfl, ha, hn, sourceRead_ok h ha hn⟩)
      · exact .inr (.inr ⟨a, rest, rfl, .inr (by omega), sourceRead_fail h (.inr (by omega))⟩)

end Sys2Proof.Machine
end

