-- ==== Sys2Proof/Laws/Words.lean ====
section
/-! SUPPORT. The fields and the byte order of a Word. -/

namespace Sys2Proof

/-- A Word as a number (R92). -/
theorem wordOf_toNat (s : Selector) (p : Payload) : (wordOf s p).toNat = p.toNat * 16 + s.toNat := by
  have h : (wordOf s p).toNat = (p ++ s : BitVec (28 + 4)).toNat := rfl
  rw [h, BitVec.toNat_append, ← Nat.shiftLeft_add_eq_or_of_lt s.isLt, Nat.shiftLeft_eq]

theorem selectorOf_toNat (w : Word) : (selectorOf w).toNat = w.toNat % 16 := by
  simp [selectorOf, BitVec.extractLsb'_toNat]

theorem payloadOf_toNat (w : Word) : (payloadOf w).toNat = w.toNat / 16 := by
  have := w.isLt
  simp [payloadOf, BitVec.extractLsb'_toNat, Nat.shiftRight_eq_div_pow]
  omega

@[simp] theorem selectorOf_wordOf (s : Selector) (p : Payload) : selectorOf (wordOf s p) = s := by
  have := s.isLt
  apply BitVec.eq_of_toNat_eq
  rw [selectorOf_toNat, wordOf_toNat]
  omega

@[simp] theorem payloadOf_wordOf (s : Selector) (p : Payload) : payloadOf (wordOf s p) = p := by
  have := s.isLt
  apply BitVec.eq_of_toNat_eq
  rw [payloadOf_toNat, wordOf_toNat]
  omega

/-- A Word is its selector and its payload (R92). -/
@[simp] theorem wordOf_fields (w : Word) : wordOf (selectorOf w) (payloadOf w) = w := by
  apply BitVec.eq_of_toNat_eq
  rw [wordOf_toNat, selectorOf_toNat, payloadOf_toNat]
  omega

/-- The bytes of a Word give it back (R70). -/
@[simp] theorem wordOfBytes_le32 (w : Word) : wordOfBytes (le32 w) = w := by
  ext i hi
  simp only [wordOfBytes, wordOfLe, le32, List.getD_cons_zero, List.getD_cons_succ, BitVec.getElem_or,
    BitVec.getElem_shiftLeft, BitVec.getElem_setWidth, BitVec.getLsbD_extractLsb']
  interval_cases i <;> simp

@[simp] theorem le32_length (w : Word) : (le32 w).length = 4 := rfl

end Sys2Proof
end

