-- ==== Sys2Proof/Laws/Datapath.lean ====
section
/-! SUPPORT. What each datapath operation can do: RUN, ACCEPT, SELECT, PACK, the extractors' items and their writes, the
header encoder. -/

namespace Sys2Proof.Machine

open Sys2Proof.Safety

/-! ### The selector ROM -/

/-- The row invariant and its consequences (R150). -/
theorem rom_facts (r : Fin 9) :
    4 + (rom r).cap * (rom r).bits + (rom r).waste = 32 ∧ 1 ≤ (rom r).cap ∧ (rom r).cap ≤ 28 ∧ 1 ≤ (rom r).bits ∧
      (rom r).bits ≤ 28 := by
  revert r; decide

/-- Fields below `cap` end within the Word (R94). -/
theorem rom_field_end (r : Fin 9) {k : Nat} (h : k ≤ (rom r).cap) : 4 + k * (rom r).bits ≤ 32 := by
  have h1 := (rom_facts r).1
  have h2 : k * (rom r).bits ≤ (rom r).cap * (rom r).bits := Nat.mul_le_mul_right _ h
  omega

/-! ### RUN, ACCEPT, SELECT -/

theorem fits_iff (x : Slot) (bits : Nat) : fits x bits = true ↔ x.toNat < 2 ^ bits := by simp [fits]

/-- What the loop of RUN reaches from count `k`. -/
theorem runLoop_spec (v : Nat → Slot) (n bits idx fuel k : Nat) :
    k ≤ runLoop v n bits idx fuel k ∧ runLoop v n bits idx fuel k ≤ k + fuel ∧
      (∀ j, k ≤ j → j < runLoop v n bits idx fuel k → idx + j < n ∧ (v (idx + j)).toNat < 2 ^ bits) ∧
      (runLoop v n bits idx fuel k < k + fuel → idx + runLoop v n bits idx fuel k < n →
        2 ^ bits ≤ (v (idx + runLoop v n bits idx fuel k)).toNat) := by
  induction fuel generalizing k with
  | zero => simp [runLoop]; intro j h1 h2; omega
  | succ fuel ih =>
    simp only [runLoop, fits_iff]
    split
    · rename_i h
      obtain ⟨h1, h2, h3, h4⟩ := ih (k + 1)
      refine ⟨by omega, by omega, ?_, fun h5 => h4 (by omega)⟩
      intro j hj hj'
      rcases Nat.eq_or_lt_of_le hj with rfl | hj
      · exact h
      · exact h3 j hj hj'
    · rename_i h
      refine ⟨le_refl _, by omega, fun j h1 h2 => by omega, ?_⟩
      intro _ hn
      by_contra hc
      exact h ⟨hn, by omega⟩

/-- RUN answers the run (R163). -/
theorem runLength_isRun (v : Nat → Slot) (n : Nat) (r : Fin 9) (idx : Nat) :
    IsRun v n (rom r) idx (runLength v n r idx) := by
  obtain ⟨-, h2, h3, h4⟩ := runLoop_spec v n (rom r).bits idx (rom r).cap 0
  rw [Nat.zero_add] at h2 h4
  refine ⟨h2, ?_, fun j hj => (h3 j (Nat.zero_le _) hj).2, fun h5 h6 => h4 h5 (by
    simp only [runLength] at h6; omega)⟩
  rcases Nat.eq_zero_or_pos (runLength v n r idx) with h0 | h0
  · omega
  · have h5 := (h3 (runLength v n r idx - 1) (Nat.zero_le _) (by unfold runLength at *; omega)).1
    omega

/-- A run is unique (R163). -/
theorem isRun_unique {v : Nat → Slot} {n : Nat} {r : Row} {idx k k' : Nat} (h : IsRun v n r idx k)
    (h' : IsRun v n r idx k') : k = k' := by
  obtain ⟨a1, a2, a3, a4⟩ := h
  obtain ⟨b1, b2, b3, b4⟩ := h'
  rcases Nat.lt_trichotomy k k' with hl | hl | hl
  · have := b3 k hl; have := a4 (by omega) (by omega); omega
  · exact hl
  · have := a3 k' hl; have := b4 (by omega) (by omega); omega

/-- ACCEPT (R164). -/
theorem accepts_iff (v : Nat → Slot) (n : Nat) (r : Fin 9) (idx : Nat) :
    accepts v n r idx = true ↔ runLength v n r idx = (rom r).cap ∨ idx + runLength v n r idx = n := by
  simp [accepts]

/-- The rows in table order (R151, R165). -/
theorem rows_sorted : ([0, 1, 2, 3, 4, 5, 6, 7, 8] : List (Fin 9)).Pairwise (· < ·) := by decide

theorem mem_rows (r : Fin 9) : r ∈ ([0, 1, 2, 3, 4, 5, 6, 7, 8] : List (Fin 9)) := by revert r; decide

/-- What SELECT answers: an accepted row, its run, and every earlier row was rejected (R165). -/
theorem selectRow_some {v : Nat → Slot} {n idx : Nat} {r : Fin 9} {k : Nat} (h : selectRow v n idx = some (r, k)) :
    accepts v n r idx = true ∧ k = runLength v n r idx ∧ ∀ r' : Fin 9, r' < r → accepts v n r' idx = false := by
  obtain ⟨l1, a, l2, hl, ha, hn⟩ := List.findSome?_eq_some_iff.1 h
  split at ha
  · rename_i hacc
    cases ha
    refine ⟨hacc, rfl, fun r' hr' => ?_⟩
    have hs := rows_sorted
    rw [hl, List.pairwise_append, List.pairwise_cons] at hs
    have hm := mem_rows r'
    rw [hl, List.mem_append, List.mem_cons] at hm
    rcases hm with hm | rfl | hm
    · have := hn r' hm
      simpa using this
    · exact absurd hr' (lt_irrefl _)
    · exact absurd (hs.2.1.1 r' hm) (not_lt.2 hr'.le)
  · cases ha

/-- SELECT meets no row exactly when every row is rejected. -/
theorem selectRow_none {v : Nat → Slot} {n idx : Nat} :
    selectRow v n idx = none ↔ ∀ r : Fin 9, accepts v n r idx = false := by
  rw [selectRow, List.findSome?_eq_none_iff]
  constructor
  · intro h r
    simpa using h r (mem_rows r)
  · intro h r _
    simp [h r]

/-- Row 8 accepts every codable Value, so SELECT always ends (R149, R165). -/
theorem selectRow_isSome {v : Nat → Slot} {n idx : Nat} (hi : idx < n) (hv : (v idx).toNat ≤ Config.maxValue) :
    ∃ r k, selectRow v n idx = some (r, k) := by
  cases h : selectRow v n idx with
  | some rk => exact ⟨rk.1, rk.2, rfl⟩
  | none =>
    exfalso
    have h8 := selectRow_none.1 h 8
    obtain ⟨h1, -, -, h4⟩ := runLength_isRun v n 8 idx
    have hc : (rom 8).cap = 1 := rfl
    have hb : (rom 8).bits = 28 := rfl
    rw [hc] at h1 h4
    rw [hb] at h4
    have hnot : ¬ runLength v n 8 idx = 1 := fun hr => by
      rw [(accepts_iff v n 8 idx).2 (.inl hr)] at h8
      cases h8
    have h0 : runLength v n 8 idx = 0 := by omega
    rw [h0] at h4
    have := h4 (by omega) (by omega)
    simp only [Nat.add_zero] at this
    unfold Config.maxValue at hv
    omega

/-- What SELECT's answer bounds: `1 <= k <= cap`, the run stays within the input and all its Values fit (R163 to
R165). -/
theorem selectRow_bounds {v : Nat → Slot} {n idx : Nat} (hi : idx < n) {r : Fin 9} {k : Nat}
    (h : selectRow v n idx = some (r, k)) :
    1 ≤ k ∧ k ≤ (rom r).cap ∧ idx + k ≤ n ∧ ∀ j, j < k → (v (idx + j)).toNat < 2 ^ (rom r).bits := by
  obtain ⟨ha, rfl, -⟩ := selectRow_some h
  obtain ⟨h1, h2, h3, -⟩ := runLength_isRun v n r idx
  have hcap := (rom_facts r).2.1
  refine ⟨?_, h1, by omega, h3⟩
  rcases (accepts_iff v n r idx).1 ha with h | h <;> omega

/-! ### Fields of a Word -/

/-- A slice of a Word as a number (R9). -/
theorem slice_toNat (w : Word) (hi lo : Nat) (h : hi - lo + 1 ≤ 32) :
    (slice w hi lo).toNat = w.toNat / 2 ^ lo % 2 ^ (hi - lo + 1) := by
  have hlt : w.toNat / 2 ^ lo % 2 ^ (hi - lo + 1) < 2 ^ 32 :=
    lt_of_lt_of_le (Nat.mod_lt _ (Nat.two_pow_pos _)) (Nat.pow_le_pow_right (by omega) h)
  simp only [slice, BitVec.toNat_setWidth, BitVec.extractLsb'_toNat, Nat.shiftRight_eq_div_pow]
  exact Nat.mod_eq_of_lt hlt

theorem slice_eq (w : Word) (hi lo : Nat) (h : hi - lo + 1 ≤ 32) :
    slice w hi lo = BitVec.ofNat 32 (w.toNat / 2 ^ lo % 2 ^ (hi - lo + 1)) := by
  apply BitVec.eq_of_toNat_eq
  have hlt : w.toNat / 2 ^ lo % 2 ^ (hi - lo + 1) < 2 ^ 32 :=
    lt_of_lt_of_le (Nat.mod_lt _ (Nat.two_pow_pos _)) (Nat.pow_le_pow_right (by omega) h)
  rw [slice_toNat w hi lo h, BitVec.toNat_ofNat, Nat.mod_eq_of_lt hlt]

/-- The slots that the first `k` fields of a Word fill (R98). -/
def fieldSlots (w : Word) (bits k : Nat) : List Slot :=
  (List.range k).map fun j => BitVec.ofNat 32 (fieldValue w bits j)

@[simp] theorem fieldSlots_length (w : Word) (bits k : Nat) : (fieldSlots w bits k).length = k := by simp [fieldSlots]

theorem fieldSlots_get (w : Word) (bits : Nat) {k j : Nat} (h : j < k) :
    (fieldSlots w bits k)[j]? = some (BitVec.ofNat 32 (fieldValue w bits j)) := by
  simp [fieldSlots, h]

/-- Each fixed tree takes all the fields of its row (R213 to R221). -/
theorem treeItems_eq (r : Fin 9) (w : Word) : treeItems r w = fieldSlots w (rom r).bits (rom r).cap := by
  fin_cases r <;>
    simp [treeItems, treeXu0, treeXu1, treeXu2, treeXu3, treeXu4, treeXu5, treeXu6, treeXu7, treeXu8, rom, fieldSlots,
      fieldValue, slice_eq, List.range_succ]

/-- The field of a Word in terms of its payload (R92). -/
theorem fieldValue_payload (w : Word) (bits j : Nat) :
    fieldValue w bits j = (payloadOf w).toNat / 2 ^ (j * bits) % 2 ^ bits := by
  rw [fieldValue, payloadOf_toNat, Nat.pow_add, ← Nat.div_div_eq_div_mul]

theorem maskOf_and_toNat (p : Payload) (bits : Nat) (h : bits ≤ 28) :
    ((p &&& maskOf bits).setWidth 32 : Slot).toNat = p.toNat % 2 ^ bits := by
  have hp := p.isLt
  have h2 : 2 ^ bits ≤ 2 ^ 28 := Nat.pow_le_pow_right (by omega) h
  have h3 : 0 < 2 ^ bits := Nat.two_pow_pos bits
  have hm : (maskOf bits).toNat = 2 ^ bits - 1 := by
    rw [maskOf, BitVec.toNat_ofNat]; exact Nat.mod_eq_of_lt (by omega)
  rw [BitVec.toNat_setWidth, BitVec.toNat_and, hm, Nat.and_two_pow_sub_one_eq_mod]
  have := Nat.mod_lt p.toNat h3
  exact Nat.mod_eq_of_lt (by omega)

theorem genericItems_spec (bits k : Nat) (h : bits ≤ 28) (p : Payload) :
    genericItems bits k p = (List.range k).map fun j => BitVec.ofNat 32 (p.toNat / 2 ^ (j * bits) % 2 ^ bits) := by
  induction k generalizing p with
  | zero => rfl
  | succ k ih =>
    rw [genericItems, ih, List.range_succ_eq_map, List.map_cons, List.map_map]
    congr 1
    · apply BitVec.eq_of_toNat_eq
      have h2 : 2 ^ bits ≤ 2 ^ 28 := Nat.pow_le_pow_right (by omega) h
      have h3 := Nat.mod_lt p.toNat (Nat.two_pow_pos bits)
      have hlt : p.toNat % 2 ^ bits < 2 ^ 32 := by omega
      rw [maskOf_and_toNat p bits h, BitVec.toNat_ofNat, Nat.zero_mul, Nat.pow_zero, Nat.div_one, Nat.mod_eq_of_lt hlt]
    · apply List.map_congr_left
      intro j _
      simp only [Function.comp, BitVec.toNat_ushiftRight, Nat.shiftRight_eq_div_pow, Nat.div_div_eq_div_mul, ← Nat.pow_add]
      rw [Nat.succ_mul, Nat.add_comm]

/-- The generic extractor takes the first `k` fields of its row (R193, R226). -/
theorem genericItems_eq (r : Fin 9) (k : Nat) (w : Word) :
    genericItems (rom r).bits k (payloadOf w) = fieldSlots w (rom r).bits k := by
  rw [genericItems_spec _ _ (rom_facts r).2.2.2.2, fieldSlots]
  simp only [fieldValue_payload]

/-! ### The extractors' writes -/

/-- What writing a Word's items does, when they are within VOUT (R193, R212). -/
theorem State.putItems_eq {s : State} {items : List Slot} (h : s.ocnt + items.length ≤ s.params.outSlots) :
    s.putItems items =
      some { s with vout := Memory.writeRun s.vout s.ocnt items, ocnt := s.ocntReg (s.ocnt + items.length) } :=
  if_pos h

theorem State.putItems_none {s : State} {items : List Slot} (h : s.params.outSlots < s.ocnt + items.length) :
    s.putItems items = none := if_neg (by omega)

/-! ### PACK -/

theorem packWord_zero (v : Nat → Slot) (r : Fin 9) (idx : Nat) : packWord v r 0 idx = BitVec.ofNat 32 r.val := rfl

theorem packWord_succ (v : Nat → Slot) (r : Fin 9) (k idx : Nat) :
    packWord v r (k + 1) idx = packWord v r k idx ||| v (idx + k) <<< (4 + k * (rom r).bits) := by
  simp [packWord, List.range_succ]

/-- Packing one Value more adds it at its field, and the Word stays below the next field (R111, R166, R167). -/
theorem packWord_step (v : Nat → Slot) (r : Fin 9) (idx k : Nat) (hk : k ≤ (rom r).cap)
    (hv : ∀ j, j < k → (v (idx + j)).toNat < 2 ^ (rom r).bits) :
    (packWord v r k idx).toNat < 2 ^ (4 + k * (rom r).bits) ∧
      ∀ m, k = m + 1 → (packWord v r k idx).toNat =
        (packWord v r m idx).toNat + (v (idx + m)).toNat * 2 ^ (4 + m * (rom r).bits) := by
  induction k with
  | zero =>
    refine ⟨?_, fun m hm => by omega⟩
    rw [packWord_zero, BitVec.toNat_ofNat]
    have := r.isLt
    simp only [Nat.zero_mul]
    omega
  | succ k ih =>
    obtain ⟨hlt, -⟩ := ih (by omega) (fun j hj => hv j (by omega))
    have hfit := hv k (by omega)
    have hend := rom_field_end r hk
    have hsum : (packWord v r (k + 1) idx).toNat =
        (packWord v r k idx).toNat + (v (idx + k)).toNat * 2 ^ (4 + k * (rom r).bits) := by
      rw [packWord_succ, BitVec.toNat_or, BitVec.toNat_shiftLeft, Nat.shiftLeft_eq]
      have hle : (v (idx + k)).toNat * 2 ^ (4 + k * (rom r).bits) < 2 ^ 32 := by
        calc (v (idx + k)).toNat * 2 ^ (4 + k * (rom r).bits)
            < 2 ^ (rom r).bits * 2 ^ (4 + k * (rom r).bits) := Nat.mul_lt_mul_of_pos_right hfit (Nat.two_pow_pos _)
          _ = 2 ^ (4 + (k + 1) * (rom r).bits) := by rw [← Nat.pow_add]; congr 1; ring
          _ ≤ 2 ^ 32 := Nat.pow_le_pow_right (by omega) hend
      rw [Nat.mod_eq_of_lt hle, Nat.or_comm, ← Nat.shiftLeft_eq, ← Nat.shiftLeft_add_eq_or_of_lt hlt, Nat.add_comm]
    refine ⟨?_, fun m hm => by cases hm; exact hsum⟩
    rw [hsum]
    have h1 : (v (idx + k)).toNat + 1 ≤ 2 ^ (rom r).bits := hfit
    have h2 : ((v (idx + k)).toNat + 1) * 2 ^ (4 + k * (rom r).bits) ≤ 2 ^ (4 + (k + 1) * (rom r).bits) := by
      calc ((v (idx + k)).toNat + 1) * 2 ^ (4 + k * (rom r).bits)
          ≤ 2 ^ (rom r).bits * 2 ^ (4 + k * (rom r).bits) := Nat.mul_le_mul_right _ h1
        _ = 2 ^ (4 + (k + 1) * (rom r).bits) := by rw [← Nat.pow_add]; congr 1; ring
    rw [Nat.add_mul, Nat.one_mul] at h2
    omega

/-- A packed Word lies below its first unused field (R167). -/
theorem packWord_lt (v : Nat → Slot) (r : Fin 9) (idx k : Nat) (hk : k ≤ (rom r).cap)
    (hv : ∀ j, j < k → (v (idx + j)).toNat < 2 ^ (rom r).bits) :
    (packWord v r k idx).toNat < 2 ^ (4 + k * (rom r).bits) := (packWord_step v r idx k hk hv).1

/-- Packing more Values leaves what is below their fields. -/
theorem packWord_mod (v : Nat → Slot) (r : Fin 9) (idx k : Nat) (hk : k ≤ (rom r).cap)
    (hv : ∀ j, j < k → (v (idx + j)).toNat < 2 ^ (rom r).bits) (m : Nat) (hm : m ≤ k) :
    (packWord v r k idx).toNat % 2 ^ (4 + m * (rom r).bits) = (packWord v r m idx).toNat := by
  induction k with
  | zero =>
    obtain rfl : m = 0 := by omega
    exact Nat.mod_eq_of_lt (packWord_lt v r idx 0 hk hv)
  | succ k ih =>
    rcases Nat.lt_or_ge m (k + 1) with h | h
    · have hstep := (packWord_step v r idx (k + 1) hk hv).2 k rfl
      have hpow : 2 ^ (4 + k * (rom r).bits) = 2 ^ (4 + m * (rom r).bits) * 2 ^ ((k - m) * (rom r).bits) := by
        rw [← Nat.pow_add]; congr 1
        obtain ⟨d, rfl⟩ : ∃ d, k = m + d := ⟨k - m, by omega⟩
        rw [Nat.add_sub_cancel_left]; ring
      rw [hstep, hpow, Nat.mul_left_comm, Nat.add_mul_mod_self_left]
      exact ih (by omega) (fun j hj => hv j (by omega)) (by omega)
    · obtain rfl : m = k + 1 := by omega
      exact Nat.mod_eq_of_lt (packWord_lt v r idx _ hk hv)

/-- Each Value stands in its field (R166). -/
theorem packWord_field (v : Nat → Slot) (r : Fin 9) (idx k : Nat) (hk : k ≤ (rom r).cap)
    (hv : ∀ j, j < k → (v (idx + j)).toNat < 2 ^ (rom r).bits) (j : Nat) (hj : j < k) :
    fieldValue (packWord v r k idx) (rom r).bits j = (v (idx + j)).toNat := by
  have h1 := packWord_mod v r idx k hk hv (j + 1) (by omega)
  have h2 := (packWord_step v r idx (j + 1) (by omega) (fun i hi => hv i (by omega))).2 j rfl
  have h3 := packWord_lt v r idx j (by omega) (fun i hi => hv i (by omega))
  have hpow : 2 ^ (4 + (j + 1) * (rom r).bits) = 2 ^ (4 + j * (rom r).bits) * 2 ^ (rom r).bits := by
    rw [← Nat.pow_add]; congr 1; ring
  rw [fieldValue, ← Nat.mod_mul_right_div_self, ← hpow, h1, h2, Nat.add_mul_div_right _ _ (Nat.two_pow_pos _),
    Nat.div_eq_of_lt h3, Nat.zero_add]

/-- The selector stands in the low four bits (R166). -/
theorem packWord_selector (v : Nat → Slot) (r : Fin 9) (idx k : Nat) (hk : k ≤ (rom r).cap)
    (hv : ∀ j, j < k → (v (idx + j)).toNat < 2 ^ (rom r).bits) : (packWord v r k idx).toNat % 16 = r.val := by
  have h := packWord_mod v r idx k hk hv 0 (by omega)
  have := r.isLt
  rw [packWord_zero, BitVec.toNat_ofNat, Nat.zero_mul] at h
  simp only [Nat.add_zero, Nat.reducePow] at h
  omega

/-- Extracting from a packed Word gives its Values back (R166, R193). -/
theorem fieldSlots_packWord (v : Nat → Slot) (r : Fin 9) (idx k : Nat) (hk : k ≤ (rom r).cap)
    (hv : ∀ j, j < k → (v (idx + j)).toNat < 2 ^ (rom r).bits) :
    fieldSlots (packWord v r k idx) (rom r).bits k = (List.range k).map fun j => v (idx + j) := by
  apply List.map_congr_left
  intro j hj
  rw [packWord_field v r idx k hk hv j (List.mem_range.1 hj), BitVec.ofNat_toNat, BitVec.setWidth_eq]

/-! ### The header encoder -/

theorem contByte_toNat (n : Nat) : (contByte n).toNat = 128 + n % 128 := by
  have h : (contByte n).toNat = (1#1 ++ BitVec.ofNat 7 n : BitVec (1 + 7)).toNat := rfl
  rw [h, BitVec.toNat_append, ← Nat.shiftLeft_add_eq_or_of_lt (BitVec.isLt _), BitVec.toNat_ofNat]
  rfl

theorem lastByte_toNat (n : Nat) : (lastByte n).toNat = n % 128 := by
  have h : (lastByte n).toNat = (0#1 ++ BitVec.ofNat 7 n : BitVec (1 + 7)).toNat := rfl
  rw [h, BitVec.toNat_append, BitVec.toNat_ofNat]
  simp

/-- What the loop of VB_ENC emits: a header that carries `n`, in the least number of bytes (R97, R120, R121). -/
theorem vbEncLoop_spec (f n : Nat) (h : n < 128 ^ (f + 1)) :
    IsHeader (vbEncLoop f n) ∧ headerSum (vbEncLoop f n) = n ∧ (vbEncLoop f n).length ≤ f + 1 ∧
      (1 < (vbEncLoop f n).length → 128 ^ ((vbEncLoop f n).length - 1) ≤ n) := by
  induction f generalizing n with
  | zero =>
    have hn : n < 128 := by simpa using h
    simp [vbEncLoop, IsHeader, headerSum, lastByte_toNat]
    omega
  | succ f ih =>
    rw [vbEncLoop]
    split
    · rename_i hn
      have hs : n >>> 7 = n / 128 := by rw [Nat.shiftRight_eq_div_pow]
      obtain ⟨h1, h2, h3, h4⟩ := ih (n / 128) (by
        rw [Nat.pow_succ] at h
        exact Nat.div_lt_of_lt_mul (by omega))
      rw [hs]
      obtain ⟨b, bs, hb⟩ : ∃ b bs, vbEncLoop f (n / 128) = b :: bs := by
        cases hl : vbEncLoop f (n / 128) with
        | nil => rw [hl] at h1; exact h1.elim
        | cons b bs => exact ⟨b, bs, rfl⟩
      rw [hb] at h1 h2 h3 h4 ⊢
      refine ⟨⟨by rw [contByte_toNat]; omega, h1⟩, ?_, by simp at h3 ⊢; omega, ?_⟩
      · rw [headerSum, h2, contByte_toNat]; omega
      · intro _
        simp only [List.length_cons, Nat.add_sub_cancel] at h4 ⊢
        rcases Nat.eq_zero_or_pos bs.length with h0 | h0
        · rw [h0]; simpa using hn
        · have := h4 (by omega)
          rw [Nat.pow_succ]
          have := Nat.div_add_mod n 128
          omega
    · rename_i hn
      simp [IsHeader, headerSum, lastByte_toNat]
      omega

/-- VB_ENC of a number of at most 64 bits (R8, R97, R120, R121). -/
theorem vbEncode_spec (n : Nat) (h : n < 2 ^ 64) :
    IsHeader (vbEncode n) ∧ headerSum (vbEncode n) = n ∧ (vbEncode n).length ≤ 10 ∧
      (1 < (vbEncode n).length → 128 ^ ((vbEncode n).length - 1) ≤ n) :=
  vbEncLoop_spec 9 n (lt_of_lt_of_le h (by norm_num))

end Sys2Proof.Machine
end

