-- ==== Sys2Proof/Laws/PerInstr.lean ====
section
/-! SUPPORT. Per-instruction laws: the family `RoundTrip`, decode of encode is the instruction. -/

namespace Sys2Proof

/-- A VB_CONT byte decodes to its group (R96, R112). -/
theorem decodeByte_cont (g : BitVec 7) : decodeByte (1#1 ++ g) = .vbCont g := by
  revert g; decide

/-- A VB_LAST byte decodes to its group (R96, R112). -/
theorem decodeByte_last (g : BitVec 7) : decodeByte (0#1 ++ g) = .vbLast g := by
  revert g; decide

/-- A Word of a legal selector under DECODE (R102). -/
theorem decode_generic (s : Selector) (p : Payload) (h : s.toNat ≤ 8) :
    decode (.word 2 (wordOf s p)) = .instr (decodeGeneric s.toNat p) := by
  have h' : ¬ 8 < s.toNat := by omega
  simp [decode, decodeWord, h']

/-- A Word of a legal selector under DECODE_FAST (R102). -/
theorem decode_unrolled (s : Selector) (p : Payload) (h : s.toNat ≤ 8) :
    decode (.word 3 (wordOf s p)) = .instr (decodeUnrolled s.toNat p) := by
  have h' : ¬ 8 < s.toNat := by omega
  simp [decode, decodeWord, h']

/-- A Word of an illegal selector, whatever OP is (R103). -/
theorem decode_illegal (op : BitVec 2) (s : Selector) (p : Payload) (h : 8 < s.toNat) :
    decode (.word op (wordOf s p)) = .instr (decodeIllegal s.toNat p) := by
  simp [decode, decodeWord, h]

namespace Laws.RoundTrip

/-- An instruction that has an encoding is what the decoder reads from it. -/
def Statement (i : Instr) : Prop := ∀ c, encode i = some c → decode c = .instr i

theorem of_encode {i : Instr} {c : Code} (h : encode i = some c) (hd : decode c = .instr i) : Statement i := by
  intro c' hc
  rw [h] at hc
  cases hc
  exact hd

theorem of_none {i : Instr} (h : encode i = none) : Statement i := by
  intro c hc
  rw [h] at hc
  cases hc

theorem nop : Statement .nop := of_encode rfl rfl
theorem encode (len : Nat) : Statement (.encode len) := of_encode rfl rfl
theorem decode : Statement .decode := of_encode rfl rfl
theorem decodeFast : Statement .decodeFast := of_encode rfl rfl
theorem vbCont (g : BitVec 7) : Statement (.vbCont g) := of_encode rfl (congrArg _ (decodeByte_cont g))
theorem vbLast (g : BitVec 7) : Statement (.vbLast g) := of_encode rfl (congrArg _ (decodeByte_last g))
theorem w0 (p : Payload) : Statement (.w0 p) := of_encode rfl (decode_generic 0 p (by decide))
theorem w1 (p : Payload) : Statement (.w1 p) := of_encode rfl (decode_generic 1 p (by decide))
theorem w2 (p : Payload) : Statement (.w2 p) := of_encode rfl (decode_generic 2 p (by decide))
theorem w3 (p : Payload) : Statement (.w3 p) := of_encode rfl (decode_generic 3 p (by decide))
theorem w4 (p : Payload) : Statement (.w4 p) := of_encode rfl (decode_generic 4 p (by decide))
theorem w5 (p : Payload) : Statement (.w5 p) := of_encode rfl (decode_generic 5 p (by decide))
theorem w6 (p : Payload) : Statement (.w6 p) := of_encode rfl (decode_generic 6 p (by decide))
theorem w7 (p : Payload) : Statement (.w7 p) := of_encode rfl (decode_generic 7 p (by decide))
theorem w8 (p : Payload) : Statement (.w8 p) := of_encode rfl (decode_generic 8 p (by decide))
theorem xu0 (p : Payload) : Statement (.xu0 p) := of_encode rfl (decode_unrolled 0 p (by decide))
theorem xu1 (p : Payload) : Statement (.xu1 p) := of_encode rfl (decode_unrolled 1 p (by decide))
theorem xu2 (p : Payload) : Statement (.xu2 p) := of_encode rfl (decode_unrolled 2 p (by decide))
theorem xu3 (p : Payload) : Statement (.xu3 p) := of_encode rfl (decode_unrolled 3 p (by decide))
theorem xu4 (p : Payload) : Statement (.xu4 p) := of_encode rfl (decode_unrolled 4 p (by decide))
theorem xu5 (p : Payload) : Statement (.xu5 p) := of_encode rfl (decode_unrolled 5 p (by decide))
theorem xu6 (p : Payload) : Statement (.xu6 p) := of_encode rfl (decode_unrolled 6 p (by decide))
theorem xu7 (p : Payload) : Statement (.xu7 p) := of_encode rfl (decode_unrolled 7 p (by decide))
theorem xu8 (p : Payload) : Statement (.xu8 p) := of_encode rfl (decode_unrolled 8 p (by decide))
theorem sel9Illegal (p : Payload) : Statement (.sel9Illegal p) :=
  of_encode rfl (decode_illegal 2 9 p (by decide))
theorem sel10Illegal (p : Payload) : Statement (.sel10Illegal p) :=
  of_encode rfl (decode_illegal 2 10 p (by decide))
theorem sel11Illegal (p : Payload) : Statement (.sel11Illegal p) :=
  of_encode rfl (decode_illegal 2 11 p (by decide))
theorem sel12Illegal (p : Payload) : Statement (.sel12Illegal p) :=
  of_encode rfl (decode_illegal 2 12 p (by decide))
theorem sel13Illegal (p : Payload) : Statement (.sel13Illegal p) :=
  of_encode rfl (decode_illegal 2 13 p (by decide))
theorem sel14Illegal (p : Payload) : Statement (.sel14Illegal p) :=
  of_encode rfl (decode_illegal 2 14 p (by decide))
theorem sel15Illegal (p : Payload) : Statement (.sel15Illegal p) :=
  of_encode rfl (decode_illegal 2 15 p (by decide))
theorem vbEnc (n : Nat) : Statement (.vbEnc n) := of_none rfl
theorem vbDec : Statement .vbDec := of_none rfl
theorem selLookup (a : Selector) : Statement (.selLookup a) := of_none rfl
theorem fit (x : Slot) (bits : Nat) : Statement (.fit x bits) := of_none rfl
theorem run (r : Fin 9) (idx : Nat) : Statement (.run r idx) := of_none rfl
theorem accept (r : Fin 9) (idx : Nat) : Statement (.accept r idx) := of_none rfl
theorem select (idx : Nat) : Statement (.select idx) := of_none rfl
theorem pack (r : Fin 9) (k idx : Nat) : Statement (.pack r k idx) := of_none rfl
theorem extractG (r : Fin 9) (p : Payload) : Statement (.extractG r p) := of_none rfl

end Laws.RoundTrip

end Sys2Proof
end

