-- ==== Sys2Proof/Laws/State.lean ====
section
/-! SUPPORT. One lemma per field per named update of the state, so that no proof unfolds an update. -/

namespace Sys2Proof.Machine

/-! ### Fault entry (R285) -/

@[simp] theorem State.raise_params (s : State) (c : BitVec 4) (i : Nat) : (s.raise c i).params = s.params := rfl
@[simp] theorem State.raise_st (s : State) (c : BitVec 4) (i : Nat) : (s.raise c i).st = .fault := rfl
@[simp] theorem State.raise_op (s : State) (c : BitVec 4) (i : Nat) : (s.raise c i).op = s.op := rfl
@[simp] theorem State.raise_n (s : State) (c : BitVec 4) (i : Nat) : (s.raise c i).n = s.n := rfl
@[simp] theorem State.raise_icur (s : State) (c : BitVec 4) (i : Nat) : (s.raise c i).icur = s.icur := rfl
@[simp] theorem State.raise_ocnt (s : State) (c : BitVec 4) (i : Nat) : (s.raise c i).ocnt = s.ocnt := rfl
@[simp] theorem State.raise_nbytes (s : State) (c : BitVec 4) (i : Nat) : (s.raise c i).nbytes = s.nbytes := rfl
@[simp] theorem State.raise_wreg (s : State) (c : BitVec 4) (i : Nat) : (s.raise c i).wreg = s.wreg := rfl
@[simp] theorem State.raise_kreg (s : State) (c : BitVec 4) (i : Nat) : (s.raise c i).kreg = s.kreg := rfl
@[simp] theorem State.raise_hreg (s : State) (c : BitVec 4) (i : Nat) : (s.raise c i).hreg = s.hreg := rfl
@[simp] theorem State.raise_hidx (s : State) (c : BitVec 4) (i : Nat) : (s.raise c i).hidx = s.hidx := rfl
@[simp] theorem State.raise_fcode (s : State) (c : BitVec 4) (i : Nat) : (s.raise c i).fcode = c := rfl
@[simp] theorem State.raise_finfo (s : State) (c : BitVec 4) (i : Nat) : (s.raise c i).finfo = s.lenReg i := rfl
@[simp] theorem State.raise_vout (s : State) (c : BitVec 4) (i : Nat) : (s.raise c i).vout = s.vout := rfl
@[simp] theorem State.raise_vin (s : State) (c : BitVec 4) (i : Nat) : (s.raise c i).vin = s.vin := rfl
@[simp] theorem State.raise_source (s : State) (c : BitVec 4) (i : Nat) : (s.raise c i).source = s.source := rfl
@[simp] theorem State.raise_sourceAns (s : State) (c : BitVec 4) (i : Nat) : (s.raise c i).sourceAns = s.sourceAns := rfl
@[simp] theorem State.raise_sink (s : State) (c : BitVec 4) (i : Nat) : (s.raise c i).sink = s.sink := rfl
@[simp] theorem State.raise_sinkAns (s : State) (c : BitVec 4) (i : Nat) : (s.raise c i).sinkAns = s.sinkAns := rfl
@[simp] theorem State.raise_events (s : State) (c : BitVec 4) (i : Nat) : (s.raise c i).events = s.events := rfl
@[simp] theorem State.raise_dp (s : State) (c : BitVec 4) (i : Nat) : (s.raise c i).dp = s.dp := rfl

/-! ### START (R247, R248) -/

@[simp] theorem State.startRegs_params (s : State) (o : BitVec 2) (n h : Nat) : (s.startRegs o n h).params = s.params := rfl
@[simp] theorem State.startRegs_st (s : State) (o : BitVec 2) (n h : Nat) : (s.startRegs o n h).st = s.st := rfl
@[simp] theorem State.startRegs_op (s : State) (o : BitVec 2) (n h : Nat) : (s.startRegs o n h).op = o := rfl
@[simp] theorem State.startRegs_n (s : State) (o : BitVec 2) (n h : Nat) : (s.startRegs o n h).n = n := rfl
@[simp] theorem State.startRegs_icur (s : State) (o : BitVec 2) (n h : Nat) : (s.startRegs o n h).icur = 0 := rfl
@[simp] theorem State.startRegs_ocnt (s : State) (o : BitVec 2) (n h : Nat) : (s.startRegs o n h).ocnt = 0 := rfl
@[simp] theorem State.startRegs_nbytes (s : State) (o : BitVec 2) (n h : Nat) : (s.startRegs o n h).nbytes = 0 := rfl
@[simp] theorem State.startRegs_wreg (s : State) (o : BitVec 2) (n h : Nat) : (s.startRegs o n h).wreg = 0 := rfl
@[simp] theorem State.startRegs_kreg (s : State) (o : BitVec 2) (n h : Nat) : (s.startRegs o n h).kreg = 0 := rfl
@[simp] theorem State.startRegs_hreg (s : State) (o : BitVec 2) (n h : Nat) : (s.startRegs o n h).hreg = h := rfl
@[simp] theorem State.startRegs_hidx (s : State) (o : BitVec 2) (n h : Nat) : (s.startRegs o n h).hidx = 0 := rfl
@[simp] theorem State.startRegs_fcode (s : State) (o : BitVec 2) (n h : Nat) : (s.startRegs o n h).fcode = 0 := rfl
@[simp] theorem State.startRegs_finfo (s : State) (o : BitVec 2) (n h : Nat) : (s.startRegs o n h).finfo = 0 := rfl
@[simp] theorem State.startRegs_vout (s : State) (o : BitVec 2) (n h : Nat) : (s.startRegs o n h).vout = s.vout := rfl
@[simp] theorem State.startRegs_vin (s : State) (o : BitVec 2) (n h : Nat) : (s.startRegs o n h).vin = s.vin := rfl
@[simp] theorem State.startRegs_source (s : State) (o : BitVec 2) (n h : Nat) : (s.startRegs o n h).source = s.source := rfl
@[simp] theorem State.startRegs_sourceAns (s : State) (o : BitVec 2) (n h : Nat) : (s.startRegs o n h).sourceAns = s.sourceAns := rfl
@[simp] theorem State.startRegs_sink (s : State) (o : BitVec 2) (n h : Nat) : (s.startRegs o n h).sink = s.sink := rfl
@[simp] theorem State.startRegs_sinkAns (s : State) (o : BitVec 2) (n h : Nat) : (s.startRegs o n h).sinkAns = s.sinkAns := rfl
@[simp] theorem State.startRegs_events (s : State) (o : BitVec 2) (n h : Nat) : (s.startRegs o n h).events = s.events := rfl
@[simp] theorem State.startRegs_dp (s : State) (o : BitVec 2) (n h : Nat) : (s.startRegs o n h).dp = s.dp := rfl

/-! ### Reset (R310) -/

@[simp] theorem State.resetEvent_params (s : State) : (s.resetEvent).params = s.params := rfl
@[simp] theorem State.resetEvent_st (s : State) : (s.resetEvent).st = .idle := rfl
@[simp] theorem State.resetEvent_op (s : State) : (s.resetEvent).op = 0 := rfl
@[simp] theorem State.resetEvent_n (s : State) : (s.resetEvent).n = 0 := rfl
@[simp] theorem State.resetEvent_icur (s : State) : (s.resetEvent).icur = 0 := rfl
@[simp] theorem State.resetEvent_ocnt (s : State) : (s.resetEvent).ocnt = 0 := rfl
@[simp] theorem State.resetEvent_nbytes (s : State) : (s.resetEvent).nbytes = 0 := rfl
@[simp] theorem State.resetEvent_wreg (s : State) : (s.resetEvent).wreg = 0 := rfl
@[simp] theorem State.resetEvent_kreg (s : State) : (s.resetEvent).kreg = 0 := rfl
@[simp] theorem State.resetEvent_hreg (s : State) : (s.resetEvent).hreg = 0 := rfl
@[simp] theorem State.resetEvent_hidx (s : State) : (s.resetEvent).hidx = 0 := rfl
@[simp] theorem State.resetEvent_fcode (s : State) : (s.resetEvent).fcode = 0 := rfl
@[simp] theorem State.resetEvent_finfo (s : State) : (s.resetEvent).finfo = 0 := rfl
@[simp] theorem State.resetEvent_vout (s : State) : (s.resetEvent).vout = s.vout := rfl
@[simp] theorem State.resetEvent_vin (s : State) : (s.resetEvent).vin = s.vin := rfl
@[simp] theorem State.resetEvent_source (s : State) : (s.resetEvent).source = s.source := rfl
@[simp] theorem State.resetEvent_sourceAns (s : State) : (s.resetEvent).sourceAns = s.sourceAns := rfl
@[simp] theorem State.resetEvent_sink (s : State) : (s.resetEvent).sink = s.sink := rfl
@[simp] theorem State.resetEvent_sinkAns (s : State) : (s.resetEvent).sinkAns = s.sinkAns := rfl
@[simp] theorem State.resetEvent_events (s : State) : (s.resetEvent).events = s.events := rfl
@[simp] theorem State.resetEvent_dp (s : State) : (s.resetEvent).dp = s.dp := rfl

/-! ### The end of D_EXT (R254) -/

@[simp] theorem State.finishExt_params (s : State) : (s.finishExt).params = s.params := rfl
@[simp] theorem State.finishExt_st (s : State) : (s.finishExt).st = (if s.n ≤ s.ocnt then .done else .dWord) := rfl
@[simp] theorem State.finishExt_op (s : State) : (s.finishExt).op = s.op := rfl
@[simp] theorem State.finishExt_n (s : State) : (s.finishExt).n = s.n := rfl
@[simp] theorem State.finishExt_icur (s : State) : (s.finishExt).icur = s.icur := rfl
@[simp] theorem State.finishExt_ocnt (s : State) : (s.finishExt).ocnt = s.ocnt := rfl
@[simp] theorem State.finishExt_nbytes (s : State) : (s.finishExt).nbytes = s.nbytes := rfl
@[simp] theorem State.finishExt_wreg (s : State) : (s.finishExt).wreg = s.wreg := rfl
@[simp] theorem State.finishExt_kreg (s : State) : (s.finishExt).kreg = s.kreg := rfl
@[simp] theorem State.finishExt_hreg (s : State) : (s.finishExt).hreg = s.hreg := rfl
@[simp] theorem State.finishExt_hidx (s : State) : (s.finishExt).hidx = s.hidx := rfl
@[simp] theorem State.finishExt_fcode (s : State) : (s.finishExt).fcode = s.fcode := rfl
@[simp] theorem State.finishExt_finfo (s : State) : (s.finishExt).finfo = s.finfo := rfl
@[simp] theorem State.finishExt_vout (s : State) : (s.finishExt).vout = s.vout := rfl
@[simp] theorem State.finishExt_vin (s : State) : (s.finishExt).vin = s.vin := rfl
@[simp] theorem State.finishExt_source (s : State) : (s.finishExt).source = s.source := rfl
@[simp] theorem State.finishExt_sourceAns (s : State) : (s.finishExt).sourceAns = s.sourceAns := rfl
@[simp] theorem State.finishExt_sink (s : State) : (s.finishExt).sink = s.sink := rfl
@[simp] theorem State.finishExt_sinkAns (s : State) : (s.finishExt).sinkAns = s.sinkAns := rfl
@[simp] theorem State.finishExt_events (s : State) : (s.finishExt).events = s.events := rfl
@[simp] theorem State.finishExt_dp (s : State) : (s.finishExt).dp = s.dp := rfl

end Sys2Proof.Machine
end

