-- ==== Sys2Proof/Laws/Step.lean ====
section
/-! SUPPORT. What one step can do: the fetch by event and by sequencer state, the meanings of the families of
instructions, and the sequencer's own steps. -/

namespace Sys2Proof.Machine

open Sys2Proof.Safety

@[simp] theorem runFetched_instr (i : Instr) (t : State) : runFetched (.instr i t) = exec i t := rfl

@[simp] theorem runFetched_settled (o : Host.Outcome State Fault Refusal) : runFetched (.settled o) = o := rfl

/-! ### The outside's events -/

/-- A command presented at the port is run by the coming step (R38, R245). -/
theorem step_command {s : State} {op : BitVec 2} {len : Nat} {es : List Event}
    (h : s.events = .command op len :: es) :
    step s = exec (decodeCmd op (s.lenReg len)) { s with events := es } := by
  simp only [step, fetch, h]
  rfl

/-- Reset (R310). -/
theorem step_reset {s : State} {es : List Event} (h : s.events = .reset :: es) :
    step s = .next ({ s with events := es } : State).resetEvent := by
  simp only [step, fetch, h]
  rfl

/-- The caller places Values in VIN. -/
theorem step_placeVin {s : State} {vs : List Slot} {es : List Event} (h : s.events = .placeVin vs :: es) :
    step s = placeVin vs { s with events := es } := by
  simp only [step, fetch, h]
  rfl

/-- The caller connects a source. -/
theorem step_connectSource {s : State} {bs : List Byte} {es : List Event} (h : s.events = .connectSource bs :: es) :
    step s = connectSource bs { s with events := es } := by
  simp only [step, fetch, h]
  rfl

/-- The sequencer's turn. -/
theorem step_turn {s t : State} (h : sequencerTurn s = some t) : step s = runFetched (fetchSequencer t) := by
  unfold sequencerTurn at h
  unfold step fetch
  split at h
  · rename_i he; cases h; rw [he]
  · rename_i es he; cases h; rw [he]
  · cases h

/-- A turn changes nothing but the events. -/
theorem sequencerTurn_eq {s t : State} (h : sequencerTurn s = some t) : ∃ es, t = { s with events := es } := by
  unfold sequencerTurn at h
  split at h
  · cases h; exact ⟨s.events, rfl⟩
  · rename_i es _; cases h; exact ⟨es, rfl⟩
  · cases h

/-- Everything a step can be: the sequencer's turn or one of the outside's events. -/
theorem step_cases (s : State) :
    (∃ t, sequencerTurn s = some t ∧ step s = runFetched (fetchSequencer t)) ∨
    (∃ op len es, s.events = .command op len :: es ∧
      step s = exec (decodeCmd op (s.lenReg len)) { s with events := es }) ∨
    (∃ es, s.events = .reset :: es ∧ step s = .next ({ s with events := es } : State).resetEvent) ∨
    (∃ vs es, s.events = .placeVin vs :: es ∧ step s = placeVin vs { s with events := es }) ∨
    (∃ bs es, s.events = .connectSource bs :: es ∧ step s = connectSource bs { s with events := es }) := by
  rcases h : s.events with _ | ⟨e, es⟩
  · have ht : sequencerTurn s = some s := by simp [sequencerTurn, h]
    exact .inl ⟨_, ht, step_turn ht⟩
  · cases e with
    | tick =>
      have ht : sequencerTurn s = some { s with events := es } := by simp [sequencerTurn, h]
      exact .inl ⟨_, ht, step_turn ht⟩
    | command op len => exact .inr (.inl ⟨op, len, es, rfl, step_command h⟩)
    | reset => exact .inr (.inr (.inl ⟨es, rfl, step_reset h⟩))
    | placeVin vs => exact .inr (.inr (.inr (.inl ⟨vs, es, rfl, step_placeVin h⟩)))
    | connectSource bs => exact .inr (.inr (.inr (.inr ⟨bs, es, rfl, step_connectSource h⟩)))

/-! ### The families of Words -/

@[simp] theorem exec_wInstr (r : Fin 9) (p : Payload) (s : State) :
    exec (wInstr r p) s = genericExt (rom r) p s := by fin_cases r <;> rfl

@[simp] theorem exec_xuInstr (r : Fin 9) (p : Payload) (s : State) :
    exec (xuInstr r p) s = unrolledExt (treeItems r (wordOf (BitVec.ofNat 4 r.val) p)) s := by fin_cases r <;> rfl

@[simp] theorem exec_illegalInstr (r : Fin 7) (p : Payload) (s : State) :
    exec (illegalInstr r p) s = illegalExt (9 + r.val) s := by fin_cases r <;> rfl

/-- A Word of selector 0 to 8 under DECODE is W0 to W8 (R102). -/
theorem decode_wInstr (r : Fin 9) (p : Payload) :
    decode (.word 2 (wordOf (BitVec.ofNat 4 r.val) p)) = .instr (wInstr r p) := by
  fin_cases r <;> exact decode_generic _ p (by decide)

/-- A Word of selector 0 to 8 under DECODE_FAST is XU0 to XU8 (R102). -/
theorem decode_xuInstr (r : Fin 9) (p : Payload) :
    decode (.word 3 (wordOf (BitVec.ofNat 4 r.val) p)) = .instr (xuInstr r p) := by
  fin_cases r <;> exact decode_unrolled _ p (by decide)

/-- A Word of selector 9 to 15 is SEL9_ILLEGAL to SEL15_ILLEGAL whatever OP is (R103). -/
theorem decode_illegalInstr (op : BitVec 2) (r : Fin 7) (p : Payload) :
    decode (.word op (wordOf (BitVec.ofNat 4 (9 + r.val)) p)) = .instr (illegalInstr r p) := by
  fin_cases r <;> exact decode_illegal op _ p (by decide)

/-- Every Word has a selector of 0 to 8 or of 9 to 15. -/
theorem word_cases (w : Word) :
    (∃ r : Fin 9, w = wordOf (BitVec.ofNat 4 r.val) (payloadOf w) ∧ (selectorOf w).toNat = r.val) ∨
    (∃ r : Fin 7, w = wordOf (BitVec.ofNat 4 (9 + r.val)) (payloadOf w) ∧ (selectorOf w).toNat = 9 + r.val) := by
  have hlt := (selectorOf w).isLt
  by_cases h : (selectorOf w).toNat < 9
  · left
    refine ⟨⟨_, h⟩, ?_, rfl⟩
    simp
  · right
    refine ⟨⟨(selectorOf w).toNat - 9, by omega⟩, ?_, by simp; omega⟩
    have h9 : 9 + ((selectorOf w).toNat - 9) = (selectorOf w).toNat := by omega
    simp [h9]

/-- Step D_EXT of a DECODE, when the slots it writes are within VOUT (R193, R254). -/
theorem genericExt_next {s : State} {r : Row} (p : Payload) (hst : s.st = .dExt) (hop : s.op = 2)
    (hroom : s.ocnt + (genericItems r.bits (s.takeCount r) p).length ≤ s.params.outSlots) :
    genericExt r p s =
      .next ({ s with vout := Memory.writeRun s.vout s.ocnt (genericItems r.bits (s.takeCount r) p),
                      ocnt := s.ocntReg (s.ocnt + (genericItems r.bits (s.takeCount r) p).length) } : State).finishExt := by
  simp only [genericExt, hst, hop, and_self, if_true, State.extractGeneric, State.putItems_eq hroom]

/-- Step D_EXT of a DECODE_FAST, when the slots it writes are within VOUT (R212, R254). -/
theorem unrolledExt_next {s : State} {items : List Slot} (hst : s.st = .dExt) (hop : s.op = 3)
    (hroom : s.ocnt + items.length ≤ s.params.outSlots) :
    unrolledExt items s =
      .next ({ s with vout := Memory.writeRun s.vout s.ocnt items,
                      ocnt := s.ocntReg (s.ocnt + items.length) } : State).finishExt := by
  simp only [unrolledExt, hst, hop, and_self, if_true, State.putItems_eq hroom]

/-! ### The sequencer's own steps -/

theorem fetchSequencer_eHdr {t : State} (h : t.st = .eHdr) : fetchSequencer t = .settled (stepEHdr t) := by
  simp only [fetchSequencer, h]

theorem fetchSequencer_ePack {t : State} (h : t.st = .ePack) : fetchSequencer t = .settled (stepEPack t) := by
  simp only [fetchSequencer, h]

theorem fetchSequencer_eEmit {t : State} (h : t.st = .eEmit) : fetchSequencer t = .settled (stepEEmit t) := by
  simp only [fetchSequencer, h]

theorem fetchSequencer_dHdr {t : State} (h : t.st = .dHdr) : fetchSequencer t = fetchHeader t := by
  simp only [fetchSequencer, h]

theorem fetchSequencer_dWord {t : State} (h : t.st = .dWord) : fetchSequencer t = .settled (stepDWord t) := by
  simp only [fetchSequencer, h]

theorem fetchSequencer_dExt {t : State} (h : t.st = .dExt) : fetchSequencer t = fetchWord t := by
  simp only [fetchSequencer, h]

/-- In IDLE, DONE and FAULT no step of the sequencer is enabled (R255, R256). -/
theorem fetchSequencer_rest {t : State} (h : t.st = .idle ∨ t.st = .done ∨ t.st = .fault) :
    fetchSequencer t = .settled (.next t) := by
  rcases h with h | h | h <;> simp only [fetchSequencer, h]

/-- Everything the sequencer's turn can be. -/
theorem turn_cases (t : State) :
    ((t.st = .idle ∨ t.st = .done ∨ t.st = .fault) ∧ runFetched (fetchSequencer t) = .next t) ∨
    (t.st = .eHdr ∧ runFetched (fetchSequencer t) = stepEHdr t) ∨
    (t.st = .ePack ∧ runFetched (fetchSequencer t) = stepEPack t) ∨
    (t.st = .eEmit ∧ runFetched (fetchSequencer t) = stepEEmit t) ∨
    (t.st = .dHdr ∧ runFetched (fetchSequencer t) = runFetched (fetchHeader t)) ∨
    (t.st = .dWord ∧ runFetched (fetchSequencer t) = stepDWord t) ∨
    (t.st = .dExt ∧ runFetched (fetchSequencer t) = runFetched (fetchWord t)) := by
  cases h : t.st <;> simp [fetchSequencer, h]

/-- What a Word in WREG runs, by OP and by its selector (R254). -/
theorem fetchWord_cases (t : State) :
    (∃ r : Fin 9, t.op = 2 ∧ (selectorOf t.wreg).toNat = r.val ∧
      runFetched (fetchWord t) = genericExt (rom r) (payloadOf t.wreg) t) ∨
    (∃ r : Fin 9, t.op = 3 ∧ (selectorOf t.wreg).toNat = r.val ∧
      runFetched (fetchWord t) = unrolledExt (treeItems r t.wreg) t) ∨
    (∃ r : Fin 7, (selectorOf t.wreg).toNat = 9 + r.val ∧
      runFetched (fetchWord t) = illegalExt (9 + r.val) t) ∨
    (t.op ≠ 2 ∧ t.op ≠ 3 ∧ (selectorOf t.wreg).toNat ≤ 8 ∧ runFetched (fetchWord t) = .next t.finishExt) := by
  rcases word_cases t.wreg with ⟨r, hw, hs⟩ | ⟨r, hw, hs⟩
  · by_cases h2 : t.op = 2
    · refine .inl ⟨r, h2, hs, ?_⟩
      have hd : decode (.word t.op t.wreg) = .instr (wInstr r (payloadOf t.wreg)) := by
        rw [h2, hw, payloadOf_wordOf]; exact decode_wInstr r _
      simp only [fetchWord, hd, runFetched_instr, exec_wInstr]
    · by_cases h3 : t.op = 3
      · refine .inr (.inl ⟨r, h3, hs, ?_⟩)
        have hd : decode (.word t.op t.wreg) = .instr (xuInstr r (payloadOf t.wreg)) := by
          rw [h3, hw, payloadOf_wordOf]; exact decode_xuInstr r _
        simp only [fetchWord, hd, runFetched_instr, exec_xuInstr]
        rw [← hw]
      · refine .inr (.inr (.inr ⟨h2, h3, by have := r.isLt; omega, ?_⟩))
        have h8 : ¬ 8 < (selectorOf t.wreg).toNat := by have := r.isLt; omega
        simp only [fetchWord, decode, decodeWord, h8, h2, h3, if_false, runFetched_settled]
  · refine .inr (.inr (.inl ⟨r, hs, ?_⟩))
    have hd : decode (.word t.op t.wreg) = .instr (illegalInstr r (payloadOf t.wreg)) := by
      rw [hw, payloadOf_wordOf]; exact decode_illegalInstr t.op r _
    simp only [fetchWord, hd, runFetched_instr, exec_illegalInstr]

end Sys2Proof.Machine
end

