-- ==== Sys2Proof/Tests/Slice0.lean ====
section
/-! SUPPORT. Tests. Expected values are those of spec/ (the rule or the vector of 95_test_vectors.md is named), written
out by hand. A theorem `test_witness_<Name>` shows that the hypotheses of `Obligations.<Name>` can be met together, one
part per clause, at the ends of its ranges. -/

namespace Sys2Proof.Tests

open Sys2Proof Sys2Proof.Machine Sys2Proof.Safety

/-! ### Helpers -/

/-- A peer's success. -/
def good : Answer := ⟨true, 0⟩

/-- A peer's failure after two bytes. -/
def bad : Answer := ⟨false, 2⟩

/-- The narrowest core: `LEN_BITS` = 8, `OUT_SLOTS` = 28 (R8). -/
def tiny : Config.Params := ⟨8, 28⟩

/-- The reset state with peers that perform 16 transactions each. -/
def base : State :=
  { State.reset with sourceAns := List.replicate 16 good, sinkAns := List.replicate 16 good }

/-- A decode in D_HDR whose source holds these bytes. -/
def inHdr (op : BitVec 2) (src : List Byte) : State := { base with st := .dHdr, op := op, source := src }

/-- The same on the narrowest core. -/
def tinyHdr (op : BitVec 2) (src : List Byte) : State := { inHdr op src with params := tiny }

/-- A decode of `n` items in D_EXT with this Word. -/
def inExt (op : BitVec 2) (n : Nat) (w : Word) : State := { base with st := .dExt, op := op, n := n, wreg := w }

/-- An encoder over this Sequence, its registers loaded. -/
def encoding (st : SeqState) (v : List Slot) : State := { base with st := st, op := 1, n := v.length, vin := v }

/-- A view of the next state; none for a stop. -/
def view {α : Type} (f : State → α) : Host.Outcome State Fault Refusal → Option α
  | .next t => some (f t)
  | _ => none

/-- The slots, the count and the sequencer state. -/
def slots (o : Host.Outcome State Fault Refusal) : Option (List Nat × Nat × SeqState) :=
  view (fun t => (t.vout.map fun e => e.2.toNat, t.ocnt, t.st)) o

/-- The sequencer state, FCODE, FINFO. -/
def ends (o : Host.Outcome State Fault Refusal) : Option (SeqState × BitVec 4 × Nat) :=
  view (fun t => (t.st, t.fcode, t.finfo)) o

/-! ### WellFormed refuses an ill-formed term, one per check -/

abbrev wf : Instr → Bool := WellFormed Config.defaultParams

theorem test_wf_encode : wf (.encode 4294967296) = false ∧ wf (.encode 4294967295) = true := by decide
theorem test_wf_vbEnc : wf (.vbEnc 4294967296) = false ∧ wf (.vbEnc 4294967295) = true := by decide
theorem test_wf_fit : wf (.fit 0 0) = false ∧ wf (.fit 0 29) = false ∧ wf (.fit 0 28) = true := by decide
theorem test_wf_run : wf (.run 0 4294967296) = false ∧ wf (.run 0 0) = true := by decide
theorem test_wf_accept : wf (.accept 0 4294967296) = false ∧ wf (.accept 0 0) = true := by decide
theorem test_wf_select : wf (.select 4294967296) = false ∧ wf (.select 0) = true := by decide
theorem test_wf_pack : wf (.pack 0 0 0) = false ∧ wf (.pack 0 29 0) = false ∧ wf (.pack 0 1 4294967296) = false ∧
    wf (.pack 0 28 0) = true := by decide

/-! ### Decoding: every constructor that has bits, from a word written bit by bit (R92, R96, R99, R103) -/

/-- R99: the four command codes. -/
theorem test_decode_commands :
    decode (.cmd 0b00#2 9) = .instr .nop ∧ decode (.cmd 0b01#2 9) = .instr (.encode 9) ∧
    decode (.cmd 0b10#2 9) = .instr .decode ∧ decode (.cmd 0b11#2 9) = .instr .decodeFast := by decide

/-- R96: `AC 02` is VB_CONT of group 0x2C and VB_LAST of group 2. -/
theorem test_decode_bytes :
    decode (.vb 0b1_0101100#8) = .instr (.vbCont 0x2C#7) ∧ decode (.vb 0b0_0000010#8) = .instr (.vbLast 0x02#7) := by
  decide

/-- R93, the Words `0x9E3779B0 | s` of 95_test_vectors.md section 2.6, under DECODE. -/
theorem test_decode_generic :
    decode (.word 2 0b1001111000110111011110011011_0000#32) = .instr (.w0 0x9E3779B#28) ∧
    decode (.word 2 0b1001111000110111011110011011_0001#32) = .instr (.w1 0x9E3779B#28) ∧
    decode (.word 2 0b1001111000110111011110011011_0010#32) = .instr (.w2 0x9E3779B#28) ∧
    decode (.word 2 0b1001111000110111011110011011_0011#32) = .instr (.w3 0x9E3779B#28) ∧
    decode (.word 2 0b1001111000110111011110011011_0100#32) = .instr (.w4 0x9E3779B#28) ∧
    decode (.word 2 0b1001111000110111011110011011_0101#32) = .instr (.w5 0x9E3779B#28) ∧
    decode (.word 2 0b1001111000110111011110011011_0110#32) = .instr (.w6 0x9E3779B#28) ∧
    decode (.word 2 0b1001111000110111011110011011_0111#32) = .instr (.w7 0x9E3779B#28) ∧
    decode (.word 2 0b1001111000110111011110011011_1000#32) = .instr (.w8 0x9E3779B#28) := by decide

/-- R212: the same Words under DECODE_FAST. -/
theorem test_decode_unrolled :
    decode (.word 3 0b1001111000110111011110011011_0000#32) = .instr (.xu0 0x9E3779B#28) ∧
    decode (.word 3 0b1001111000110111011110011011_0001#32) = .instr (.xu1 0x9E3779B#28) ∧
    decode (.word 3 0b1001111000110111011110011011_0010#32) = .instr (.xu2 0x9E3779B#28) ∧
    decode (.word 3 0b1001111000110111011110011011_0011#32) = .instr (.xu3 0x9E3779B#28) ∧
    decode (.word 3 0b1001111000110111011110011011_0100#32) = .instr (.xu4 0x9E3779B#28) ∧
    decode (.word 3 0b1001111000110111011110011011_0101#32) = .instr (.xu5 0x9E3779B#28) ∧
    decode (.word 3 0b1001111000110111011110011011_0110#32) = .instr (.xu6 0x9E3779B#28) ∧
    decode (.word 3 0b1001111000110111011110011011_0111#32) = .instr (.xu7 0x9E3779B#28) ∧
    decode (.word 3 0b1001111000110111011110011011_1000#32) = .instr (.xu8 0x9E3779B#28) := by decide

/-- R103: selectors 9 to 15, in either decoder. -/
theorem test_decode_illegal :
    decode (.word 2 0b0000000000000000000000000001_1001#32) = .instr (.sel9Illegal 1#28) ∧
    decode (.word 3 0b0000000000000000000000000000_1010#32) = .instr (.sel10Illegal 0#28) ∧
    decode (.word 2 0b1000000000000000000000000000_1011#32) = .instr (.sel11Illegal 0x8000000#28) ∧
    decode (.word 3 0b0000000000000000000000000010_1100#32) = .instr (.sel12Illegal 2#28) ∧
    decode (.word 2 0b0000000000000000000000000011_1101#32) = .instr (.sel13Illegal 3#28) ∧
    decode (.word 3 0b0000000000000000000000000100_1110#32) = .instr (.sel14Illegal 4#28) ∧
    decode (.word 2 0b0000000000000000000000000001_1111#32) = .instr (.sel15Illegal 1#28) := by decide

/-- R24, R102: a legal Word has no decoder when OP names none. -/
theorem test_decode_rejects : decode (.word 1 0x00000070#32) = .rejected (.noDecoder 1) := by decide

/-- R110: a datapath operation has no bits. -/
theorem test_encode_datapath :
    encode (.vbEnc 1) = none ∧ encode .vbDec = none ∧ encode (.selLookup 0) = none ∧ encode (.fit 0 1) = none ∧
    encode (.run 0 0) = none ∧ encode (.accept 0 0) = none ∧ encode (.select 0) = none ∧
    encode (.pack 0 1 0) = none ∧ encode (.extractG 0 0) = none := by decide

/-- R70: `46 06 19 4B` is the Word `0x4B190646` (R253). -/
theorem test_wordOfBytes : wordOfBytes [0x46, 0x06, 0x19, 0x4B] = 0x4B190646#32 := by decide

/-- The table's own words (log entry 18). -/
theorem test_decodeTableWord :
    decodeTableWord 8 1 = some (.encode 0) ∧ decodeTableWord 8 0x80 = some (.vbCont 0) ∧
    decodeTableWord 32 0x5 = some (.w5 0) ∧ decodeTableWord 32 0xF = some (.sel15Illegal 0) := by decide

/-! ### One step of each instruction, on the spec's vectors -/

/-- R244. -/
theorem test_nop : ends (exec .nop { base with st := .ePack }) = some (.ePack, 0, 0) := by decide

/-- V-EF2: `ENCODE [5, 268435456]` is PV_VALUE at index 1. -/
theorem test_encode_value : ends (exec (.encode 2) { base with vin := [5, 268435456] }) = some (.fault, 2, 1) :=
  by decide

/-- V-EF1: `ENCODE []` is PV_EMPTY. -/
theorem test_encode_empty : ends (exec (.encode 0) base) = some (.fault, 1, 0) := by decide

/-- R248: the START of a decode clears what an operation left. -/
theorem test_decode_start :
    view (fun t => (t.st, t.op, t.n, t.nbytes)) (exec .decode { base with st := .done, n := 9, nbytes := 5 }) =
      some (.dHdr, 2, 0, 0) := by decide
theorem test_decodeFast_start :
    view (fun t => (t.st, t.op, t.n, t.nbytes)) (exec .decodeFast { base with st := .done, n := 9, nbytes := 5 }) =
      some (.dHdr, 3, 0, 0) := by decide

/-- R252: `AC` leaves HREG 44, and `02` after it gives `N` = 300. -/
theorem test_vbCont : view (fun t => (t.hreg, t.hidx, t.st)) (exec (.vbCont 0x2C) (inHdr 2 [])) = some (44, 1, .dHdr) := by
  decide
theorem test_vbLast :
    view (fun t => (t.n, t.st)) (exec (.vbLast 2) { inHdr 2 [] with hreg := 44, hidx := 1 }) = some (300, .dWord) := by
  decide

/-- V-D4: ALLOC with FINFO `N`. V-D9: `00` ends the operation. -/
theorem test_vbLast_alloc : ends (exec (.vbLast 2) (tinyHdr 3 [])) = some (.fault, 7, 2) := by decide

/-- 95_test_vectors.md section 2.6: `0x9E3779B0 | s`, `N = cap`, under DECODE. -/
theorem test_w0 : slots (exec (.w0 0x9E3779B) (inExt 2 28 0)) =
    some ([1,1,0,1, 1,0,0,1, 1,1,1,0, 1,1,1,0, 1,1,0,0, 0,1,1,1, 1,0,0,1], 28, .done) := by decide
theorem test_w1 : slots (exec (.w1 0x9E3779B) (inExt 2 14 0)) = some ([3,2,1,2,3,1,3,1,3,0,2,3,1,2], 14, .done) :=
  by decide
theorem test_w2 : slots (exec (.w2 0x9E3779B) (inExt 2 9 0)) = some ([3,3,6,3,7,6,0,7,1], 9, .done) := by decide
theorem test_w3 : slots (exec (.w3 0x9E3779B) (inExt 2 7 0)) = some ([11,9,7,7,3,14,9], 7, .done) := by decide
theorem test_w4 : slots (exec (.w4 0x9E3779B) (inExt 2 5 0)) = some ([27,28,29,6,30], 5, .done) := by decide
theorem test_w5 : slots (exec (.w5 0x9E3779B) (inExt 2 4 0)) = some ([27,111,13,79], 4, .done) := by decide
theorem test_w6 : slots (exec (.w6 0x9E3779B) (inExt 2 3 0)) = some ([411,443,120], 3, .done) := by decide
theorem test_w7 : slots (exec (.w7 0x9E3779B) (inExt 2 2 0)) = some ([14235,10125], 2, .done) := by decide
theorem test_w8 : slots (exec (.w8 0x9E3779B) (inExt 2 1 0)) = some ([165902235], 1, .done) := by decide

/-- V-D1: `01 F2 FF FF FF` under DECODE takes one item; V-D7: a Word that leaves items missing. -/
theorem test_w2_partial : slots (exec (.w2 0xFFFFFFF) (inExt 2 1 0)) = some ([7], 1, .done) := by decide
theorem test_w8_more : slots (exec (.w8 1) (inExt 2 2 0)) = some ([1], 1, .dWord) := by decide

/-- The same Words under DECODE_FAST. -/
theorem test_xu0 : slots (exec (.xu0 0x9E3779B) (inExt 3 28 0)) =
    some ([1,1,0,1, 1,0,0,1, 1,1,1,0, 1,1,1,0, 1,1,0,0, 0,1,1,1, 1,0,0,1], 28, .done) := by decide
theorem test_xu1 : slots (exec (.xu1 0x9E3779B) (inExt 3 14 0)) = some ([3,2,1,2,3,1,3,1,3,0,2,3,1,2], 14, .done) := by
  decide
theorem test_xu2 : slots (exec (.xu2 0x9E3779B) (inExt 3 9 0)) = some ([3,3,6,3,7,6,0,7,1], 9, .done) := by decide
theorem test_xu3 : slots (exec (.xu3 0x9E3779B) (inExt 3 7 0)) = some ([11,9,7,7,3,14,9], 7, .done) := by decide
theorem test_xu4 : slots (exec (.xu4 0x9E3779B) (inExt 3 5 0)) = some ([27,28,29,6,30], 5, .done) := by decide
theorem test_xu5 : slots (exec (.xu5 0x9E3779B) (inExt 3 4 0)) = some ([27,111,13,79], 4, .done) := by decide
theorem test_xu6 : slots (exec (.xu6 0x9E3779B) (inExt 3 3 0)) = some ([411,443,120], 3, .done) := by decide
theorem test_xu7 : slots (exec (.xu7 0x9E3779B) (inExt 3 2 0)) = some ([14235,10125], 2, .done) := by decide
theorem test_xu8 : slots (exec (.xu8 0x9E3779B) (inExt 3 1 0)) = some ([165902235], 1, .done) := by decide

/-- V-D20: the overrun of `03 72 00 00 F0`. V-D19: of `02 F5 FF FF FF`. -/
theorem test_xu2_overrun : slots (exec (.xu2 0xF000007) (inExt 3 3 0)) = some ([7,0,0,0,0,0,0,0,7], 9, .done) :=
  by decide
theorem test_xu5_overrun : slots (exec (.xu5 0xFFFFFFF) (inExt 3 2 0)) = some ([127,127,127,127], 4, .done) := by decide

/-- V-D6, V-D24, V-D16: PV_SELECTOR with FINFO the selector; the rest by R274. -/
theorem test_sel9 : ends (exec (.sel9Illegal 1) (inExt 2 2 0)) = some (.fault, 3, 9) := by decide
theorem test_sel10 : ends (exec (.sel10Illegal 0) (inExt 2 30 0)) = some (.fault, 3, 10) := by decide
theorem test_sel11 : ends (exec (.sel11Illegal 0) (inExt 3 2 0)) = some (.fault, 3, 11) := by decide
theorem test_sel12 : ends (exec (.sel12Illegal 0) (inExt 2 2 0)) = some (.fault, 3, 12) := by decide
theorem test_sel13 : ends (exec (.sel13Illegal 0) (inExt 3 2 0)) = some (.fault, 3, 13) := by decide
theorem test_sel14 : ends (exec (.sel14Illegal 0) (inExt 2 2 0)) = some (.fault, 3, 14) := by decide
theorem test_sel15 : ends (exec (.sel15Illegal 1) (inExt 2 3 0)) = some (.fault, 3, 15) := by decide

/-- 95_test_vectors.md section 2.1. -/
theorem test_vbEnc : view State.dp (exec (.vbEnc 300) base) = some (.bytes [0xAC, 0x02]) := by decide
theorem test_vbEnc_max : view State.dp (exec (.vbEnc 4294967295) base) = some (.bytes [0xFF, 0xFF, 0xFF, 0xFF, 0x0F]) := by
  decide

/-- Section 2.2: `81 00` is (1, 2); `FF FF FF FF 8F` is PV_HEADER, its sixth byte unread. -/
theorem test_vbDec : view State.dp (exec .vbDec (inHdr 2 [0x81, 0x00])) = some (.header 1 2) := by decide
theorem test_vbDec_long :
    view (fun t => (t.fcode, t.finfo, t.source)) (exec .vbDec (inHdr 2 [0xFF, 0xFF, 0xFF, 0xFF, 0x8F, 0x00])) =
      some (4, 4, [0x00]) := by decide

/-- R142: row 1. -/
theorem test_selLookup : view State.dp (exec (.selLookup 1) base) = some (.lookup true ⟨14, 2, 0⟩) := by decide

/-- R162: `FIT(7, 3)`, not `FIT(8, 3)`. -/
theorem test_fit : view State.dp (exec (.fit 7 3) base) = some (.bit true) := by decide
theorem test_fit_no : view State.dp (exec (.fit 8 3) base) = some (.bit false) := by decide

/-- R163, R164: the example `[3, 0, 2, 1, 15, 9]`. -/
theorem test_run : view State.dp (exec (.run 2 0) (encoding .ePack [3, 0, 2, 1, 15, 9])) = some (.count 4) := by decide
theorem test_run_all : view State.dp (exec (.run 3 0) (encoding .ePack [3, 0, 2, 1, 15, 9])) = some (.count 6) :=
  by decide
theorem test_accept : view State.dp (exec (.accept 2 0) (encoding .ePack [3, 0, 2, 1, 15, 9])) = some (.bit false) := by
  decide
theorem test_accept_rest : view State.dp (exec (.accept 3 0) (encoding .ePack [3, 0, 2, 1, 15, 9])) = some (.bit true) := by
  decide

/-- V-S4 and V-S7. -/
theorem test_select : view State.dp (exec (.select 0) (encoding .ePack [100, 100])) = some (.selection (some (5, 2))) := by
  decide
theorem test_select_eight :
    view State.dp (exec (.select 0) (encoding .ePack [16384, 1])) = some (.selection (some (8, 1))) := by decide

/-- V-E6 and V-E8. -/
theorem test_pack :
    view State.dp (exec (.pack 2 9 0) (encoding .ePack [5, 3, 7, 1, 0, 6, 2, 4, 7])) = some (.packed 0x78B03DD2) := by
  decide
theorem test_pack_six :
    view State.dp (exec (.pack 6 3 0) (encoding .ePack [100, 200, 300])) = some (.packed 0x4B190646) := by decide

/-- R193: `EXTRACT_G(0x4B190646, 0, 3)`. -/
theorem test_extractG : slots (exec (.extractG 6 0x4B19064) (inExt 2 3 0)) = some ([100, 200, 300], 3, .dExt) :=
  by decide

/-- R249: `N = 300` writes `AC` first. R253: the bytes of `0x4B190646`. -/
theorem test_step_eHdr :
    view (fun t => (t.sink, t.hreg, t.st)) (step { base with st := .eHdr, hreg := 300 }) = some ([0xAC], 2, .eHdr) := by
  decide
theorem test_step_dWord :
    view (fun t => (t.wreg, t.nbytes, t.st)) (step { base with st := .dWord, source := [0x46, 0x06, 0x19, 0x4B] }) =
      some (0x4B190646, 4, .dExt) := by decide

/-- R250: `ENCODE [1*29]` at `ICUR = 28` puts `0x00000010` in WREG. -/
theorem test_step_ePack :
    view (fun t => (t.wreg, t.kreg, t.st)) (step { encoding .ePack (List.replicate 29 1) with icur := 28 }) =
      some (0x00000010, 1, .eEmit) := by decide

/-- V-EF5: a failed Word leaves 0 to 3 of its bytes in the sink, here 2 (U7). -/
theorem test_step_eEmit_fails :
    view (fun t => (t.sink, t.fcode, t.st)) (step { base with st := .eEmit, wreg := 0xFFFFFFF1, sinkAns := [bad] }) =
      some ([0xF1, 0xFF], 5, .fault) := by decide

/-- The host's `withFetchWord`: a command, a header byte, a Word, each run by the coming step. -/
theorem test_withFetchWord :
    ends (step (State.reset.withFetchWord 8 1)) = some (.fault, 1, 0) ∧
    ends (step (State.reset.withFetchWord 8 0x81)) = some (.dHdr, 0, 0) ∧
    ends (step (State.reset.withFetchWord 32 0x1F)) = some (.fault, 3, 15) := by decide

/-! ### The statements' hypotheses can be met -/

theorem test_witness_DecodeOfEncodeIsTheInstruction :
    WellFormed Config.defaultParams (.encode 4294967295) = true ∧
    encode (.encode 4294967295) = some (.cmd 1 4294967295) ∧
    WellFormed tiny (.vbLast 127) = true ∧ encode (.vbLast 127) = some (.vb 0x7F) ∧
    WellFormed tiny (.sel15Illegal 0xFFFFFFF) = true ∧ encode (.sel15Illegal 0xFFFFFFF) = some (.word 2 0xFFFFFFFF) := by
  decide

theorem test_witness_EncodeOfDecodedBitsIsTheBits :
    decode (.vb 0x80) = .instr (.vbCont 0) ∧
    (0xFFFFFFF8#32).toNat % 16 ≤ 8 ∧ decode (.word 2 0xFFFFFFF8) = .instr (.w8 0xFFFFFFF) ∧
    (0x00000000#32).toNat % 16 ≤ 8 ∧ decode (.word 3 0x00000000) = .instr (.xu0 0) := by decide

theorem test_witness_ResetClearsEveryRegister :
    ({ base with st := .fault, fcode := 7, events := [.reset] } : State).events = .reset :: [] := by decide

theorem test_witness_StepRunsTheDecodedInstruction :
    (decode (.cmd 1 (4294967297 % 2 ^ base.params.lenBits)) = .instr (.encode 1)) ∧
    (sequencerTurn (inHdr 2 [0x81]) = some (inHdr 2 [0x81]) ∧ (inHdr 2 [0x81]).st = .dHdr ∧
      (inHdr 2 [0x81]).sourceAns = good :: List.replicate 15 good ∧ good.ok = true ∧
      decode (.vb 0x81) = .instr (.vbCont 1)) ∧
    (sequencerTurn { inExt 3 1 0xF with events := [.tick] } = some (inExt 3 1 0xF) ∧ (inExt 3 1 0xF).st = .dExt ∧
      decode (.word (inExt 3 1 0xF).op (inExt 3 1 0xF).wreg) = .instr (.sel15Illegal 0)) := by decide

theorem test_witness_NopChangesNothing :
    ({ base with events := [.command 0 5] } : State).events = .command 0 5 :: [] := by decide

theorem test_witness_StartEncodeChecksThenBegins :
    (base.st = .idle ∧ 0 < 1 % 2 ^ base.params.lenBits ∧
      ∀ i, i < 1 % 2 ^ base.params.lenBits → (vinAt [268435455] i).toNat ≤ 268435455) ∧
    (4294967296 % 2 ^ base.params.lenBits = 0) ∧
    (1 < 2 % 2 ^ base.params.lenBits ∧ 268435455 < (vinAt [268435455, 268435456] 1).toNat ∧
      ∀ j, j < 1 → (vinAt [268435455, 268435456] j).toNat ≤ 268435455) := by decide

theorem test_witness_StartDecodeBeginsTheHeader :
    State.reset.st = .idle ∧ ({ base with st := .done } : State).st = .done := by decide

theorem test_witness_StartIsLostWhileBusyOrFaulted :
    let s : State := { base with st := .fault, events := [.command 3 0] }
    s.st ≠ .idle ∧ s.st ≠ .done ∧ s.events = .command 3 0 :: [] := by decide

theorem test_witness_StartForgetsEveryRegister :
    let t : State := { base with st := .done, op := 3, n := 7, ocnt := 28, nbytes := 5, wreg := 1 }
    base.st = .idle ∧ t.st = .done ∧ base.params = t.params ∧ base.vout = t.vout ∧ base.vin = t.vin ∧
      base.source = t.source ∧ base.sourceAns = t.sourceAns ∧ base.sink = t.sink ∧ base.sinkAns = t.sinkAns ∧
      base.events = t.events ∧ base.dp = t.dp ∧ base ≠ t := by decide

theorem test_witness_LengthIsReadByEncodeOnly : (3 : BitVec 2) ≠ 1 := by decide

/-- `LEN_BITS` = 8: groups 127 at byte 0, 1 and 2 at byte 1, the last the width allows. -/
theorem test_witness_ContinuationByteExtendsTheHeader :
    let s := tinyHdr 2 []
    let t : State := { s with hreg := 127, hidx := 1 }
    s.params.Legal ∧ s.st = .dHdr ∧ s.hreg < 2 ^ s.params.lenBits ∧ t.hreg < 2 ^ t.params.lenBits ∧
    (127 * 2 ^ (7 * s.hidx.toNat) < 2 ^ s.params.lenBits ∧ s.hidx.toNat + 1 ≠ (s.params.lenBits + 6) / 7) ∧
    (1 * 2 ^ (7 * t.hidx.toNat) < 2 ^ t.params.lenBits ∧ t.hidx.toNat + 1 = (t.params.lenBits + 6) / 7) ∧
    2 ^ t.params.lenBits ≤ 2 * 2 ^ (7 * t.hidx.toNat) := by decide

/-- `OUT_SLOTS` = 28 under DECODE_FAST: lengths 1, 0 and 2; and a group that does not fit. -/
theorem test_witness_LastByteSetsTheLengthAndAllocates :
    let s := tinyHdr 3 []
    s.params.Legal ∧ s.st = .dHdr ∧ s.hreg < 2 ^ s.params.lenBits ∧ s.op = 3 ∧
    (0 ||| 1 * 2 ^ (7 * s.hidx.toNat)) + 27 ≤ s.params.outSlots ∧
    (0 ||| 0 * 2 ^ (7 * s.hidx.toNat)) + 27 ≤ s.params.outSlots ∧
    s.params.outSlots < (0 ||| 2 * 2 ^ (7 * s.hidx.toNat)) + 27 ∧
    2 ^ s.params.lenBits ≤ 2 * 2 ^ (7 * ({ s with hidx := 1 } : State).hidx.toNat) := by decide

theorem test_witness_VbEncEmitsTheShortestHeader :
    ({ base with params := tiny } : State).params.Legal ∧ 255 < 2 ^ tiny.lenBits := by decide

/-- `FF 01` on the narrowest core: two bytes, value 255. -/
theorem test_witness_VbDecReadsEveryLegalHeader :
    let s := tinyHdr 2 [0xFF, 0x01, 0x55]
    s.st = .dHdr ∧ IsHeader [0xFF, 0x01] ∧ [0xFF#8, 0x01#8].length ≤ (s.params.lenBits + 6) / 7 ∧
      headerSum [0xFF, 0x01] < 2 ^ s.params.lenBits ∧ s.source = [0xFF, 0x01] ++ [0x55] ∧
      s.sourceAns = [good, good] ++ List.replicate 14 good ∧ ∀ a ∈ [good, good], a.ok = true :=
  ⟨by decide, ⟨by decide, show _ < 128 by decide⟩, by decide, by decide, by decide, by decide, by decide⟩

/-- `80 02` and `80 80` on the narrowest core. -/
theorem test_witness_VbDecRejectsAHeaderThatDoesNotFit :
    let s := tinyHdr 2 [0x80, 0x02]
    let t := tinyHdr 2 [0x80, 0x80]
    s.params.Legal ∧ s.st = .dHdr ∧ t.st = .dHdr ∧ (∀ c ∈ [0x80#8], 128 ≤ c.toNat) ∧
    [0x80#8].length < (s.params.lenBits + 6) / 7 ∧
    2 ^ s.params.lenBits ≤ (0x02#8).toNat % 128 * 2 ^ (7 * [0x80#8].length) ∧
    (128 ≤ (0x80#8).toNat ∧ [0x80#8].length + 1 = (t.params.lenBits + 6) / 7) ∧
    s.source = [0x80] ++ 0x02 :: [] ∧ t.source = [0x80] ++ 0x80 :: [] ∧
    s.sourceAns = [good, good] ++ List.replicate 14 good ∧ ∀ a ∈ [good, good], a.ok = true := by decide

/-- `80`, then a source that is at its end, that fails, or that gives no verdict. -/
theorem test_witness_VbDecReportsASourceFailure :
    let s : State := { tinyHdr 2 [0x80] with sourceAns := [good, good] }
    let t : State := { tinyHdr 2 [0x80, 0x01] with sourceAns := [good, bad] }
    let u : State := { tinyHdr 2 [0x80] with sourceAns := [good] }
    s.st = .dHdr ∧ (∀ c ∈ [0x80#8], 128 ≤ c.toNat) ∧ [0x80#8].length < (s.params.lenBits + 6) / 7 ∧
    [good].length = [0x80#8].length ∧ good.ok = true ∧
    (s.source = [0x80] ++ [] ∧ s.sourceAns = [good] ++ good :: []) ∧
    (t.source = [0x80] ++ [0x01] ∧ t.sourceAns = [good] ++ bad :: [] ∧ bad.ok = false) ∧
    (u.source = [0x80] ++ [] ∧ u.sourceAns = [good]) := by decide

theorem test_witness_HeaderRoundTrip :
    tiny.Legal ∧ 255 < 2 ^ tiny.lenBits ∧ 0 < 2 ^ tiny.lenBits ∧ vbEncode 255 = vbEncode 255 := by decide

theorem test_witness_SelLookupAnswersTheNineRows :
    ([(0, ⟨28, 1, 0⟩), (1, ⟨14, 2, 0⟩), (2, ⟨9, 3, 1⟩), (3, ⟨7, 4, 0⟩), (4, ⟨5, 5, 3⟩), (5, ⟨4, 7, 0⟩),
        (6, ⟨3, 9, 1⟩), (7, ⟨2, 14, 0⟩), (8, ⟨1, 28, 0⟩)] : List (Nat × Row)).lookup (8#4).toNat = some ⟨1, 28, 0⟩ ∧
    9 ≤ (9#4).toNat ∧ 9 ≤ (15#4).toNat := by decide

/-- The example of R163 and R164: row 3 takes all six Values, row 2 stops at four. -/
theorem test_witness_AcceptIffFullOrExhausted :
    let s := encoding .ePack [3, 0, 2, 1, 15, 9]
    0 < s.n ∧ IsRun (vinAt s.vin) s.n (rom 3) 0 6 ∧ (6 = (rom 3).cap ∨ 0 + 6 = s.n) ∧
      IsRun (vinAt s.vin) s.n (rom 2) 0 4 :=
  ⟨by decide, ⟨by decide, by decide, by decide, by decide⟩, by decide, ⟨by decide, by decide, by decide, by decide⟩⟩

theorem test_witness_SelectAnswersTheFirstAcceptedRow :
    let s := encoding .ePack [268435455, 1]
    0 < s.n ∧ 1 < s.n ∧ ValuesLegal s.vin s.n := ⟨by decide, by decide, by unfold ValuesLegal; decide⟩

theorem test_witness_PackPutsEachValueInItsField :
    let s := encoding .ePack [511, 511, 511]
    3 ≤ (rom 6).cap ∧ 0 + 3 ≤ s.n ∧ ∀ j, j < 3 → (vinAt s.vin (0 + j)).toNat < 2 ^ (rom 6).bits := by decide

theorem test_witness_SlotsThatDoNotExistStop :
    (encoding .ePack [1, 1]).n < 1 + 2 ∧
    (let s : State := { inExt 2 60 0 with params := tiny, ocnt := 1 }
     s.st = .dExt ∧ s.op = 2 ∧ s.params.outSlots < s.ocnt + min (rom 0).cap (s.n - s.ocnt)) ∧
    (let s : State := { inExt 3 60 0 with params := tiny, ocnt := 28 }
     s.st = .dExt ∧ s.op = 3 ∧ s.params.outSlots < s.ocnt + (rom 8).cap) := by decide

/-- The last slot of the narrowest VOUT, and a whole Word of row 0. -/
theorem test_witness_WordUnderDecodeFillsItsSlots :
    (let s : State := { inExt 2 28 0 with params := tiny, ocnt := 27 }
     s.st = .dExt ∧ s.op = 2 ∧ s.ocnt + min (rom 0).cap (s.n - s.ocnt) ≤ s.params.outSlots ∧
      s.ocnt + min (rom 0).cap (s.n - s.ocnt) < 2 ^ (s.params.lenBits + 1)) ∧
    (let s : State := { inExt 2 28 0 with params := tiny }
     s.ocnt + min (rom 0).cap (s.n - s.ocnt) = s.params.outSlots) := by decide

theorem test_witness_TreeUnderDecodeFastFillsItsSlots :
    let s : State := { inExt 3 1 0 with params := tiny }
    s.st = .dExt ∧ s.op = 3 ∧ s.ocnt + (rom 0).cap ≤ s.params.outSlots ∧
      s.ocnt + (rom 0).cap < 2 ^ (s.params.lenBits + 1) := by decide

theorem test_witness_ExtractGFillsSlotsAndCounts :
    let s : State := { inExt 2 28 0 with params := tiny, ocnt := 27 }
    s.st = .dExt ∧ s.op = 2 ∧ s.ocnt + min (rom 8).cap (s.n - s.ocnt) ≤ s.params.outSlots ∧
      s.ocnt + min (rom 8).cap (s.n - s.ocnt) < 2 ^ (s.params.lenBits + 1) := by decide

theorem test_witness_IllegalSelectorRaisesPvSelector :
    let s := inExt 3 1 0xFFFFFFFF
    s.params.Legal ∧ s.st = .dExt ∧ sequencerTurn s = some s ∧ 9 ≤ s.wreg.toNat % 16 ∧
      9 ≤ (inExt 2 1 0x9).wreg.toNat % 16 := by decide

/-- Row 2 with its waste bit, and with all the fields not taken, at 0 and at 1. -/
theorem test_witness_UnusedBitsDoNotReachADecode :
    let s := inExt 2 1 0
    ∀ j, j < min (rom 2).cap (s.n - s.ocnt) →
      fieldValue (wordOf (BitVec.ofNat 4 (2 : Fin 9).val) 7) (rom 2).bits j =
        fieldValue (wordOf (BitVec.ofNat 4 (2 : Fin 9).val) 0xFFFFFFF) (rom 2).bits j := by decide

theorem test_witness_TreeAgreesWithExtractorBelowLength :
    let s : State := { inExt 2 30 0 with ocnt := 29 }
    s.st = .dExt ∧ s.ocnt < s.n ∧ s.n + 27 < 2 ^ (s.params.lenBits + 1) ∧
    (∃ t, exec (wInstr 0 0xFFFFFFF) { s with op := 2 } = .next t) ∧
    ∃ u, exec (xuInstr 0 0xFFFFFFF) { s with op := 3 } = .next u :=
  ⟨by decide, by decide, by decide, ⟨_, rfl⟩, ⟨_, rfl⟩⟩

theorem test_witness_InstructionsNotEnabledChangeNothing :
    base.st ≠ .dHdr ∧ base.st ≠ .dExt ∧ (inExt 3 1 0).op ≠ 2 ∧ (inExt 2 1 0).op ≠ 3 := by decide

/-- HREG 128, 127, and a sink that fails. -/
theorem test_witness_EHdrEmitsOneHeaderByte :
    (let t : State := { base with st := .eHdr, hreg := 128 }
     sequencerTurn { t with events := [.tick] } = some t ∧ t.st = .eHdr ∧
      t.sinkAns = good :: List.replicate 15 good ∧ good.ok = true ∧ 128 ≤ t.hreg) ∧
    (let t : State := { base with st := .eHdr, hreg := 127 }
     sequencerTurn t = some t ∧ t.st = .eHdr ∧ t.sinkAns = good :: List.replicate 15 good ∧ t.hreg < 128) ∧
    (let t : State := { base with st := .eHdr, hreg := 1, sinkAns := [bad] }
     sequencerTurn t = some t ∧ t.st = .eHdr ∧ t.sinkAns = bad :: [] ∧ bad.ok = false) := by decide

theorem test_witness_EPackBuildsTheGreedyWord :
    (let t : State := { encoding .ePack [1, 2] with icur := 2 }
     sequencerTurn t = some t ∧ t.st = .ePack ∧ t.icur = t.n) ∧
    (let t : State := { encoding .ePack [1, 268435455] with icur := 1 }
     sequencerTurn t = some t ∧ t.st = .ePack ∧ t.icur < t.n ∧ ValuesLegal t.vin t.n) :=
  ⟨by decide, by decide, by decide, by decide, by unfold ValuesLegal; decide⟩

theorem test_witness_EEmitWritesTheWord :
    (let t : State := { encoding .eEmit [1] with kreg := 1 }
     sequencerTurn t = some t ∧ t.st = .eEmit ∧ t.sinkAns = good :: List.replicate 15 good ∧ good.ok = true ∧
      t.icur + t.kreg.toNat < 2 ^ t.params.lenBits) ∧
    (let t : State := { encoding .eEmit [1] with kreg := 1, sinkAns := [bad] }
     sequencerTurn t = some t ∧ t.st = .eEmit ∧ t.sinkAns = bad :: [] ∧ bad.ok = false) := by decide

/-- Four bytes left, three bytes left, and a source that fails. -/
theorem test_witness_DWordReadsOneWord :
    (let t : State := { base with st := .dWord, source := [1, 2, 3, 4] }
     sequencerTurn t = some t ∧ t.st = .dWord ∧ t.sourceAns = good :: List.replicate 15 good ∧ good.ok = true ∧
      t.source = 1 :: 2 :: 3 :: 4 :: []) ∧
    (let t : State := { base with st := .dWord, source := [1, 2, 3] }
     sequencerTurn t = some t ∧ t.sourceAns = good :: List.replicate 15 good ∧ t.source.length < 4) ∧
    (let t : State := { base with st := .dWord, source := [1, 2, 3, 4], sourceAns := [bad] }
     sequencerTurn t = some t ∧ t.sourceAns = bad :: [] ∧ bad.ok = false) := by decide

theorem test_witness_HeaderReadFailureRaisesIoSource :
    (let t := inHdr 2 []
     sequencerTurn t = some t ∧ t.st = .dHdr ∧ t.sourceAns = good :: List.replicate 15 good ∧ t.source = []) ∧
    (let t : State := { inHdr 3 [1] with sourceAns := [bad] }
     sequencerTurn t = some t ∧ t.st = .dHdr ∧ t.sourceAns = bad :: [] ∧ bad.ok = false) := by decide

theorem test_witness_UnansweredTransactionWaitsForEver :
    (let s : State := { base with st := .eEmit, sinkAns := [] }
     s.events = [] ∧ s.st = .eEmit ∧ s.sinkAns = []) ∧
    (let s : State := { inHdr 2 [1] with sourceAns := [] }
     s.events = [] ∧ s.st = .dHdr ∧ s.sourceAns = []) := by decide

/-- A decode whose last item is still missing. -/
def nearEnd : State := { inExt 3 1 0xFFFFFFF0 with params := tiny }

theorem test_nearEnd_inv : Inv nearEnd where
  params := by decide
  widths := by constructor <;> decide
  noFault := fun _ => by decide
  inFault := fun h => by cases h
  hidx := by decide
  voutWf := by decide
  voutIn := by decide
  legal := by show Decoding nearEnd; constructor <;> decide

theorem test_witness_EveryStepKeepsTheInvariant : Inv nearEnd ∧ ∃ t, step nearEnd = .next t :=
  ⟨test_nearEnd_inv, ⟨_, rfl⟩⟩

theorem test_witness_NoReachableStepStops : Inv nearEnd ∧ CallerKeepsStill nearEnd := ⟨test_nearEnd_inv, trivial⟩

theorem test_witness_FaultIsLeftByResetOnly :
    let s : State := { base with st := .fault, fcode := 3, events := [.connectSource [1]] }
    s.st = .fault ∧ (∃ t, step s = .next t) ∧ ∀ es, s.events ≠ .reset :: es :=
  ⟨by decide, ⟨_, rfl⟩, fun es h => by cases h⟩

theorem test_witness_OnlyListedTransitionsOccur :
    (∃ t, step nearEnd = .next t) ∧ ∀ es, nearEnd.events ≠ .reset :: es := ⟨⟨_, rfl⟩, fun es h => by cases h⟩

theorem test_witness_FaultCodesComeFromTheirSteps :
    ∃ t, step (inExt 2 1 0xF) = .next t ∧ (inExt 2 1 0xF).st ≠ .fault ∧ t.st = .fault := ⟨_, rfl, by decide, by decide⟩

theorem test_witness_EachSpaceIsReachedByItsOwnSteps :
    (∃ t, step (inHdr 2 [1]) = .next t) ∧ ∀ bs es, (inHdr 2 [1]).events ≠ .connectSource bs :: es :=
  ⟨⟨_, rfl⟩, fun bs es h => by cases h⟩

theorem test_witness_OperationAndParametersStayFixed :
    ∃ t, step { base with events := [.command 3 0] } = .next t := ⟨_, rfl⟩

theorem test_witness_StreamLengthIsHeaderPlusWords :
    ([268435455] : List Slot) ≠ [] ∧ ∀ x ∈ ([268435455] : List Slot), x.toNat ≤ 268435455 := by simp

theorem test_witness_TrivialInputTakesTheFewestWords :
    ([0, 1] : List Slot) ≠ [] ∧ ∀ x ∈ ([0, 1] : List Slot), x.toNat ≤ 1 := by simp

/-- V-D18: `AA BB` stay unread. -/
theorem test_witness_DecodeConsumesWhatItCounts :
    tiny.Legal ∧ decodeStream tiny false [0x01, 0x18, 0, 0, 0, 0xAA, 0xBB] = .finished [1] 1 5 [0xAA, 0xBB] := by decide

/-- V-D1 with its overrun; a header that does not fit; a length at which only DECODE_FAST raises ALLOC. -/
theorem test_witness_FastDecoderAgreesWithGenericDecoder :
    tiny.Legal ∧ decodeStream tiny true [0x01, 0xF8, 0xFF, 0xFF, 0xFF] = .finished [268435455] 1 5 [] ∧
    decodeStream tiny true [0x80, 0x02] = .faulted 4 1 ∧ decodeStream tiny false [0x02, 0x19, 0, 0, 0] = .faulted 3 9 ∧
    decodeStream tiny true [0x02, 0x19, 0, 0, 0] = .faulted 7 2 := by decide

theorem test_witness_DecodeOfEncodeIsTheSequence :
    tiny.Legal ∧ ([268435455] : List Slot) ≠ [] ∧ [268435455#32].length < 2 ^ tiny.lenBits ∧
    (∀ x ∈ ([268435455] : List Slot), x.toNat ≤ 268435455) ∧ [268435455#32].length + 27 ≤ tiny.outSlots :=
  ⟨by decide, by decide, by decide, by simp, by decide⟩

theorem test_witness_EncodeStepsWriteTheStream :
    let s : State := { base with params := tiny, vin := [268435455, 0], events := [.command 1 2] }
    s.params.Legal ∧ s.st = .idle ∧ s.vin ≠ [] ∧ s.vin.length < 2 ^ s.params.lenBits ∧
      (∀ x ∈ s.vin, x.toNat ≤ 268435455) ∧ s.events = [.command 1 s.vin.length] ∧ (∀ a ∈ s.sinkAns, a.ok = true) ∧
      (encodeStream s.vin).length ≤ s.sinkAns.length :=
  ⟨by decide, by decide, by decide, by decide, by simp, by decide, by decide, by decide⟩

theorem test_witness_DecodeStepsFollowTheFunction :
    let s : State := { base with params := tiny, source := [0x01, 0xF8, 0xFF, 0xFF, 0xFF], events := [.command 3 9] }
    s.params.Legal ∧ s.st = .idle ∧ s.events = [.command 3 9] ∧ (∀ a ∈ s.sourceAns, a.ok = true) ∧
      s.source.length < s.sourceAns.length ∧ decodeStream s.params true s.source = .finished [268435455] 1 5 [] :=
  by decide

theorem test_witness_DecodeStepsFaultAsTheFunction :
    let s : State := { base with params := tiny, st := .done, source := [0x02, 0x19, 0, 0, 0], events := [.command 2 0] }
    s.params.Legal ∧ s.st = .done ∧ s.events = [.command 2 0] ∧ (∀ a ∈ s.sourceAns, a.ok = true) ∧
      s.source.length < s.sourceAns.length ∧ decodeStream s.params false s.source = .faulted 3 9 := by decide

theorem test_witness_MachineDecodesWhatItEncoded :
    let s : State := { base with params := tiny, source := [0x01, 0x72, 0, 0, 0, 0xAA], events := [.command 3 0] }
    s.params.Legal ∧ s.st = .idle ∧ [7#32].length < 2 ^ s.params.lenBits ∧ (7#32).toNat ≤ 268435455 ∧
      [7#32].length + 27 ≤ s.params.outSlots ∧ s.source = encodeStream [7] ++ [0xAA] ∧ s.events = [.command 3 0] ∧
      (∀ a ∈ s.sourceAns, a.ok = true) ∧ s.source.length < s.sourceAns.length := by decide

end Sys2Proof.Tests
end

section
/-! The status flags (spec/10_state.md R36): when each one is up, that exactly one is, and what they are in IDLE. -/

namespace Sys2Proof.Machine

theorem State.busy_iff (s : State) :
    s.busy = true ↔ s.st = .eHdr ∨ s.st = .ePack ∨ s.st = .eEmit ∨ s.st = .dHdr ∨ s.st = .dWord ∨ s.st = .dExt := by
  cases h : s.st <;> simp [State.busy, h]

@[simp] theorem State.isIdle_iff (s : State) : s.isIdle = true ↔ s.st = .idle := decide_eq_true_iff

@[simp] theorem State.isDone_iff (s : State) : s.isDone = true ↔ s.st = .done := decide_eq_true_iff

@[simp] theorem State.isFault_iff (s : State) : s.isFault = true ↔ s.st = .fault := decide_eq_true_iff

/-- The flags are counted: a sum of 1 says both that one is up and that no two are. -/
theorem State.status_count (s : State) :
    s.isIdle.toNat + s.busy.toNat + s.isDone.toNat + s.isFault.toNat = 1 := by
  cases h : s.st <;> simp [State.isIdle, State.busy, State.isDone, State.isFault, h]

/-- `idle` is the flag without an output port: while it is up, it is the one that `State.status_count` counts. -/
theorem State.outputs_low_of_idle {s : State} (h : s.st = .idle) :
    s.busy = false ∧ s.isDone = false ∧ s.isFault = false := by
  have one := s.status_count
  rw [s.isIdle_iff.mpr h, Bool.toNat_true] at one
  refine ⟨?_, ?_, ?_⟩ <;> apply Bool.toNat_eq_zero.mp <;> omega

@[simp] theorem State.reset_st : State.reset.st = .idle := rfl

/-- Settles O10: each flag by its own rule, the count by the nine sequencer states, reset because it is in IDLE. -/
theorem statusShowsExactlyOneOfFour : Obligations.StatusShowsExactlyOneOfFour :=
  ⟨fun s => ⟨s.busy_iff, s.isDone_iff, s.isFault_iff, s.isIdle_iff, s.status_count⟩,
    State.outputs_low_of_idle State.reset_st⟩

end Sys2Proof.Machine
end

section
/-! The byte order of a Word as numbers (spec/20_memory.md R70): its four bytes in stream order are its digits to base
256, least significant first, and four bytes give the Word with these digits. -/

namespace Sys2Proof

theorem le32_map_toNat (w : Word) :
    (le32 w).map BitVec.toNat =
      [w.toNat % 256, w.toNat / 256 % 256, w.toNat / 65536 % 256, w.toNat / 16777216 % 256] := by
  simp [le32, BitVec.extractLsb'_toNat, Nat.shiftRight_eq_div_pow]

/-- A Word whose number has four given bytes as its digits is sent as these bytes. -/
theorem le32_of_toNat_eq {w : Word} {b0 b1 b2 b3 : Byte}
    (h : w.toNat = b0.toNat + 256 * b1.toNat + 65536 * b2.toNat + 16777216 * b3.toNat) :
    le32 w = [b0, b1, b2, b3] := by
  have toNat_injective : Function.Injective (BitVec.toNat : Byte → Nat) := fun _ _ => BitVec.eq_of_toNat_eq
  apply toNat_injective.list_map
  rw [le32_map_toNat, h]
  simp only [List.map_cons, List.map_nil, List.cons.injEq, and_true]
  omega

/-- The number of the Word that four bytes give: the Word with this number is sent as these bytes, and
`wordOfBytes_le32` reads it back. -/
theorem wordOfBytes_toNat (b0 b1 b2 b3 : Byte) :
    (wordOfBytes [b0, b1, b2, b3]).toNat =
      b0.toNat + 256 * b1.toNat + 65536 * b2.toNat + 16777216 * b3.toNat := by
  have fits : b0.toNat + 256 * b1.toNat + 65536 * b2.toNat + 16777216 * b3.toNat < 2 ^ 32 := by omega
  have sent := le32_of_toNat_eq (BitVec.toNat_ofNatLT _ fits)
  rw [← sent, wordOfBytes_le32, BitVec.toNat_ofNatLT]

/-- Settles O4: the bytes of a Word give it back and are its base 256 digits, which fixes the Word of any four bytes. -/
theorem wordSurvivesTheByteStream : Obligations.WordSurvivesTheByteStream :=
  ⟨fun w => ⟨wordOfBytes_le32 w, le32_map_toNat w⟩, wordOfBytes_toNat⟩

end Sys2Proof
end

section
/-! The storage form of a row of the selector ROM (spec/30_encoding.md R101): three fields side by side, which give the row
back when its numbers fit them. -/

namespace Sys2Proof.Machine

@[simp] theorem Row.stored_cap (r : Row) : r.stored.extractLsb' 7 5 = BitVec.ofNat 5 r.cap := by
  rw [Row.stored, BitVec.extractLsb'_append_eq_of_le (by decide), BitVec.extractLsb'_append_eq_left]

@[simp] theorem Row.stored_bits (r : Row) : r.stored.extractLsb' 2 5 = BitVec.ofNat 5 r.bits := by
  rw [Row.stored, BitVec.extractLsb'_append_eq_of_le (by decide), BitVec.extractLsb'_append_eq_right]

@[simp] theorem Row.stored_waste (r : Row) : r.stored.extractLsb' 0 2 = BitVec.ofNat 2 r.waste :=
  BitVec.extractLsb'_append_eq_right

theorem rowOfStored_stored {r : Row} (hcap : r.cap < 2 ^ 5) (hbits : r.bits < 2 ^ 5) (hwaste : r.waste < 2 ^ 2) :
    rowOfStored r.stored = r := by
  simp only [rowOfStored, Row.stored_cap, Row.stored_bits, Row.stored_waste, BitVec.toNat_ofNat, Nat.mod_eq_of_lt hcap,
    Nat.mod_eq_of_lt hbits, Nat.mod_eq_of_lt hwaste]

theorem rom_waste_le (r : Fin 9) : (rom r).waste ≤ 3 := by
  revert r; decide

theorem rowOfStored_rom (r : Fin 9) : rowOfStored (rom r).stored = rom r := by
  obtain ⟨-, -, hcap, -, hbits⟩ := rom_facts r
  have hwaste := rom_waste_le r
  apply rowOfStored_stored <;> omega

/-- Settles O6: the fields by their places in the storage form, the row given back because its numbers fit them, the
nine listed numbers by evaluating the form. -/
theorem romRowsAreStoredAsListed : Obligations.RomRowsAreStoredAsListed :=
  ⟨fun r => ⟨(rom r).stored_cap, (rom r).stored_bits, (rom r).stored_waste, rowOfStored_rom r⟩, by decide⟩

end Sys2Proof.Machine
end

section
/-! The header decoder undoes the header encoder (spec/40_varbyte.md R122 to R124). VB_DEC reads any header whose value
fits `LEN_BITS` bits, because the groups occupy disjoint places; what VB_ENC emits is one such header, and a superfluous
zero group makes another one of the same value. -/

namespace Sys2Proof.Machine

open Sys2Proof.Safety

theorem groupOf_toNat (b : Byte) : (groupOf b).toNat = b.toNat % 128 := by
  rw [groupOf, BitVec.extractLsb'_toNat, Nat.shiftRight_zero]

/-- R122 ORs the group to the value so far: as the value ends below the group's place, that is to add it. -/
theorem headerGroup_eq_add {p : Config.Params} {i value : Nat} {g : BitVec 7} (below : value < 2 ^ (7 * i))
    (fits : 2 ^ (7 * i) * g.toNat < 2 ^ p.lenBits) :
    headerGroup p i value g = some (value + 2 ^ (7 * i) * g.toNat) := by
  have place : g.toNat <<< (7 * i) = 2 ^ (7 * i) * g.toNat := by rw [Nat.shiftLeft_eq, Nat.mul_comm]
  rw [headerGroup, if_neg (by omega), Nat.or_comm, ← Nat.shiftLeft_add_eq_or_of_lt below, place, Nat.add_comm]

/-- A byte with its marker clear ends the header (R122). -/
theorem vbDecodeBytes_last {p : Config.Params} {fuel i value v : Nat} {b : Byte} {rest : List Byte}
    (last : b.toNat < 128) (group : headerGroup p i value (groupOf b) = some v) :
    vbDecodeBytes p (fuel + 1) i value (b :: rest) = .decoded v (i + 1) rest := by
  have marker : b.msb = false := BitVec.msb_eq_false_iff_two_mul_lt.2 (by omega)
  simp [vbDecodeBytes, group, marker]

/-- A byte with its marker set goes on to the next one, unless it is the last the width allows (R122, R123). -/
theorem vbDecodeBytes_cont {p : Config.Params} {fuel i value v : Nat} {b : Byte} {rest : List Byte}
    (cont : 128 ≤ b.toNat) (group : headerGroup p i value (groupOf b) = some v) (more : i + 1 < maxHdrBytes p) :
    vbDecodeBytes p (fuel + 1) i value (b :: rest) = vbDecodeBytes p fuel (i + 1) v rest := by
  have marker : b.msb = true := BitVec.msb_eq_true_iff_two_mul_ge.2 (by omega)
  simp [vbDecodeBytes, group, marker, more.ne]

/-- VB_DEC from byte `i` on, with a value so far that ends below the place of group `i`: the header that follows adds
its value at that place. -/
theorem vbDecodeBytes_append {p : Config.Params} {h : List Byte} (rest : List Byte) {fuel i value : Nat}
    (header : IsHeader h) (enough : h.length ≤ fuel) (short : i + h.length ≤ maxHdrBytes p)
    (below : value < 2 ^ (7 * i)) (fits : value + 2 ^ (7 * i) * headerSum h < 2 ^ p.lenBits) :
    vbDecodeBytes p fuel i value (h ++ rest) =
      .decoded (value + 2 ^ (7 * i) * headerSum h) (i + h.length) rest := by
  induction h generalizing fuel i value with
  | nil => exact header.elim
  | cons b bs ih =>
    obtain ⟨fuel, rfl⟩ : ∃ f, fuel = f + 1 := Nat.exists_eq_succ_of_ne_zero (by simp at enough; omega)
    have place : 2 ^ (7 * (i + 1)) = 2 ^ (7 * i) * 128 := by rw [Nat.mul_succ, Nat.pow_add]
    have parts : value + 2 ^ (7 * i) * headerSum (b :: bs) =
        value + 2 ^ (7 * i) * (groupOf b).toNat + 2 ^ (7 * (i + 1)) * headerSum bs := by
      rw [headerSum, groupOf_toNat, place]; ring
    rw [parts] at fits ⊢
    have group := headerGroup_eq_add (p := p) (g := groupOf b) below (by omega)
    cases bs with
    | nil => simpa [headerSum] using vbDecodeBytes_last header group
    | cons c cs =>
      obtain ⟨cont, header⟩ := header
      simp only [List.length_cons] at enough short
      have below' : value + 2 ^ (7 * i) * (groupOf b).toNat < 2 ^ (7 * (i + 1)) := by
        have := Nat.mul_le_mul_left (2 ^ (7 * i)) (Nat.succ_le_of_lt (groupOf b).isLt)
        rw [Nat.mul_succ] at this
        omega
      rw [List.cons_append, vbDecodeBytes_cont cont group (by omega),
        ih header (by simp; omega) (by simp; omega) below' fits, List.length_cons (a := b)]
      congr 1
      omega

/-- VB_DEC reads every header of at most `MAX_HDR_BYTES` bytes whose value fits, and touches no byte after it. -/
theorem vbDecode_append {p : Config.Params} {h : List Byte} (rest : List Byte) (header : IsHeader h)
    (short : h.length ≤ maxHdrBytes p) (fits : headerSum h < 2 ^ p.lenBits) :
    vbDecode p (h ++ rest) = .decoded (headerSum h) h.length rest := by
  simpa [vbDecode] using vbDecodeBytes_append (i := 0) (value := 0) rest header short (by omega) (by omega) (by omega)

/-- A number of `LEN_BITS` bits is one of at most 64 bits (R8). -/
theorem lt_two_pow_64 {p : Config.Params} {n : Nat} (legal : p.Legal) (hn : n < 2 ^ p.lenBits) : n < 2 ^ 64 :=
  lt_of_lt_of_le hn (Nat.pow_le_pow_right (by omega) legal.2.1)

/-- The least number of bytes is within `MAX_HDR_BYTES`: all bytes but the last are full (R120, R121). -/
theorem vbEncode_length_le {p : Config.Params} {n : Nat} (legal : p.Legal) (hn : n < 2 ^ p.lenBits) :
    (vbEncode n).length ≤ maxHdrBytes p := by
  obtain ⟨-, -, -, least⟩ := vbEncode_spec n (lt_two_pow_64 legal hn)
  obtain ⟨minBits, -, -⟩ := legal
  rw [maxHdrBytes]
  rcases Nat.lt_or_ge 1 (vbEncode n).length with long | one
  · have full : 2 ^ (7 * ((vbEncode n).length - 1)) < 2 ^ p.lenBits := by
      rw [Nat.pow_mul]
      exact lt_of_le_of_lt (least long) hn
    have := (Nat.pow_lt_pow_iff_right (by omega)).1 full
    omega
  · omega

theorem vbDecode_vbEncode {p : Config.Params} {n : Nat} (rest : List Byte) (legal : p.Legal) (hn : n < 2 ^ p.lenBits) :
    vbDecode p (vbEncode n ++ rest) = .decoded n (vbEncode n).length rest := by
  obtain ⟨header, sum, -⟩ := vbEncode_spec n (lt_two_pow_64 legal hn)
  simpa only [sum] using vbDecode_append rest header (vbEncode_length_le legal hn) (by rwa [sum])

/-- R122's corner case: `00` and `80 00` both carry 0. -/
theorem vbDecode_zero_twice {p : Config.Params} (legal : p.Legal) :
    vbDecode p [0x00] = .decoded 0 1 [] ∧ vbDecode p [0x80, 0x00] = .decoded 0 2 [] := by
  have two : 2 ≤ maxHdrBytes p := by
    obtain ⟨minBits, -, -⟩ := legal
    rw [maxHdrBytes]; omega
  have header : IsHeader [0x00] := show (0x00 : Byte).toNat < 128 by decide
  exact ⟨vbDecode_append [] header (one_le_two.trans two) (Nat.two_pow_pos _),
    vbDecode_append (h := [0x80, 0x00]) [] ⟨by decide, header⟩ two (Nat.two_pow_pos _)⟩

/-- Settles O23: VB_DEC reads what VB_ENC emits as the header it is, VB_ENC is injective because VB_DEC answers its
operand, and VB_DEC is not because of the superfluous zero group. -/
theorem headerRoundTrip : Obligations.HeaderRoundTrip := by
  refine ⟨fun p n rest legal hn => vbDecode_vbEncode rest legal hn, ?_, ?_⟩
  · intro p m n legal hm hn same
    have decoded := vbDecode_vbEncode [] legal hm
    rw [same, vbDecode_vbEncode [] legal hn] at decoded
    cases decoded
    rfl
  · intro p legal
    obtain ⟨short, long⟩ := vbDecode_zero_twice legal
    exact ⟨[0x00], [0x80, 0x00], 0, by decide, short, long⟩

end Sys2Proof.Machine
end

section
/-! The row invariant of the selector ROM (spec/41_selector_table.md R150): selector, fields and waste fill the 32 bits,
so the 28 payload bits bound the fields and leave the waste. -/

namespace Sys2Proof.Machine

/-- R150: the fields stay in the payload and the waste is what they leave of it. -/
theorem rom_payload (r : Fin 9) :
    (rom r).cap * (rom r).bits ≤ 28 ∧ (rom r).waste = 28 - (rom r).cap * (rom r).bits := by
  obtain ⟨fills, -⟩ := rom_facts r
  omega

/-- Settles O5: the invariant and the ranges row by row, the payload's share by subtracting the 4 selector bits. -/
theorem romRowsFillTheWord : Obligations.RomRowsFillTheWord := by
  refine ⟨fun r => ?_, rfl⟩
  obtain ⟨fills, capPos, capLe, bitsPos, bitsLe⟩ := rom_facts r
  obtain ⟨fieldsLe, wasteEq⟩ := rom_payload r
  exact ⟨fills, fieldsLe, capPos, capLe, bitsPos, bitsLe, rom_waste_le r, wasteEq⟩

end Sys2Proof.Machine
end

section
/-! The loop of the decoders (spec/43_generic_decoder.md R195, spec/44_unrolled_decoder.md R227) as a function: how
many fields each decoder takes from a Word, what one round and the end of the loop are, and that the loop gives back
the Values of the Words that ENCODE packed. -/

namespace Sys2Proof.Machine

open Sys2Proof.Safety

/-! ### One round of the loop -/

/-- How many fields of a Word of row `r` a decoder writes with `ocnt` items done: a tree all of them (R212), the
generic extractor no more than are missing (R193). -/
def wordCount (fast : Bool) (n ocnt : Nat) (r : Fin 9) : Nat :=
  if fast then (rom r).cap else min (rom r).cap (n - ocnt)

theorem wordCount_pos {fast : Bool} {n ocnt : Nat} {r : Fin 9} (missing : ocnt < n) : 1 ≤ wordCount fast n ocnt r := by
  have cap := (rom_facts r).2.1
  cases fast <;> simp only [wordCount, if_true, Bool.false_eq_true, if_false] <;> omega

/-- A Word overruns `N` under DECODE_FAST only, and there by less than a full row (R211, R223). -/
theorem wordCount_le_need {fast : Bool} {n ocnt : Nat} {r : Fin 9} (missing : ocnt < n) :
    ocnt + wordCount fast n ocnt r ≤ n + if fast then Config.overrunPad else 0 := by
  have cap := (rom_facts r).2.2.1
  cases fast <;> simp only [wordCount, Config.overrunPad, if_true, Bool.false_eq_true, if_false] <;> omega

theorem decodeBody_complete {fast : Bool} {n fuel nbytes : Nat} {slots : List Slot} {src : List Byte}
    (complete : n ≤ slots.length) : decodeBody fast n fuel slots nbytes src = .finished slots n nbytes src := by
  cases fuel <;> simp [decodeBody, complete]

/-- A round on a Word of a legal selector: both decoders write its first fields, `wordCount` of them. -/
theorem decodeBody_word {fast : Bool} {n fuel nbytes : Nat} {slots : List Slot} {src : List Byte} {r : Fin 9}
    (missing : slots.length < n) (enough : 4 ≤ src.length)
    (selector : (selectorOf (wordOfBytes (src.take 4))).toNat = r.val) :
    decodeBody fast n (fuel + 1) slots nbytes src =
      decodeBody fast n fuel
        (slots ++ fieldSlots (wordOfBytes (src.take 4)) (rom r).bits (wordCount fast n slots.length r)) (nbytes + 4)
        (src.drop 4) := by
  have legal : (selectorOf (wordOfBytes (src.take 4))).toNat < 9 := selector ▸ r.isLt
  have row : (⟨_, legal⟩ : Fin 9) = r := Fin.ext selector
  rw [decodeBody, if_neg missing.not_ge, if_neg enough.not_gt]
  simp only [dif_pos legal, row]
  cases fast
  · simp only [Bool.false_eq_true, if_false, genericItems_eq, wordCount]
  · simp only [if_true, treeItems_eq, wordCount]

/-- The same round on the four bytes of a Word. -/
theorem decodeBody_le32 {fast : Bool} {n fuel nbytes : Nat} {slots : List Slot} {w : Word} {r : Fin 9}
    (src : List Byte) (missing : slots.length < n) (selector : (selectorOf w).toNat = r.val) :
    decodeBody fast n (fuel + 1) slots nbytes (le32 w ++ src) =
      decodeBody fast n fuel (slots ++ fieldSlots w (rom r).bits (wordCount fast n slots.length r)) (nbytes + 4)
        src := by
  have word : wordOfBytes ((le32 w ++ src).take 4) = w := wordOfBytes_le32 w
  rw [decodeBody_word missing (by simp) (word.symm ▸ selector), word]
  rfl

/-- A loop that ends well with items missing has met a whole Word of a legal selector. -/
theorem decodeBody_finished_word {fast : Bool} {n fuel nbytes n' nbytes' : Nat} {slots slots' : List Slot}
    {src rest : List Byte} (missing : slots.length < n)
    (finished : decodeBody fast n (fuel + 1) slots nbytes src = .finished slots' n' nbytes' rest) :
    4 ≤ src.length ∧ ∃ r : Fin 9, (selectorOf (wordOfBytes (src.take 4))).toNat = r.val := by
  rw [decodeBody, if_neg missing.not_ge] at finished
  split at finished
  case isTrue => cases finished
  case isFalse enough =>
    refine ⟨Nat.not_lt.1 enough, ?_⟩
    by_cases legal : (selectorOf (wordOfBytes (src.take 4))).toNat < 9
    · exact ⟨⟨_, legal⟩, rfl⟩
    · simp only [dif_neg legal] at finished
      cases finished

/-! ### The Words of a Sequence -/

theorem vinAt_of_lt {v : List Slot} {i : Nat} (h : i < v.length) : v[i]? = some (vinAt v i) := by
  simp [vinAt, h]

theorem valuesLegal_of_forall {v : List Slot} (legal : ∀ x ∈ v, x.toNat ≤ 268435455) : ValuesLegal v v.length := by
  intro i hi
  rw [vinAt, List.getElem?_eq_getElem hi]
  exact legal _ (List.getElem_mem hi)

theorem encodeBody_complete {v : Nat → Slot} {n fuel idx : Nat} (complete : n ≤ idx) :
    encodeBody v n fuel idx = [] := by
  cases fuel <;> simp [encodeBody, complete.not_gt]

theorem encodeBody_word {v : Nat → Slot} {n fuel idx k : Nat} {r : Fin 9} (missing : idx < n)
    (selected : selectRow v n idx = some (r, k)) :
    encodeBody v n (fuel + 1) idx = le32 (packWord v r k idx) ++ encodeBody v n fuel (idx + k) := by
  simp only [encodeBody, if_pos missing, selected]

/-- SELECT takes a full row or the whole remainder (R164), so a decoder takes the Values packed, and more only at the
end of the Sequence. -/
theorem wordCount_of_selectRow {fast : Bool} {v : Nat → Slot} {n idx k : Nat} {r : Fin 9} (missing : idx < n)
    (selected : selectRow v n idx = some (r, k)) :
    k ≤ wordCount fast n idx r ∧ (wordCount fast n idx r = k ∨ idx + k = n) := by
  obtain ⟨-, cap, within, -⟩ := selectRow_bounds missing selected
  obtain ⟨accepted, rfl, -⟩ := selectRow_some selected
  have full := (accepts_iff v n r idx).1 accepted
  cases fast <;> simp only [wordCount, if_true, Bool.false_eq_true, if_false] <;> omega

/-- The loop on the Words from cursor `idx` on, with the Values before it written: it consumes exactly these Words and
completes the Sequence. Past the end DECODE_FAST may have written more than the cursor counts. -/
theorem decodeBody_encodeBody {fast : Bool} {v : List Slot} (legal : ValuesLegal v v.length) (rest : List Byte)
    {fuel idx nbytes : Nat} {slots : List Slot} (enough : v.length ≤ idx + fuel)
    (count : slots.length = idx ∨ idx = v.length ∧ v.length ≤ slots.length)
    (written : ∀ i, i < idx → slots[i]? = v[i]?) :
    ∃ slots', decodeBody fast v.length fuel slots nbytes (encodeBody (vinAt v) v.length fuel idx ++ rest) =
        .finished slots' v.length (nbytes + (encodeBody (vinAt v) v.length fuel idx).length) rest ∧
      v.length ≤ slots'.length ∧ ∀ i, i < v.length → slots'[i]? = v[i]? := by
  induction fuel generalizing idx nbytes slots with
  | zero =>
    have complete : v.length ≤ slots.length := by omega
    exact ⟨slots, decodeBody_complete complete, complete, fun i hi => written i (by omega)⟩
  | succ fuel ih =>
    by_cases missing : idx < v.length
    · obtain rfl : slots.length = idx := by omega
      obtain ⟨r, k, selected⟩ := selectRow_isSome missing (legal _ missing)
      obtain ⟨pos, cap, within, fit⟩ := selectRow_bounds missing selected
      obtain ⟨taken, last⟩ := wordCount_of_selectRow (fast := fast) missing selected
      have selector : (selectorOf (packWord (vinAt v) r k slots.length)).toNat = r.val := by
        rw [selectorOf_toNat, packWord_selector _ _ _ _ cap fit]
      rw [encodeBody_word missing selected, List.append_assoc, List.length_append, le32_length, ← Nat.add_assoc,
        decodeBody_le32 _ missing selector]
      refine ih (by omega) (by rw [List.length_append, fieldSlots_length]; omega) fun i hi => ?_
      rcases Nat.lt_or_ge i slots.length with old | new
      · rw [List.getElem?_append_left old, written i old]
      · rw [List.getElem?_append_right new, fieldSlots_get _ _ (by omega), packWord_field _ _ _ _ cap fit _ (by omega),
          BitVec.ofNat_toNat, BitVec.setWidth_eq, Nat.add_sub_cancel' new, ← vinAt_of_lt (by omega)]
    · have complete : v.length ≤ slots.length := by omega
      rw [encodeBody_complete (by omega)]
      exact ⟨slots, decodeBody_complete complete, complete, fun i hi => written i (by omega)⟩

/-- R200, R226 on byte lists: either decoder gives back the Sequence whose Stream it reads. -/
theorem decodeStream_encodeStream {p : Config.Params} {fast : Bool} {v : List Slot} (rest : List Byte)
    (legal : p.Legal) (width : v.length < 2 ^ p.lenBits) (values : ∀ x ∈ v, x.toNat ≤ 268435455)
    (room : v.length + (if fast then Config.overrunPad else 0) ≤ p.outSlots) :
    ∃ slots, decodeStream p fast (encodeStream v ++ rest) = .finished slots v.length (encodeStream v).length rest ∧
      v.length ≤ slots.length ∧ ∀ i, i < v.length → slots[i]? = v[i]? := by
  rw [encodeStream, List.append_assoc, decodeStream, vbDecode_vbEncode _ legal width, List.length_append]
  simp only [if_neg room.not_gt]
  exact decodeBody_encodeBody (valuesLegal_of_forall values) rest (by omega) (.inl rfl) (by simp)

end Sys2Proof.Machine
end

section
/-! Runs of the machine in the environment a decode needs (spec/45_commands_and_sequencer.md R259): an outside that does
nothing more, and a source that gives every byte it has. -/

namespace Sys2Proof.Machine

open Sys2Proof.Safety

/-- Some number of steps leads from the one state to the other. -/
abbrev Reaches : State → State → Prop := Relation.ReflTransGen fun s t => step s = .next t

theorem run_succ_of_next {M : Host.Core} {s t : M.State} (first : M.step s = .next t) (k : Nat) :
    M.run (k + 1) s = M.run k t := by
  simp only [Host.Core.run, first]

theorem exists_runFor_of_reaches {s t : State} (run : Reaches s t) : ∃ k, runFor k s = .next t := by
  induction run using Relation.ReflTransGen.head_induction_on with
  | refl => exact ⟨0, rfl⟩
  | head first _ ih =>
    obtain ⟨k, ih⟩ := ih
    exact ⟨k + 1, (run_succ_of_next (M := Sys2Proof.core) first k).trans ih⟩

theorem step_of_no_events {s : State} (quiet : s.events = []) : step s = runFetched (fetchSequencer s) :=
  step_turn (by rw [sequencerTurn, quiet])

/-- These verdicts let every read of these bytes succeed: all are good and there is one for each byte, and one more. -/
structure Delivers (ans : List Answer) (src : List Byte) : Prop where
  good : ∀ a ∈ ans, a.ok = true
  enough : src.length < ans.length

theorem Delivers.eq_cons {ans : List Answer} {src : List Byte} (h : Delivers ans src) :
    ∃ a ans', ans = a :: ans' ∧ a.ok = true ∧
      ∀ m, 1 ≤ m → m ≤ src.length → Delivers ans' (src.drop m) := by
  cases ans with
  | nil => exact absurd h.enough (Nat.not_lt_zero _)
  | cons a ans' =>
    refine ⟨a, ans', rfl, h.good a List.mem_cons_self, fun m one within => ?_⟩
    refine ⟨fun b hb => h.good b (List.mem_cons_of_mem a hb), ?_⟩
    have enough := h.enough
    rw [List.length_cons] at enough
    rw [List.length_drop]
    omega

end Sys2Proof.Machine
end

section
/-! The header of a decode (spec/45_commands_and_sequencer.md R252): the meaning of a header byte, and D_HDR byte by
byte as VB_DEC on a byte list goes. -/

namespace Sys2Proof.Machine

/-- D_HDR runs the byte that the source delivers, counted in NBYTES (R252). -/
theorem step_dHdr {s : State} {a : Answer} {ans : List Answer} {b : Byte} {src : List Byte} (quiet : s.events = [])
    (hdr : s.st = .dHdr) (answers : s.sourceAns = a :: ans) (good : a.ok = true) (source : s.source = b :: src)
    (counted : s.nbytes + 1 < 2 ^ (s.params.lenBits + 3)) :
    step s = exec (decodeByte b) { s with source := src, sourceAns := ans, nbytes := s.nbytes + 1 } := by
  have read := sourceRead_ok answers good (n := 1) (by simp [source])
  rw [step_of_no_events quiet, fetchSequencer_dHdr hdr, fetchHeader, read, source, State.nbytesReg,
    lowBits_of_lt counted]
  rfl

/-- VB_CONT that is not the last byte the width allows. -/
theorem exec_vbCont_more {s : State} {i : Nat} {g : BitVec 7} {v : Nat} (hdr : s.st = .dHdr) (index : s.hidx.toNat = i)
    (group : headerGroup s.params i s.hreg g = some v) (below : v < 2 ^ s.params.lenBits)
    (more : i + 1 ≠ maxHdrBytes s.params) :
    exec (.vbCont g) s = .next { s with hreg := v, hidx := s.hidx + 1, st := .dHdr } := by
  subst index
  show execVbCont g s = _
  simp only [execVbCont, if_pos hdr, group, if_neg more, State.lenReg_of_lt below]

theorem exec_vbLast_allocates {s : State} {i : Nat} {g : BitVec 7} {v : Nat} (hdr : s.st = .dHdr)
    (index : s.hidx.toNat = i) (group : headerGroup s.params i s.hreg g = some v) (below : v < 2 ^ s.params.lenBits) :
    exec (.vbLast g) s = .next ({ s with hreg := v, hidx := s.hidx + 1, n := v } : State).allocate := by
  subst index
  show execVbLast g s = _
  simp only [execVbLast, if_pos hdr, group, State.lenReg_of_lt below]

theorem State.allocate_of_room {s : State} (room : s.need ≤ s.params.outSlots) :
    s.allocate = { s with st := if s.n = 0 then .done else .dWord } := by
  rw [State.allocate, if_neg room.not_gt]
  split <;> rfl

/-! ### VB_DEC on a byte list -/

theorem maxHdrBytes_le {p : Config.Params} (legal : p.Legal) : maxHdrBytes p ≤ 10 := by
  obtain ⟨-, maxBits, -⟩ := legal
  rw [maxHdrBytes]
  omega

theorem headerGroup_lt {p : Config.Params} {i value v : Nat} {g : BitVec 7} (below : value < 2 ^ p.lenBits)
    (group : headerGroup p i value g = some v) : v < 2 ^ p.lenBits := by
  rw [headerGroup] at group
  split at group
  case isTrue => cases group
  case isFalse fits =>
    cases group
    exact Nat.or_lt_two_pow below (Nat.not_le.1 fits)

/-- A header that is read has a first byte whose group fits; the header goes on or ends there. -/
theorem vbDecodeBytes_decoded_cases {p : Config.Params} {fuel i value n c : Nat} {src rest : List Byte}
    (decoded : vbDecodeBytes p (fuel + 1) i value src = .decoded n c rest) :
    ∃ b src' v, src = b :: src' ∧ headerGroup p i value (groupOf b) = some v ∧
      ((b.msb = true ∧ i + 1 ≠ maxHdrBytes p ∧ vbDecodeBytes p fuel (i + 1) v src' = .decoded n c rest) ∨
        (b.msb = false ∧ n = v ∧ c = i + 1 ∧ rest = src')) := by
  cases src with
  | nil => cases decoded
  | cons b src =>
    rw [vbDecodeBytes] at decoded
    cases group : headerGroup p i value (groupOf b) with
    | none => rw [group] at decoded; cases decoded
    | some v =>
      refine ⟨b, src, v, rfl, group, ?_⟩
      simp only [group] at decoded
      cases marker : b.msb with
      | true =>
        rw [if_pos marker] at decoded
        split at decoded
        case isTrue => cases decoded
        case isFalse more => exact .inl ⟨rfl, more, decoded⟩
      | false =>
        rw [if_neg (by simp [marker])] at decoded
        cases decoded
        exact .inr ⟨rfl, rfl, rfl, rfl⟩

/-- The value read fits its register, and no more bytes are read than are permitted. -/
theorem vbDecodeBytes_bounds {p : Config.Params} {fuel i value n c : Nat} {src rest : List Byte}
    (below : value < 2 ^ p.lenBits) (decoded : vbDecodeBytes p fuel i value src = .decoded n c rest) :
    n < 2 ^ p.lenBits ∧ c ≤ i + fuel := by
  induction fuel generalizing i value src with
  | zero => cases decoded
  | succ fuel ih =>
    obtain ⟨b, src', v, -, group, next⟩ := vbDecodeBytes_decoded_cases decoded
    have below' := headerGroup_lt below group
    rcases next with ⟨-, -, decoded⟩ | ⟨-, rfl, rfl, -⟩
    · obtain ⟨width, count⟩ := ih below' decoded
      exact ⟨width, by omega⟩
    · exact ⟨below', by omega⟩

/-! ### D_HDR as VB_DEC goes -/

/-- The decode `s` in D_HDR before byte `i`: the value so far is in HREG, `i` bytes are counted and `src` is to come. -/
def State.headerAt (s : State) (i value : Nat) (src : List Byte) (ans : List Answer) : State :=
  { s with st := .dHdr, hreg := value, hidx := BitVec.ofNat 4 i, nbytes := i, source := src, sourceAns := ans }

section
variable {s : State} {i value v : Nat} {b : Byte} {a : Answer} (src : List Byte) (ans : List Answer)

theorem headerAt_hidx (value : Nat) (legal : s.params.Legal) (within : i < maxHdrBytes s.params) :
    (s.headerAt i value src ans).hidx.toNat = i := by
  have maxBytes := maxHdrBytes_le legal
  exact Nat.mod_eq_of_lt (by omega)

theorem headerAt_hidx_succ : (s.headerAt i value src ans).hidx + 1 = (s.headerAt (i + 1) v src ans).hidx :=
  (BitVec.ofNat_add i 1).symm

variable (legal : s.params.Legal) (quiet : s.events = []) (within : i < maxHdrBytes s.params) (good : a.ok = true)
include legal quiet within good

/-- The coming byte is counted and run. -/
theorem step_headerAt (value : Nat) :
    step (s.headerAt i value (b :: src) (a :: ans)) =
      exec (decodeByte b) { s.headerAt i value src ans with nbytes := i + 1 } := by
  have maxBytes := maxHdrBytes_le legal
  have wide : 2 ^ 4 ≤ 2 ^ (s.params.lenBits + 3) := Nat.pow_le_pow_right (by omega) (by omega)
  have counted : i + 1 < 2 ^ (s.params.lenBits + 3) := by omega
  exact step_dHdr (s := s.headerAt i value (b :: src) (a :: ans)) quiet rfl rfl good rfl counted

theorem step_headerAt_cont (more : i + 1 ≠ maxHdrBytes s.params) (cont : b.msb = true)
    (below : value < 2 ^ s.params.lenBits) (group : headerGroup s.params i value (groupOf b) = some v) :
    step (s.headerAt i value (b :: src) (a :: ans)) = .next (s.headerAt (i + 1) v src ans) := by
  have index := headerAt_hidx src ans value legal within
  rw [step_headerAt src ans legal quiet within good, decodeByte, if_pos cont]
  refine (exec_vbCont_more (s := { s.headerAt i value src ans with nbytes := i + 1 }) rfl index group
    (headerGroup_lt below group) more).trans ?_
  rw [headerAt_hidx_succ (v := v)]
  rfl

theorem step_headerAt_last (last : b.msb = false) (below : value < 2 ^ s.params.lenBits)
    (group : headerGroup s.params i value (groupOf b) = some v) :
    step (s.headerAt i value (b :: src) (a :: ans)) =
      .next ({ s.headerAt (i + 1) v src ans with n := v } : State).allocate := by
  have index := headerAt_hidx src ans value legal within
  rw [step_headerAt src ans legal quiet within good, decodeByte, if_neg (by simp [last])]
  refine (exec_vbLast_allocates (s := { s.headerAt i value src ans with nbytes := i + 1 }) rfl index group
    (headerGroup_lt below group)).trans ?_
  rw [headerAt_hidx_succ (v := v)]
  rfl

end

/-- D_HDR reads the header that VB_DEC reads, leaves its value in N and goes to allocation (R125, R252). -/
theorem reaches_allocate {s : State} {fuel i value n c : Nat} {src rest : List Byte} {ans : List Answer}
    (legal : s.params.Legal) (quiet : s.events = []) (permitted : i + fuel = maxHdrBytes s.params)
    (below : value < 2 ^ s.params.lenBits) (delivers : Delivers ans src)
    (decoded : vbDecodeBytes s.params fuel i value src = .decoded n c rest) :
    ∃ ans', Delivers ans' rest ∧
      Reaches (s.headerAt i value src ans) ({ s.headerAt c n rest ans' with n := n } : State).allocate := by
  induction fuel generalizing i value src ans with
  | zero => cases decoded
  | succ fuel ih =>
    obtain ⟨b, src', v, rfl, group, next⟩ := vbDecodeBytes_decoded_cases decoded
    obtain ⟨a, ans, rfl, good, delivers⟩ := delivers.eq_cons
    have delivers : Delivers ans src' := delivers 1 le_rfl (by simp)
    rcases next with ⟨cont, more, decoded⟩ | ⟨last, rfl, rfl, rfl⟩
    · have first := step_headerAt_cont src' ans legal quiet (by omega) good more cont below group
      obtain ⟨ans', delivers, run⟩ := ih (by omega) (headerGroup_lt below group) delivers decoded
      exact ⟨ans', delivers, .head first run⟩
    · exact ⟨ans, delivers, .single (step_headerAt_last _ ans legal quiet (by omega) good last below group)⟩

end Sys2Proof.Machine
end

section
/-! The Words of a decode (spec/45_commands_and_sequencer.md R253, R254): D_WORD and D_EXT by turns, as the loop of the
decoder on a byte list goes, and with it the whole decode from its START on. -/

namespace Sys2Proof.Machine

open Sys2Proof.Safety

/-- Runs of writes that adjoin are one run. -/
theorem Memory.writeRun_append (m : Memory) (i : Nat) (xs ys : List Slot) :
    Memory.writeRun m i (xs ++ ys) = Memory.writeRun (Memory.writeRun m i xs) (i + xs.length) ys := by
  induction xs generalizing m i with
  | nil => rfl
  | cons x xs ih =>
    rw [List.cons_append, Memory.writeRun_cons, Memory.writeRun_cons, ih, List.length_cons, Nat.add_assoc,
      Nat.add_comm 1]

/-- D_WORD reads the Word that the source delivers, counted in NBYTES (R253). -/
theorem step_dWord {s : State} {a : Answer} {ans : List Answer} (quiet : s.events = []) (word : s.st = .dWord)
    (answers : s.sourceAns = a :: ans) (good : a.ok = true) (enough : 4 ≤ s.source.length)
    (counted : s.nbytes + 4 < 2 ^ (s.params.lenBits + 3)) :
    step s = .next { s with source := s.source.drop 4, sourceAns := ans, wreg := wordOfBytes (s.source.take 4),
                            nbytes := s.nbytes + 4, st := .dExt } := by
  rw [step_of_no_events quiet, fetchSequencer_dWord word, runFetched_settled, stepDWord,
    sourceRead_ok answers good enough, State.nbytesReg, lowBits_of_lt counted]

/-- D_EXT on a Word of a legal selector, under either decoder: the first `wordCount` fields go to VOUT (R254). -/
theorem step_dExt {s : State} {fast : Bool} {r : Fin 9} (quiet : s.events = []) (ext : s.st = .dExt)
    (op : s.op = if fast then 3 else 2) (selector : (selectorOf s.wreg).toNat = r.val)
    (room : s.ocnt + wordCount fast s.n s.ocnt r ≤ s.params.outSlots)
    (counted : s.ocnt + wordCount fast s.n s.ocnt r < 2 ^ (s.params.lenBits + 1)) :
    step s = .next ({ s with
      vout := Memory.writeRun s.vout s.ocnt (fieldSlots s.wreg (rom r).bits (wordCount fast s.n s.ocnt r))
      ocnt := s.ocnt + wordCount fast s.n s.ocnt r } : State).finishExt := by
  rw [step_of_no_events quiet, fetchSequencer_dExt ext, ← State.ocntReg_of_lt counted]
  rcases fetchWord_cases s with ⟨r', generic, row, run⟩ | ⟨r', unrolled, row, run⟩ | ⟨r', row, -⟩ | ⟨not2, not3, -⟩
  · obtain rfl : fast = false := by simpa [generic] using op
    obtain rfl : r' = r := Fin.ext (row.symm.trans selector)
    have items := genericItems_eq r' (s.takeCount (rom r')) s.wreg
    rw [run, genericExt_next _ ext generic (by rw [items, fieldSlots_length]; exact room), items, fieldSlots_length]
    rfl
  · obtain rfl : fast = true := by simpa [unrolled] using op
    obtain rfl : r' = r := Fin.ext (row.symm.trans selector)
    have items := treeItems_eq r' s.wreg
    rw [run, unrolledExt_next ext unrolled (by rw [items, fieldSlots_length]; exact room), items, fieldSlots_length]
    rfl
  · omega
  · cases fast
    · exact absurd op not2
    · exact absurd op not3

/-- The decode `s` between two Words, or at its end: `slots` are written, `nbytes` bytes are counted, `src` is to
come. -/
def State.bodyAt (s : State) (slots : List Slot) (nbytes : Nat) (src : List Byte) (ans : List Answer) (w : Word) :
    State :=
  { s with st := if s.n ≤ slots.length then .done else .dWord, vout := Memory.writeRun s.vout 0 slots,
           ocnt := slots.length, nbytes := nbytes, source := src, sourceAns := ans, wreg := w }

/-- OCNT's extra bit holds the overrun (R27). -/
theorem ocnt_counted {p : Config.Params} {fast : Bool} {n ocnt : Nat}
    (pad : ocnt ≤ n + if fast then Config.overrunPad else 0) (legal : p.Legal) (width : n < 2 ^ p.lenBits) :
    ocnt < 2 ^ (p.lenBits + 1) := by
  obtain ⟨minBits, -, -⟩ := legal
  have wide : 2 ^ 8 ≤ 2 ^ p.lenBits := Nat.pow_le_pow_right (by omega) minBits
  rw [Nat.pow_succ]
  cases fast <;> simp only [Config.overrunPad, if_true, Bool.false_eq_true, if_false] at pad <;> omega

/-- What holds of a decode from its allocation on: N has room in VOUT, and the outside does nothing more. -/
structure Allocated (s : State) (fast : Bool) : Prop where
  legal : s.params.Legal
  quiet : s.events = []
  op : s.op = if fast then 3 else 2
  width : s.n < 2 ^ s.params.lenBits
  room : s.n + (if fast then Config.overrunPad else 0) ≤ s.params.outSlots

/-- One Word: D_WORD, then D_EXT. -/
theorem reaches_bodyAt_word {s : State} {fast : Bool} {r : Fin 9} {slots : List Slot} {nbytes : Nat} {src : List Byte}
    {a : Answer} (ans : List Answer) (w : Word) (allocated : Allocated s fast) (good : a.ok = true)
    (missing : slots.length < s.n) (enough : 4 ≤ src.length) (counted : nbytes + 4 < 2 ^ (s.params.lenBits + 3))
    (selector : (selectorOf (wordOfBytes (src.take 4))).toNat = r.val) :
    Reaches (s.bodyAt slots nbytes src (a :: ans) w) (s.bodyAt
      (slots ++ fieldSlots (wordOfBytes (src.take 4)) (rom r).bits (wordCount fast s.n slots.length r)) (nbytes + 4)
      (src.drop 4) ans (wordOfBytes (src.take 4))) := by
  obtain ⟨legal, quiet, op, width, room⟩ := allocated
  have pad := wordCount_le_need (fast := fast) (r := r) missing
  have fits := ocnt_counted pad legal width
  have read := step_dWord (s := s.bodyAt slots nbytes src (a :: ans) w) quiet (if_neg missing.not_ge) rfl good enough
    counted
  have write := step_dExt
    (s := { s.bodyAt slots (nbytes + 4) (src.drop 4) ans (wordOfBytes (src.take 4)) with st := .dExt })
    quiet rfl op selector (pad.trans room) fits
  refine .head read (.single (write.trans ?_))
  simp only [State.bodyAt, State.finishExt, Memory.writeRun_append, List.length_append, fieldSlots_length,
    Nat.zero_add]
  rfl

/-- The steps from one Word to the next follow the rounds of the decoder's loop, as long as NBYTES holds the bytes of
all its rounds. -/
theorem reaches_of_decodeBody {s : State} {fast : Bool} {fuel : Nat} {slots out : List Slot} {nbytes n total : Nat}
    {src rest : List Byte} {ans : List Answer} (w : Word) (allocated : Allocated s fast) (delivers : Delivers ans src)
    (counted : nbytes + 4 * fuel < 2 ^ (s.params.lenBits + 3))
    (finished : decodeBody fast s.n fuel slots nbytes src = .finished out n total rest) :
    n = s.n ∧ ∃ ans' w', Reaches (s.bodyAt slots nbytes src ans w) (s.bodyAt out total rest ans' w') := by
  induction fuel generalizing slots nbytes src ans w with
  | zero =>
    cases finished
    exact ⟨rfl, ans, w, .refl⟩
  | succ fuel ih =>
    by_cases missing : slots.length < s.n
    · obtain ⟨enough, r, selector⟩ := decodeBody_finished_word missing finished
      obtain ⟨a, ans, rfl, good, delivers⟩ := delivers.eq_cons
      rw [decodeBody_word missing enough selector] at finished
      obtain ⟨length, ans', w', run⟩ := ih (wordOfBytes (src.take 4)) (delivers 4 (by omega) enough)
        (by omega) finished
      have next : nbytes + 4 < 2 ^ (s.params.lenBits + 3) := by omega
      have word := reaches_bodyAt_word ans w allocated good missing enough next selector
      exact ⟨length, ans', w', word.trans run⟩
    · rw [decodeBody_complete (Nat.le_of_not_lt missing)] at finished
      cases finished
      exact ⟨rfl, ans, w, .refl⟩

/-! ### The whole decode -/

/-- What START in `s` leaves for the whole run of a decode, and what its header adds. -/
def State.opened (s : State) (op : BitVec 2) (n : Nat) (hidx : BitVec 4) : State :=
  { s.startRegs op n n with events := [], hidx := hidx }

/-- An accepted START of either decoder opens the header (R248). -/
theorem step_startDecode {s : State} {fast : Bool} {len : Nat} (ready : s.st = .idle ∨ s.st = .done)
    (command : s.events = [.command (if fast then 3 else 2) len]) :
    step s = .next ((s.opened (if fast then 3 else 2) 0 0).headerAt 0 0 s.source s.sourceAns) := by
  have accepted : ({ s with events := [] } : State).accepts = true := by simpa [State.accepts] using ready
  rw [step_command command]
  cases fast <;> exact congrArg _ (if_pos accepted)

theorem State.need_of_op {s : State} {fast : Bool} (op : s.op = if fast then 3 else 2) :
    s.need = s.n + if fast then Config.overrunPad else 0 := by
  rw [State.need, op]
  cases fast <;> rfl

/-- Allocation begins the loop with no slot written, or is the end of an empty Sequence (R252). -/
theorem allocate_eq_bodyAt {s : State} (room : s.need ≤ s.params.outSlots) (fresh : s.ocnt = 0) :
    s.allocate = s.bodyAt [] s.nbytes s.source s.sourceAns s.wreg := by
  have count : s.ocnt = ([] : List Slot).length := fresh
  have ends : (if s.n = 0 then SeqState.done else .dWord) =
      if s.n ≤ ([] : List Slot).length then .done else .dWord := by simp
  rw [State.allocate_of_room room, State.bodyAt, ← ends, ← count, Memory.writeRun_nil]

/-- NBYTES holds a header and a Word for each item (R28). -/
theorem nbytes_counted {p : Config.Params} {n c : Nat} (legal : p.Legal) (width : n < 2 ^ p.lenBits)
    (short : c ≤ maxHdrBytes p) : c + 4 * n < 2 ^ (p.lenBits + 3) := by
  have maxBytes := maxHdrBytes_le legal
  obtain ⟨minBits, -, -⟩ := legal
  have wide : 2 ^ 8 ≤ 2 ^ p.lenBits := Nat.pow_le_pow_right (by omega) minBits
  rw [Nat.pow_add]
  omega

/-- From START to the first Word, or to the end of an empty Sequence, as VB_DEC and the room in VOUT say. -/
theorem reaches_bodyAt_nil {s : State} {fast : Bool} {len n c : Nat} {words : List Byte} (legal : s.params.Legal)
    (ready : s.st = .idle ∨ s.st = .done) (command : s.events = [.command (if fast then 3 else 2) len])
    (delivers : Delivers s.sourceAns s.source) (header : vbDecode s.params s.source = .decoded n c words)
    (room : n + (if fast then Config.overrunPad else 0) ≤ s.params.outSlots) :
    ∃ ans, Delivers ans words ∧
      Reaches s ((s.opened (if fast then 3 else 2) n (BitVec.ofNat 4 c)).bodyAt [] c words ans 0) := by
  obtain ⟨ans, delivers, read⟩ := reaches_allocate (s := s.opened (if fast then 3 else 2) 0 0) legal rfl
    (Nat.zero_add _) (Nat.two_pow_pos _) delivers header
  refine ⟨ans, delivers, .head (step_startDecode ready command) ?_⟩
  have allocated := allocate_eq_bodyAt
    (s := { (s.opened (if fast then 3 else 2) 0 0).headerAt c n words ans with n := n })
    (by rw [State.need_of_op (fast := fast) rfl]; exact room) rfl
  rw [allocated] at read
  exact read

/-- The steps of a decode follow the whole-operation function to a good end (R259). -/
theorem reaches_of_decodeStream {s : State} {fast : Bool} {len n total : Nat} {out : List Slot} {rest : List Byte}
    (legal : s.params.Legal) (ready : s.st = .idle ∨ s.st = .done)
    (command : s.events = [.command (if fast then 3 else 2) len]) (delivers : Delivers s.sourceAns s.source)
    (finished : decodeStream s.params fast s.source = .finished out n total rest) :
    ∃ hidx ans w, Reaches s ((s.opened (if fast then 3 else 2) n hidx).bodyAt out total rest ans w) := by
  rw [decodeStream] at finished
  cases header : vbDecode s.params s.source with
  | faulted code info => rw [header] at finished; cases finished
  | decoded m c words =>
    simp only [header] at finished
    by_cases tooLong : s.params.outSlots < m + if fast then Config.overrunPad else 0
    · rw [if_pos tooLong] at finished
      cases finished
    · rw [if_neg tooLong] at finished
      have room := Nat.not_lt.1 tooLong
      obtain ⟨width, short⟩ := vbDecodeBytes_bounds (Nat.two_pow_pos _) header
      rw [Nat.zero_add] at short
      have allocated : Allocated (s.opened (if fast then 3 else 2) m (BitVec.ofNat 4 c)) fast :=
        ⟨legal, rfl, rfl, width, room⟩
      obtain ⟨ans, delivers, start⟩ := reaches_bodyAt_nil legal ready command delivers header room
      obtain ⟨rfl, ans', w, words⟩ :=
        reaches_of_decodeBody 0 allocated delivers (nbytes_counted legal width short) finished
      exact ⟨_, ans', w, start.trans words⟩

end Sys2Proof.Machine
end

section
/-! The round trip on the machine (spec/43_generic_decoder.md R200, spec/44_unrolled_decoder.md R226): a decode of a
Stream goes as the function on byte lists, which gives the Sequence back, and its end is a result for the caller. -/

namespace Sys2Proof.Machine

open Sys2Proof.Safety

/-- A decode whose loop has written all its items is in DONE, and its slots below N are its result. -/
theorem bodyAt_complete {s : State} {fast : Bool} {slots : List Slot} (nbytes : Nat) (src : List Byte)
    (ans : List Answer) (w : Word) (op : s.op = if fast then 3 else 2) (complete : s.n ≤ slots.length) :
    (s.bodyAt slots nbytes src ans w).st = .done ∧
      ∀ i, i < s.n → (s.bodyAt slots nbytes src ans w).resultSlot i = slots[i]? := by
  have done : (s.bodyAt slots nbytes src ans w).st = .done := if_pos complete
  refine ⟨done, fun i hi => ?_⟩
  have decode : (s.bodyAt slots nbytes src ans w).op = 2 ∨ (s.bodyAt slots nbytes src ans w).op = 3 := by
    cases fast
    · exact .inl op
    · exact .inr op
  have length : (s.bodyAt slots nbytes src ans w).resN = s.n := rfl
  have slot : Memory.read (s.bodyAt slots nbytes src ans w).vout i = slots[i]? := by
    rw [State.bodyAt, Memory.read_writeRun, if_pos (by omega), Nat.sub_zero]
  rw [List.getElem?_eq_getElem (by omega)] at slot ⊢
  rw [State.resultSlot, if_pos (by simpa [done, length, hi] using decode), State.voutAt, slot, Option.getD_some]

/-- Settles O60: the function on byte lists gives the Sequence back, and the steps follow it to DONE. -/
theorem machineDecodesWhatItEncoded : Obligations.MachineDecodesWhatItEncoded := by
  intro s fast len v rest legal ready _ width values room source command good enough
  obtain ⟨slots, decoded, complete, written⟩ := decodeStream_encodeStream rest legal width values room
  rw [← source] at decoded
  obtain ⟨hidx, ans, w, run⟩ := reaches_of_decodeStream legal ready command ⟨good, enough⟩ decoded
  obtain ⟨k, steps⟩ := exists_runFor_of_reaches run
  obtain ⟨done, result⟩ :=
    bodyAt_complete (s := s.opened (if fast then 3 else 2) v.length hidx) _ rest ans w rfl complete
  exact ⟨k, _, steps, done, rfl, rfl, rfl, fun i hi => (result i hi).trans (written i hi)⟩

end Sys2Proof.Machine
end

section
/-! The commands (spec/45_commands_and_sequencer.md R244 to R248): NOP, and what a START accepted in IDLE or DONE does. -/

namespace Sys2Proof.Machine

theorem State.accepts_iff (s : State) : s.accepts = true ↔ s.st = .idle ∨ s.st = .done := by
  simp [State.accepts]

/-! ### NOP -/

@[simp] theorem exec_nop (s : State) : exec .nop s = .next s := rfl

@[simp] theorem decodeCmd_zero (len : Nat) : decodeCmd 0 len = .nop := rfl

/-- Settles O11: NOP's meaning is no change, and `cmd_op` 0 is NOP whatever length stands beside it. -/
theorem nopChangesNothing : Obligations.NopChangesNothing := by
  refine fun s => ⟨exec_nop s, fun len es command => ?_⟩
  rw [step_command command, decodeCmd_zero, exec_nop]

/-! ### START DECODE and START DECODE_FAST -/

theorem exec_decode (s : State) : exec .decode s = .next (s.startDecode 2) := rfl

theorem exec_decodeFast (s : State) : exec .decodeFast s = .next (s.startDecode 3) := rfl

theorem State.startDecode_of_ready {s : State} (op : BitVec 2) (ready : s.st = .idle ∨ s.st = .done) :
    s.startDecode op = { s.startRegs op 0 0 with st := .dHdr } :=
  if_pos (s.accepts_iff.2 ready)

/-- Settles O13: both decoders have one START, which an accepting state takes. -/
theorem startDecodeBeginsTheHeader : Obligations.StartDecodeBeginsTheHeader := by
  intro s ready
  rw [exec_decode, exec_decodeFast, State.startDecode_of_ready 2 ready, State.startDecode_of_ready 3 ready]
  exact ⟨rfl, rfl⟩

/-! ### The scan for a Value that is too large -/

/-- The scan meets no Value when all are within the bound (R161). -/
theorem firstTooLarge_eq_none {vin : List Slot} {len : Nat} :
    firstTooLarge vin len = none ↔ ∀ i, i < len → (vinAt vin i).toNat ≤ Config.maxValue := by
  simp [firstTooLarge]

/-- The scan answers the least index of a Value above the bound (R273). -/
theorem firstTooLarge_eq_some {vin : List Slot} {len i : Nat} :
    firstTooLarge vin len = some i ↔
      i < len ∧ Config.maxValue < (vinAt vin i).toNat ∧ ∀ j, j < i → (vinAt vin j).toNat ≤ Config.maxValue := by
  simp [firstTooLarge, List.find?_range_eq_some, and_left_comm]

/-! ### START ENCODE -/

/-- Fault entry with a detail that FINFO holds in full (R285). -/
theorem State.raise_of_lt {s : State} {info : Nat} (code : BitVec 4) (held : info < 2 ^ s.params.lenBits) :
    s.raise code info = { s with fcode := code, finfo := info, st := .fault } := by
  rw [State.raise, State.lenReg_of_lt held]

section Accepted

variable {s : State} {len n : Nat} (ready : s.st = .idle ∨ s.st = .done)
include ready

/-- PV_EMPTY, before any Value is looked at (R272, R283). -/
theorem exec_encode_empty (length : s.lenReg len = n) (empty : n = 0) :
    exec (.encode len) s = .next ((s.startRegs 1 n n).raise pvEmpty 0) := by
  simp only [exec, execEncode, s.accepts_iff.2 ready, if_true, length, State.startRegs_n, if_pos empty]

/-- PV_VALUE, with the Value that the scan met (R273). -/
theorem exec_encode_tooLarge {i : Nat} (length : s.lenReg len = n) (met : firstTooLarge s.vin n = some i) :
    exec (.encode len) s = .next ((s.startRegs 1 n n).raise pvValue i) := by
  have nonempty : n ≠ 0 := Nat.ne_zero_of_lt (firstTooLarge_eq_some.1 met).1
  simp only [exec, execEncode, s.accepts_iff.2 ready, if_true, length, State.startRegs_n, State.startRegs_vin,
    if_neg nonempty, met]

/-- A Sequence that passes both checks: the header is next (R247). -/
theorem exec_encode_begins (length : s.lenReg len = n) (nonempty : n ≠ 0) (legal : firstTooLarge s.vin n = none) :
    exec (.encode len) s = .next { s.startRegs 1 n n with st := .eHdr } := by
  simp only [exec, execEncode, s.accepts_iff.2 ready, if_true, length, State.startRegs_n, State.startRegs_vin,
    if_neg nonempty, legal]

end Accepted

/-- Settles O12: the length's check comes first, and then the scan's two answers are the other two ends; the least index
is below the length, so FINFO holds it. -/
theorem startEncodeChecksThenBegins : Obligations.StartEncodeChecksThenBegins := by
  intro s len ready m t
  have length : s.lenReg len = m := rfl
  refine ⟨fun positive legal => ?begins, fun empty => ?empty, fun i within tooLarge least => ?tooLarge⟩
  case begins => exact exec_encode_begins ready length positive.ne' (firstTooLarge_eq_none.2 legal)
  case empty =>
    rw [exec_encode_empty ready length empty, State.raise_of_lt pvEmpty (Nat.two_pow_pos _)]
    rfl
  case tooLarge =>
    have held : i < 2 ^ (s.startRegs 1 m m).params.lenBits := within.trans (s.lenReg_lt len)
    rw [exec_encode_tooLarge ready length (firstTooLarge_eq_some.2 ⟨within, tooLarge, least⟩),
      State.raise_of_lt pvValue held]
    rfl

end Sys2Proof.Machine
end

section
/-! The faults of a decode (spec/60_exceptions.md R274, R275, R278): the header's last byte, which raises PV_HEADER or
ALLOC or completes N, and the Words of selector 9 to 15, which raise PV_SELECTOR. -/

namespace Sys2Proof.Machine

/-- FINFO holds a detail of four bits, a header byte's index or a selector, at every legal width (R8). -/
theorem State.raise_of_lt_16 {s : State} {info : Nat} (code : BitVec 4) (legal : s.params.Legal) (small : info < 16) :
    s.raise code info = { s with fcode := code, finfo := info, st := .fault } := by
  obtain ⟨minBits, -, -⟩ := legal
  have wide : 2 ^ 4 ≤ 2 ^ s.params.lenBits := Nat.pow_le_pow_right (by omega) (by omega)
  exact State.raise_of_lt code (by omega)

/-! ### VB_LAST -/

/-- A group that fits at its place joins the value (R97, R122). -/
theorem headerGroup_eq_some {p : Config.Params} {i : Nat} {g : BitVec 7} (value : Nat)
    (fits : g.toNat * 2 ^ (7 * i) < 2 ^ p.lenBits) :
    headerGroup p i value g = some (value ||| g.toNat * 2 ^ (7 * i)) := by
  rw [headerGroup, Nat.shiftLeft_eq, if_neg fits.not_ge]

/-- A group that does not fit at its place (R123 (a)). -/
theorem headerGroup_eq_none {p : Config.Params} {i : Nat} {g : BitVec 7} (value : Nat)
    (exceeds : 2 ^ p.lenBits ≤ g.toNat * 2 ^ (7 * i)) : headerGroup p i value g = none := by
  rw [headerGroup, Nat.shiftLeft_eq, if_pos exceeds]

theorem exec_vbLast_raises {s : State} {g : BitVec 7} (hdr : s.st = .dHdr)
    (group : headerGroup s.params s.hidx.toNat s.hreg g = none) :
    exec (.vbLast g) s = .next (s.raise pvHeader s.hidx.toNat) := by
  show execVbLast g s = _
  simp only [execVbLast, if_pos hdr, group]

theorem State.allocate_of_pos {s : State} (room : s.need ≤ s.params.outSlots) (positive : 0 < s.n) :
    s.allocate = { s with st := .dWord } := by
  rw [State.allocate_of_room room, if_neg positive.ne']

theorem State.allocate_of_zero {s : State} (room : s.need ≤ s.params.outSlots) (zero : s.n = 0) :
    s.allocate = { s with st := .done } := by
  rw [State.allocate_of_room room, if_pos zero]

/-- ALLOC, with the length that VOUT has no room for (R278). -/
theorem State.allocate_of_no_room {s : State} (width : s.n < 2 ^ s.params.lenBits)
    (short : s.params.outSlots < s.need) : s.allocate = { s with fcode := 7, finfo := s.n, st := .fault } :=
  (if_pos short).trans (State.raise_of_lt allocFail width)

/-- Settles O18: the byte's group fits or it does not; one that fits completes N, and then the room in VOUT decides. -/
theorem lastByteSetsTheLengthAndAllocates : Obligations.LastByteSetsTheLengthAndAllocates := by
  intro s g legal hdr below p v need t
  have width (fits : p < 2 ^ s.params.lenBits) : v < 2 ^ s.params.lenBits :=
    headerGroup_lt below (headerGroup_eq_some s.hreg fits)
  have completes (fits : p < 2 ^ s.params.lenBits) : exec (.vbLast g) s = .next t.allocate :=
    exec_vbLast_allocates hdr rfl (headerGroup_eq_some s.hreg fits) (width fits)
  refine ⟨fun fits room positive => ?word, fun fits room zero => ?done, fun fits short => ?alloc,
    fun exceeds => ?header⟩
  case word => exact (completes fits).trans (congrArg _ (State.allocate_of_pos room positive))
  case done => exact (completes fits).trans (congrArg _ (State.allocate_of_zero room zero))
  case alloc => exact (completes fits).trans (congrArg _ (State.allocate_of_no_room (width fits) short))
  case header =>
    rw [exec_vbLast_raises hdr (headerGroup_eq_none s.hreg exceeds), State.raise_of_lt_16 pvHeader legal s.hidx.isLt]
    rfl

/-! ### The illegal selectors -/

theorem illegalExt_raises {s : State} {sel : Nat} (legal : s.params.Legal) (ext : s.st = .dExt) (small : sel < 16) :
    illegalExt sel s = .next { s with fcode := 3, finfo := sel, st := .fault } := by
  rw [illegalExt, if_pos ext, State.raise_of_lt_16 pvSelector legal small]
  rfl

/-- The fetch in D_EXT goes by the selector alone when it is above 8: OP has no part in it (R103, R254). -/
theorem fetchWord_illegal {s : State} (illegal : 9 ≤ (selectorOf s.wreg).toNat) :
    runFetched (fetchWord s) = illegalExt (selectorOf s.wreg).toNat s := by
  rcases fetchWord_cases s with ⟨r, -, row, -⟩ | ⟨r, -, row, -⟩ | ⟨r, row, run⟩ | ⟨-, -, legal, -⟩
  · omega
  · omega
  · rw [run, row]
  · omega

/-- Settles O34: the seven instructions are one step of D_EXT, and the sequencer's turn gets there by the selector. -/
theorem illegalSelectorRaisesPvSelector : Obligations.IllegalSelectorRaisesPvSelector := by
  refine ⟨fun r p s legal ext => ?_, fun s t legal turn ext illegal => ?_⟩
  · rw [exec_illegalInstr]
    exact illegalExt_raises legal ext (by omega)
  · obtain ⟨es, rfl⟩ := sequencerTurn_eq turn
    rw [← selectorOf_toNat] at illegal ⊢
    rw [step_turn turn, fetchSequencer_dExt ext, fetchWord_illegal illegal]
    exact illegalExt_raises legal ext (selectorOf _).isLt

end Sys2Proof.Machine
end

section
/-! A command that comes too early (spec/70_reset_and_hazards.md R320, spec/45_commands_and_sequencer.md R245): no START
has an effect outside IDLE and DONE, and NOP has none anywhere. -/

namespace Sys2Proof.Machine

/-- The four commands are all that the command port can present (R99). -/
theorem decodeCmd_cases (op : BitVec 2) (len : Nat) :
    decodeCmd op len = .nop ∨ decodeCmd op len = .encode len ∨ decodeCmd op len = .decode ∨
      decodeCmd op len = .decodeFast := by
  unfold decodeCmd
  split <;> simp

section Refused

variable {s : State} (notIdle : s.st ≠ .idle) (notDone : s.st ≠ .done)
include notIdle notDone

theorem State.not_accepts : ¬ s.accepts = true := fun accepts => (s.accepts_iff.1 accepts).elim notIdle notDone

theorem exec_encode_lost (len : Nat) : exec (.encode len) s = .next s :=
  if_neg (State.not_accepts notIdle notDone)

theorem State.startDecode_lost (op : BitVec 2) : s.startDecode op = s :=
  if_neg (State.not_accepts notIdle notDone)

/-- No command changes a state in which none is accepted (R245). -/
theorem exec_decodeCmd_lost (op : BitVec 2) (len : Nat) : exec (decodeCmd op len) s = .next s := by
  rcases decodeCmd_cases op len with nop | encode | decode | decodeFast
  · rw [nop, exec_nop]
  · rw [encode, exec_encode_lost notIdle notDone]
  · rw [decode, exec_decode, State.startDecode_lost notIdle notDone]
  · rw [decodeFast, exec_decodeFast, State.startDecode_lost notIdle notDone]

end Refused

/-- Settles O14: the step runs the command on the state without the event, where ST is still neither IDLE nor DONE. -/
theorem startIsLostWhileBusyOrFaulted : Obligations.StartIsLostWhileBusyOrFaulted := by
  intro s op len es notIdle notDone command
  rw [step_command command]
  exact exec_decodeCmd_lost (s := { s with events := es }) notIdle notDone op _

end Sys2Proof.Machine
end

section
/-! The encodings (spec/30_encoding.md R92 to R103): decoding undoes encoding for every instruction that has bits, and
no bit of a header byte or of a Word of a legal selector is dropped. -/

namespace Sys2Proof

open Sys2Proof.Safety

/-- The family of round trip laws, row by row of the opcode table. -/
theorem decode_encode : ∀ i : Instr, Laws.RoundTrip.Statement i
  | .nop => Laws.RoundTrip.nop
  | .encode len => Laws.RoundTrip.encode len
  | .decode => Laws.RoundTrip.decode
  | .decodeFast => Laws.RoundTrip.decodeFast
  | .vbCont g => Laws.RoundTrip.vbCont g
  | .vbLast g => Laws.RoundTrip.vbLast g
  | .w0 p => Laws.RoundTrip.w0 p
  | .w1 p => Laws.RoundTrip.w1 p
  | .w2 p => Laws.RoundTrip.w2 p
  | .w3 p => Laws.RoundTrip.w3 p
  | .w4 p => Laws.RoundTrip.w4 p
  | .w5 p => Laws.RoundTrip.w5 p
  | .w6 p => Laws.RoundTrip.w6 p
  | .w7 p => Laws.RoundTrip.w7 p
  | .w8 p => Laws.RoundTrip.w8 p
  | .xu0 p => Laws.RoundTrip.xu0 p
  | .xu1 p => Laws.RoundTrip.xu1 p
  | .xu2 p => Laws.RoundTrip.xu2 p
  | .xu3 p => Laws.RoundTrip.xu3 p
  | .xu4 p => Laws.RoundTrip.xu4 p
  | .xu5 p => Laws.RoundTrip.xu5 p
  | .xu6 p => Laws.RoundTrip.xu6 p
  | .xu7 p => Laws.RoundTrip.xu7 p
  | .xu8 p => Laws.RoundTrip.xu8 p
  | .sel9Illegal p => Laws.RoundTrip.sel9Illegal p
  | .sel10Illegal p => Laws.RoundTrip.sel10Illegal p
  | .sel11Illegal p => Laws.RoundTrip.sel11Illegal p
  | .sel12Illegal p => Laws.RoundTrip.sel12Illegal p
  | .sel13Illegal p => Laws.RoundTrip.sel13Illegal p
  | .sel14Illegal p => Laws.RoundTrip.sel14Illegal p
  | .sel15Illegal p => Laws.RoundTrip.sel15Illegal p
  | .vbEnc n => Laws.RoundTrip.vbEnc n
  | .vbDec => Laws.RoundTrip.vbDec
  | .selLookup a => Laws.RoundTrip.selLookup a
  | .fit x bits => Laws.RoundTrip.fit x bits
  | .run r idx => Laws.RoundTrip.run r idx
  | .accept r idx => Laws.RoundTrip.accept r idx
  | .select idx => Laws.RoundTrip.select idx
  | .pack r k idx => Laws.RoundTrip.pack r k idx
  | .extractG r p => Laws.RoundTrip.extractG r p

/-- Settles O1: the round trip holds row by row; it needs no bound on the operands. -/
theorem decodeOfEncodeIsTheInstruction : Obligations.DecodeOfEncodeIsTheInstruction :=
  fun _ i c _ encoded => decode_encode i c encoded

/-! ### No bit is dropped -/

/-- A header byte is its continuation marker and its group (R96). -/
theorem marker_append_groupOf (b : Byte) : BitVec.ofBool b.msb ++ groupOf b = b := by
  have split : BitVec.ofBool b.msb ++ groupOf b = (b.extractLsb' 7 1 ++ b.extractLsb' 0 7 : BitVec (1 + 7)) := by
    congr 1
    ext i hi
    obtain rfl : i = 0 := by omega
    simp [BitVec.msb_eq_getLsbD_last]
  rw [split, BitVec.extractLsb'_append_extractLsb'_eq_extractLsb' (by rfl)]
  exact BitVec.extractLsb'_eq_self

theorem encode_decodeByte (b : Byte) : encode (decodeByte b) = some (.vb b) := by
  have whole := marker_append_groupOf b
  cases marker : b.msb <;> rw [marker] at whole <;> rw [decodeByte, marker] <;>
    exact congrArg (fun c => some (Code.vb c)) whole

theorem encode_wInstr (r : Fin 9) (p : Payload) :
    encode (wInstr r p) = some (.word 2 (wordOf (BitVec.ofNat 4 r.val) p)) := by fin_cases r <;> rfl

theorem encode_xuInstr (r : Fin 9) (p : Payload) :
    encode (xuInstr r p) = some (.word 3 (wordOf (BitVec.ofNat 4 r.val) p)) := by fin_cases r <;> rfl

/-- Settles O2: a header byte is its marker and its group; a Word of selector 0 to 8 is its row's, under either
decoder. -/
theorem encodeOfDecodedBitsIsTheBits : Obligations.EncodeOfDecodedBitsIsTheBits := by
  refine ⟨fun b i decoded => ?byte, fun op w i decoder small decoded => ?word⟩
  case byte =>
    cases decoded
    exact encode_decodeByte b
  case word =>
    rw [← selectorOf_toNat] at small
    rcases Machine.word_cases w with ⟨r, word, -⟩ | ⟨r, -, selector⟩
    · rw [word] at decoded ⊢
      rcases decoder with rfl | rfl
      · rw [Machine.decode_wInstr] at decoded
        cases decoded
        exact encode_wInstr r _
      · rw [Machine.decode_xuInstr] at decoded
        cases decoded
        exact encode_xuInstr r _
    · omega

/-- Settles O3: each word is a closed term, which the decoder evaluates. -/
theorem specWordsDecodeAsWritten : Obligations.SpecWordsDecodeAsWritten := by
  unfold Obligations.SpecWordsDecodeAsWritten
  decide

end Sys2Proof
end

section
/-! Step D_EXT and EXTRACT_G (spec/43_generic_decoder.md R193, spec/44_unrolled_decoder.md R212): both extractors write
the first fields of a Word to the slots from OCNT on, `wordCount` of them, or stop where VOUT ends. -/

namespace Sys2Proof.Machine

open Sys2Proof.Safety

/-! ### The write that both extractors share -/

/-- What both extractors leave: the first `k` fields of `w` in the slots from OCNT on, and OCNT past them. -/
def State.putFields (s : State) (w : Word) (bits k : Nat) : State :=
  { s with vout := Memory.writeRun s.vout s.ocnt (fieldSlots w bits k), ocnt := s.ocntReg (s.ocnt + k) }

theorem State.putItems_fieldSlots {s : State} {w : Word} {bits k : Nat} (room : s.ocnt + k ≤ s.params.outSlots) :
    s.putItems (fieldSlots w bits k) = some (s.putFields w bits k) := by
  rw [State.putItems_eq (by rwa [fieldSlots_length]), fieldSlots_length, State.putFields]

theorem State.putItems_fieldSlots_none {s : State} {w : Word} {bits k : Nat}
    (short : s.params.outSlots < s.ocnt + k) : s.putItems (fieldSlots w bits k) = none :=
  State.putItems_none (by rwa [fieldSlots_length])

theorem State.putFields_read (s : State) (w : Word) (bits k i : Nat) :
    Memory.read (s.putFields w bits k).vout i =
      if s.ocnt ≤ i ∧ i < s.ocnt + k then some (BitVec.ofNat 32 (fieldValue w bits (i - s.ocnt)))
      else Memory.read s.vout i := by
  rw [State.putFields, Memory.read_writeRun, fieldSlots_length]
  split
  · rename_i within
    exact fieldSlots_get w bits (by omega)
  · rfl

theorem State.putFields_read_field {s : State} {w : Word} {bits k j : Nat} (written : j < k) :
    Memory.read (s.putFields w bits k).vout (s.ocnt + j) = some (BitVec.ofNat 32 (fieldValue w bits j)) := by
  rw [State.putFields_read, if_pos (by omega), Nat.add_sub_cancel_left]

theorem State.putFields_read_other {s : State} {w : Word} {bits k i : Nat} (other : i < s.ocnt ∨ s.ocnt + k ≤ i) :
    Memory.read (s.putFields w bits k).vout i = Memory.read s.vout i := by
  rw [State.putFields_read, if_neg (by omega)]

/-- The write when OCNT's register holds the new count. -/
theorem State.putFields_of_counted {s : State} {w : Word} {bits k : Nat}
    (counted : s.ocnt + k < 2 ^ (s.params.lenBits + 1)) :
    s.putFields w bits k = { s with vout := (s.putFields w bits k).vout, ocnt := s.ocnt + k } := by
  simp only [State.putFields, State.ocntReg_of_lt counted]

/-- The whole effect of D_EXT on a Word: the write, and then the end of the step (R254). -/
theorem State.finishExt_putFields {s : State} {w : Word} {bits k : Nat}
    (counted : s.ocnt + k < 2 ^ (s.params.lenBits + 1)) :
    (s.putFields w bits k).finishExt =
      { s with vout := (s.putFields w bits k).vout, ocnt := s.ocnt + k,
               st := if s.n ≤ s.ocnt + k then .done else .dWord } := by
  rw [State.putFields_of_counted counted, State.finishExt]

/-! ### The two extractors -/

theorem wordCount_generic (n ocnt : Nat) (r : Fin 9) : wordCount false n ocnt r = min (rom r).cap (n - ocnt) := rfl

theorem wordCount_unrolled (n ocnt : Nat) (r : Fin 9) : wordCount true n ocnt r = (rom r).cap := rfl

/-- The generic extractor goes by the fields it takes. -/
theorem State.extractGeneric_payloadOf (s : State) (r : Fin 9) (w : Word) :
    s.extractGeneric (rom r) (payloadOf w) =
      s.putItems (fieldSlots w (rom r).bits (wordCount false s.n s.ocnt r)) := by
  rw [State.extractGeneric, ← genericItems_eq]
  rfl

/-- D_EXT on a Word of row `r`, under the decoder that OP names (R254). -/
def wordExt (fast : Bool) (r : Fin 9) (w : Word) (s : State) : Host.Outcome State Fault Refusal :=
  if fast then unrolledExt (treeItems r w) s else genericExt (rom r) (payloadOf w) s

/-- W0 to W8, in terms of the Word that carries the payload. -/
theorem exec_wInstr_eq (r : Fin 9) (p : Payload) (s : State) :
    exec (wInstr r p) s = wordExt false r (wordOf (BitVec.ofNat 4 r.val) p) s := by
  rw [exec_wInstr, wordExt, payloadOf_wordOf]
  rfl

/-- XU0 to XU8, in terms of the Word that carries the payload. -/
theorem exec_xuInstr_eq (r : Fin 9) (p : Payload) (s : State) :
    exec (xuInstr r p) s = wordExt true r (wordOf (BitVec.ofNat 4 r.val) p) s := exec_xuInstr r p s

/-- EXTRACT_G, in terms of a Word that carries the payload. -/
theorem exec_extractG_eq (r : Fin 9) (sel : Selector) (p : Payload) (s : State) :
    exec (.extractG r p) s = execExtractG r (payloadOf (wordOf sel p)) s := by rw [payloadOf_wordOf]; rfl

section Enabled

variable {s : State} {fast : Bool} {r : Fin 9} {w : Word} (ext : s.st = .dExt)
include ext

theorem wordExt_next (op : s.op = if fast then 3 else 2)
    (room : s.ocnt + wordCount fast s.n s.ocnt r ≤ s.params.outSlots) :
    wordExt fast r w s = .next (s.putFields w (rom r).bits (wordCount fast s.n s.ocnt r)).finishExt := by
  cases fast with
  | false =>
    show genericExt (rom r) (payloadOf w) s = _
    rw [genericExt, if_pos ⟨ext, op⟩, s.extractGeneric_payloadOf, State.putItems_fieldSlots room]
  | true =>
    show unrolledExt (treeItems r w) s = _
    rw [unrolledExt, if_pos ⟨ext, op⟩, treeItems_eq, ← wordCount_unrolled s.n s.ocnt, State.putItems_fieldSlots room]

theorem wordExt_fault (op : s.op = if fast then 3 else 2)
    (short : s.params.outSlots < s.ocnt + wordCount fast s.n s.ocnt r) :
    wordExt fast r w s = .fault .voutOutside := by
  cases fast with
  | false =>
    show genericExt (rom r) (payloadOf w) s = _
    rw [genericExt, if_pos ⟨ext, op⟩, s.extractGeneric_payloadOf, State.putItems_fieldSlots_none short]
  | true =>
    show unrolledExt (treeItems r w) s = _
    rw [unrolledExt, if_pos ⟨ext, op⟩, treeItems_eq, ← wordCount_unrolled s.n s.ocnt,
      State.putItems_fieldSlots_none short]

/-- A Word that D_EXT takes had room in VOUT. -/
theorem wordExt_next_inv {t : State} (op : s.op = if fast then 3 else 2) (run : wordExt fast r w s = .next t) :
    s.ocnt + wordCount fast s.n s.ocnt r ≤ s.params.outSlots ∧
      t = (s.putFields w (rom r).bits (wordCount fast s.n s.ocnt r)).finishExt := by
  rcases Nat.lt_or_ge s.params.outSlots (s.ocnt + wordCount fast s.n s.ocnt r) with short | room
  · rw [wordExt_fault ext op short] at run
    cases run
  · rw [wordExt_next ext op room] at run
    cases run
    exact ⟨room, rfl⟩

theorem execExtractG_next (op : s.op = 2) (room : s.ocnt + wordCount false s.n s.ocnt r ≤ s.params.outSlots) :
    execExtractG r (payloadOf w) s =
      .next { s.putFields w (rom r).bits (wordCount false s.n s.ocnt r) with
        dp := .count (s.putFields w (rom r).bits (wordCount false s.n s.ocnt r)).ocnt } := by
  rw [execExtractG, if_pos ⟨ext, op⟩, s.extractGeneric_payloadOf, State.putItems_fieldSlots room]

theorem execExtractG_fault (op : s.op = 2) (short : s.params.outSlots < s.ocnt + wordCount false s.n s.ocnt r) :
    execExtractG r (payloadOf w) s = .fault .voutOutside := by
  rw [execExtractG, if_pos ⟨ext, op⟩, s.extractGeneric_payloadOf, State.putItems_fieldSlots_none short]

end Enabled

/-- Settles O31: the generic extractor's write, with OCNT held in full, and the end of D_EXT. -/
theorem wordUnderDecodeFillsItsSlots : Obligations.WordUnderDecodeFillsItsSlots := by
  intro r p s ext op k w room counted
  exact ⟨_, (exec_wInstr_eq r p s).trans (wordExt_next ext op room), fun j => State.putFields_read_field,
    fun i => State.putFields_read_other, State.finishExt_putFields counted⟩

/-- Settles O32: the tree's write of the whole row, with OCNT held in full, and the end of D_EXT. -/
theorem treeUnderDecodeFastFillsItsSlots : Obligations.TreeUnderDecodeFastFillsItsSlots := by
  intro r p s ext op k w room counted
  exact ⟨_, (exec_xuInstr_eq r p s).trans (wordExt_next ext op room), fun j => State.putFields_read_field,
    fun i => State.putFields_read_other, State.finishExt_putFields counted⟩

/-- Settles O33: the generic extractor's write, with the new count on the wires and no end of D_EXT. -/
theorem extractGFillsSlotsAndCounts : Obligations.ExtractGFillsSlotsAndCounts := by
  intro r p s ext op k w room counted
  refine ⟨_, (exec_extractG_eq r _ p s).trans (execExtractG_next (w := w) ext op room),
    fun j => State.putFields_read_field, fun i => State.putFields_read_other, ?_⟩
  simp only [State.putFields, wordCount_generic, State.ocntReg_of_lt counted, k]

/-! ### PACK's and the extractors' stops -/

/-- PACK stops at a slot of VIN at or above N (R62). -/
theorem exec_pack_fault {r : Fin 9} {k idx : Nat} {s : State} (outside : s.n < idx + k) :
    exec (.pack r k idx) s = .fault .vinOutside := if_neg outside.not_ge

/-- Settles O30: PACK compares with N, the extractors with `OUT_SLOTS`, before anything is read or written. -/
theorem slotsThatDoNotExistStop : Obligations.SlotsThatDoNotExistStop := by
  refine ⟨fun r k idx s outside => exec_pack_fault outside, fun r p s ext op short => ?generic,
    fun r p s ext op short => ?tree⟩
  case generic =>
    exact ⟨(exec_wInstr_eq r p s).trans (wordExt_fault ext op short),
      (exec_extractG_eq r 0 p s).trans (execExtractG_fault ext op short)⟩
  case tree => exact (exec_xuInstr_eq r p s).trans (wordExt_fault ext op short)

/-! ### What an extractor does not look at, and where the two agree -/

theorem fieldSlots_congr {w w' : Word} {bits k : Nat} (same : ∀ j, j < k → fieldValue w bits j = fieldValue w' bits j) :
    fieldSlots w bits k = fieldSlots w' bits k :=
  List.map_congr_left fun j within => by rw [same j (List.mem_range.1 within)]

/-- Settles O35: D_EXT goes by the fields taken, and these are equal. -/
theorem unusedBitsDoNotReachADecode : Obligations.UnusedBitsDoNotReachADecode := by
  intro r p p' s same
  have items : s.extractGeneric (rom r) p = s.extractGeneric (rom r) p' := by
    have taken := congrArg s.putItems (fieldSlots_congr same)
    rwa [← wordCount_generic, ← s.extractGeneric_payloadOf, ← s.extractGeneric_payloadOf, payloadOf_wordOf,
      payloadOf_wordOf] at taken
  rw [exec_wInstr, exec_wInstr, genericExt, genericExt, items]

/-- The generic extractor takes the whole row, or it takes what is missing and the tree overruns (R226). -/
theorem wordCount_generic_cases {n ocnt : Nat} (r : Fin 9) (missing : ocnt < n) :
    wordCount false n ocnt r = wordCount true n ocnt r ∨
      ocnt + wordCount false n ocnt r = n ∧ n ≤ ocnt + wordCount true n ocnt r := by
  rw [wordCount_generic, wordCount_unrolled]
  omega

/-- Settles O36: the two write the same fields, and where the tree goes on the generic extractor has reached N. -/
theorem treeAgreesWithExtractorBelowLength : Obligations.TreeAgreesWithExtractorBelowLength := by
  intro r p s t u ext missing wide generic tree
  rw [exec_wInstr_eq] at generic
  rw [exec_xuInstr_eq] at tree
  obtain ⟨-, rfl⟩ := wordExt_next_inv (s := { s with op := 2 }) ext rfl generic
  obtain ⟨-, rfl⟩ := wordExt_next_inv (s := { s with op := 3 }) ext rfl tree
  have counts := wordCount_generic_cases r missing
  have genericPad : _ ≤ s.n + 0 := wordCount_le_need (fast := false) (r := r) missing
  have treePad : _ ≤ s.n + 27 := wordCount_le_need (fast := true) (r := r) missing
  refine ⟨fun i below => ?slots, ?registers⟩
  case slots =>
    simp only [State.finishExt_vout, State.putFields_read]
    rcases Nat.lt_or_ge i s.ocnt with before | after
    · rw [if_neg (by omega), if_neg (by omega)]
    · rcases counts with same | ⟨full, beyond⟩
      · rw [same]
      · rw [if_pos ⟨after, by omega⟩, if_pos ⟨after, by omega⟩]
  case registers =>
    have narrow : s.n + 0 < 2 ^ (s.params.lenBits + 1) := by omega
    rw [State.finishExt_putFields (s := { s with op := 2 }) (genericPad.trans_lt narrow),
      State.finishExt_putFields (s := { s with op := 3 }) (treePad.trans_lt wide)]
    have ends : s.n ≤ s.ocnt + wordCount true s.n s.ocnt r ↔ s.n ≤ s.ocnt + wordCount false s.n s.ocnt r := by
      rcases counts with same | ⟨full, beyond⟩
      · rw [same]
      · omega
    simp only [ends]

end Sys2Proof.Machine
end

section
/-! The datapath operations as instructions (spec/40_varbyte.md R120, spec/41_selector_table.md R140,
spec/42_block_encoder.md R162 to R167): each puts its function's answer on the wires `dp`. -/

namespace Sys2Proof.Machine

open Sys2Proof.Safety

/-! ### VB_ENC -/

theorem headerSum_lt (bs : List Byte) : headerSum bs < 128 ^ bs.length := by
  induction bs with
  | nil => simp [headerSum]
  | cons b bs ih =>
    rw [headerSum, List.length_cons, Nat.pow_succ]
    omega

theorem isHeader_length_pos {bs : List Byte} (header : IsHeader bs) : 1 ≤ bs.length := by
  cases bs with
  | nil => exact header.elim
  | cons b bs => simp

/-- No header of the same value is shorter: fewer bytes carry smaller numbers (R121). -/
theorem vbEncode_length_least {n : Nat} (width : n < 2 ^ 64) {bs : List Byte} (header : IsHeader bs)
    (sum : headerSum bs = n) : (vbEncode n).length ≤ bs.length := by
  obtain ⟨-, -, -, least⟩ := vbEncode_spec n width
  have positive := isHeader_length_pos header
  rcases Nat.lt_or_ge 1 (vbEncode n).length with long | one
  · have bound : 128 ^ ((vbEncode n).length - 1) < 128 ^ bs.length :=
      (least long).trans_lt (sum ▸ headerSum_lt bs)
    have := (Nat.pow_lt_pow_iff_right (by omega)).1 bound
    omega
  · omega

theorem exec_vbEnc (n : Nat) (s : State) : exec (.vbEnc n) s = .next { s with dp := .bytes (vbEncode (s.lenReg n)) } :=
  rfl

/-- Settles O19: VB_ENC emits a header of its operand, and a longer one than needed would carry a larger number. -/
theorem vbEncEmitsTheShortestHeader : Obligations.VbEncEmitsTheShortestHeader := by
  intro n s legal held
  have width := lt_two_pow_64 legal held
  obtain ⟨header, sum, -⟩ := vbEncode_spec n width
  refine ⟨vbEncode n, ?_, header, sum, fun bs header sum => vbEncode_length_least width header sum⟩
  rw [exec_vbEnc, State.lenReg_of_lt held]

/-! ### SEL_LOOKUP and FIT -/

theorem exec_selLookup (a : Selector) (s : State) :
    exec (.selLookup a) s = .next { s with dp := .lookup (romLookup a).1 (romLookup a).2 } := rfl

theorem romLookup_row {a : Selector} {r : Fin 9} (address : a.toNat = r.val) : romLookup a = (true, rom r) := by
  rw [romLookup, dif_pos (address ▸ r.isLt)]
  exact congrArg (fun r => (true, rom r)) (Fin.ext address)

theorem romLookup_invalid {a : Selector} (high : 9 ≤ a.toNat) : (romLookup a).1 = false := by
  rw [romLookup, dif_neg high.not_gt]

/-- The nine rows as R141 to R149 list them, by address. -/
def listedRows : List (Nat × Row) :=
  [(0, ⟨28, 1, 0⟩), (1, ⟨14, 2, 0⟩), (2, ⟨9, 3, 1⟩), (3, ⟨7, 4, 0⟩), (4, ⟨5, 5, 3⟩), (5, ⟨4, 7, 0⟩), (6, ⟨3, 9, 1⟩),
    (7, ⟨2, 14, 0⟩), (8, ⟨1, 28, 0⟩)]

theorem listedRows_rom (r : Fin 9) : listedRows.lookup r.val = some (rom r) := by revert r; decide

theorem listedRows_high : ∀ a : Selector, 9 ≤ a.toNat → listedRows.lookup a.toNat = none := by decide

/-- Settles O24: below 9 the ROM holds the listed row, from 9 on no row is listed and `valid` is 0. -/
theorem selLookupAnswersTheNineRows : Obligations.SelLookupAnswersTheNineRows := by
  intro a s
  refine ⟨fun row listed => ?row, fun high => ⟨(romLookup a).2, ?invalid⟩⟩
  case row =>
    rcases Nat.lt_or_ge a.toNat 9 with low | high
    · have held := (listedRows_rom ⟨a.toNat, low⟩).symm.trans listed
      rw [exec_selLookup, romLookup_row (r := ⟨a.toNat, low⟩) rfl, Option.some.inj held]
    · exact absurd ((listedRows_high a high).symm.trans listed) (by simp)
  case invalid => rw [exec_selLookup, romLookup_invalid high]

/-- Settles O25: FIT's answer is the comparison itself. -/
theorem fitComparesWithThePowerOfTwo : Obligations.FitComparesWithThePowerOfTwo := fun _ _ _ => rfl

/-! ### RUN, ACCEPT and SELECT -/

/-- Settles O26: RUN's loop stops at the first Value that does not fit, at the row's capacity or at the end. -/
theorem runAnswersTheLargestFittingRun : Obligations.RunAnswersTheLargestFittingRun :=
  fun r idx s => ⟨runLength (vinAt s.vin) s.n r idx, rfl, runLength_isRun (vinAt s.vin) s.n r idx⟩

theorem exec_accept (r : Fin 9) (idx : Nat) (s : State) :
    exec (.accept r idx) s = .next { s with dp := .bit (accepts (vinAt s.vin) s.n r idx) } := rfl

theorem exec_select (idx : Nat) (s : State) :
    exec (.select idx) s = .next { s with dp := .selection (selectRow (vinAt s.vin) s.n idx) } := rfl

theorem accepts_eq (v : Nat → Slot) (n : Nat) (r : Fin 9) (idx : Nat) :
    accepts v n r idx = decide (runLength v n r idx = (rom r).cap ∨ idx + runLength v n r idx = n) :=
  (Bool.decide_or _ _).symm

/-- Settles O27: the run is unique, so it is the one that ACCEPT tests; it is not empty because no row is and the cursor
is within the input. -/
theorem acceptIffFullOrExhausted : Obligations.AcceptIffFullOrExhausted := by
  intro r idx k s within isRun
  obtain ⟨-, cap, -⟩ := rom_facts r
  obtain rfl := isRun_unique isRun (runLength_isRun (vinAt s.vin) s.n r idx)
  exact ⟨by rw [exec_accept, accepts_eq], fun accepted => by omega⟩

/-- SELECT on legal Values: the first row in table order whose run is accepted (R165). -/
theorem exists_selectRow {v : Nat → Slot} {n idx : Nat} (within : idx < n) (legal : (v idx).toNat ≤ Config.maxValue) :
    ∃ r k, selectRow v n idx = some (r, k) ∧ IsRun v n (rom r) idx k ∧ (k = (rom r).cap ∨ idx + k = n) ∧
      ∀ (r' : Fin 9) (k' : Nat), r' < r → IsRun v n (rom r') idx k' → k' ≠ (rom r').cap ∧ idx + k' ≠ n := by
  obtain ⟨r, k, selected⟩ := selectRow_isSome within legal
  obtain ⟨accepted, rfl, first⟩ := selectRow_some selected
  refine ⟨r, _, selected, runLength_isRun v n r idx, (accepts_iff v n r idx).1 accepted, fun r' k' earlier isRun => ?_⟩
  obtain rfl := isRun_unique isRun (runLength_isRun v n r' idx)
  simpa [accepts_eq] using first r' earlier

/-- Settles O28: the Value at the cursor is legal, so the scan meets a row, and it is the first. -/
theorem selectAnswersTheFirstAcceptedRow : Obligations.SelectAnswersTheFirstAcceptedRow := by
  intro idx s within legal
  obtain ⟨r, k, selected, row⟩ := exists_selectRow within (legal idx within)
  exact ⟨r, k, by rw [exec_select, selected], row⟩

/-! ### PACK -/

theorem exec_pack {r : Fin 9} {k idx : Nat} {s : State} (within : idx + k ≤ s.n) :
    exec (.pack r k idx) s = .next { s with dp := .packed (packWord (vinAt s.vin) r k idx) } := if_pos within

/-- The Word of fitting Values: its selector, its fields, and nothing above them (R166, R167). -/
theorem packWord_spec {v : Nat → Slot} {r : Fin 9} {k idx : Nat} (cap : k ≤ (rom r).cap)
    (fit : ∀ j, j < k → (v (idx + j)).toNat < 2 ^ (rom r).bits) :
    (packWord v r k idx).toNat % 16 = r.val ∧
      (∀ j, j < k → fieldValue (packWord v r k idx) (rom r).bits j = (v (idx + j)).toNat) ∧
      (packWord v r k idx).toNat < 2 ^ (4 + k * (rom r).bits) :=
  ⟨packWord_selector v r idx k cap fit, packWord_field v r idx k cap fit, packWord_lt v r idx k cap fit⟩

/-- Settles O29: within the Sequence PACK answers the packed Word, whose parts are the laws of `packWord`. -/
theorem packPutsEachValueInItsField : Obligations.PackPutsEachValueInItsField :=
  fun _ _ _ _ cap within fit => ⟨_, exec_pack within, packWord_spec cap fit⟩

end Sys2Proof.Machine
end

section
/-! The header bytes and VB_DEC as instructions (spec/40_varbyte.md R122, R123): one byte's case split, said once for
VB_CONT and once for the loop of VB_DEC, and the marked bytes that the loop passes over. -/

namespace Sys2Proof.Machine

open Sys2Proof.Safety

/-! ### VB_CONT -/

theorem exec_vbCont_raises {s : State} {g : BitVec 7} (hdr : s.st = .dHdr)
    (group : headerGroup s.params s.hidx.toNat s.hreg g = none) :
    exec (.vbCont g) s = .next (s.raise pvHeader s.hidx.toNat) := by
  show execVbCont g s = _
  simp only [execVbCont, if_pos hdr, group]

theorem exec_vbCont_tooLong {s : State} {g : BitVec 7} {v : Nat} (hdr : s.st = .dHdr)
    (group : headerGroup s.params s.hidx.toNat s.hreg g = some v) (last : s.hidx.toNat + 1 = maxHdrBytes s.params) :
    exec (.vbCont g) s = .next (({ s with hreg := s.lenReg v } : State).raise pvHeader s.hidx.toNat) := by
  show execVbCont g s = _
  simp only [execVbCont, if_pos hdr, group, if_pos last]

/-- Settles O17: the group fits or it does not; one that fits joins HREG, and the byte's index decides whether the
header may go on. -/
theorem continuationByteExtendsTheHeader : Obligations.ContinuationByteExtendsTheHeader := by
  intro s g legal hdr below p
  have group (fits : p < 2 ^ s.params.lenBits) : headerGroup s.params s.hidx.toNat s.hreg g = some (s.hreg ||| p) :=
    headerGroup_eq_some s.hreg fits
  refine ⟨fun fits more => ?goesOn, fun fits last => ?tooLong, fun exceeds => ?tooLarge⟩
  case goesOn =>
    rw [exec_vbCont_more hdr rfl (group fits) (headerGroup_lt below (group fits)) more]
    simp only [hdr]
  case tooLong =>
    rw [exec_vbCont_tooLong hdr (group fits) last, State.lenReg_of_lt (headerGroup_lt below (group fits)),
      State.raise_of_lt_16 (s := { s with hreg := s.hreg ||| p }) pvHeader legal s.hidx.isLt]
    rfl
  case tooLarge =>
    rw [exec_vbCont_raises hdr (headerGroup_eq_none s.hreg exceeds),
      State.raise_of_lt_16 pvHeader legal s.hidx.isLt]
    rfl

/-! ### One byte of VB_DEC -/

/-- The source delivers one byte. -/
theorem sourceRead_byte {s : State} {a : Answer} {ans : List Answer} {b : Byte} {src : List Byte}
    (answers : s.sourceAns = a :: ans) (good : a.ok = true) (source : s.source = b :: src) :
    sourceRead s 1 = .done [b] { s with source := src, sourceAns := ans } := by
  rw [sourceRead_ok answers good (by simp [source]), source]
  rfl

/-- A read of one byte that fails loses none: at most 0 of its bytes move (U7). -/
theorem sourceRead_byte_fail {s : State} {a : Answer} {ans : List Answer} (answers : s.sourceAns = a :: ans)
    (fails : a.ok = false ∨ s.source = []) : sourceRead s 1 = .failed { s with sourceAns := ans } := by
  have short : a.ok = false ∨ s.source.length < 1 := fails.imp_right fun empty => by simp [empty]
  rw [sourceRead_fail answers short, movedOf, Nat.sub_self, Nat.min_zero, List.drop_zero]

/-- A group above the last byte's place always fits (R8, R97). -/
theorem headerGroup_fits {p : Config.Params} {i : Nat} (g : BitVec 7) (more : i + 1 < maxHdrBytes p) :
    g.toNat * 2 ^ (7 * i) < 2 ^ p.lenBits := by
  have place : 7 * (i + 1) ≤ p.lenBits := by
    rw [maxHdrBytes] at more
    omega
  calc g.toNat * 2 ^ (7 * i) < 2 ^ 7 * 2 ^ (7 * i) := Nat.mul_lt_mul_of_pos_right g.isLt (Nat.two_pow_pos _)
    _ = 2 ^ (7 * (i + 1)) := by rw [← Nat.pow_add]; congr 1; omega
    _ ≤ 2 ^ p.lenBits := Nat.pow_le_pow_right (by omega) place

section Byte

variable {s : State} {a : Answer} {ans : List Answer} {b : Byte} {src : List Byte} {fuel i value : Nat}

theorem vbDecLoop_waiting (silent : s.sourceAns = []) : vbDecLoop (fuel + 1) i value s = .waiting := by
  rw [vbDecLoop, sourceRead_waiting silent]

variable (answers : s.sourceAns = a :: ans)
include answers

theorem vbDecLoop_fail (fails : a.ok = false ∨ s.source = []) :
    vbDecLoop (fuel + 1) i value s = .raised (({ s with sourceAns := ans } : State).raise ioSource 0) := by
  rw [vbDecLoop, sourceRead_byte_fail answers fails]

variable (good : a.ok = true) (source : s.source = b :: src)
include good source

theorem vbDecLoop_last {v : Nat} (last : b.msb = false) (group : headerGroup s.params i value (groupOf b) = some v) :
    vbDecLoop (fuel + 1) i value s = .decoded v (i + 1) { s with source := src, sourceAns := ans } := by
  simp [vbDecLoop, sourceRead_byte answers good source, group, last]

theorem vbDecLoop_cont {v : Nat} (cont : b.msb = true) (group : headerGroup s.params i value (groupOf b) = some v)
    (more : i + 1 ≠ maxHdrBytes s.params) :
    vbDecLoop (fuel + 1) i value s = vbDecLoop fuel (i + 1) v { s with source := src, sourceAns := ans } := by
  simp [vbDecLoop, sourceRead_byte answers good source, group, cont, more]

/-- Both cases of R123: the group does not fit, or the byte should have been the last. -/
theorem vbDecLoop_raises (rejected : headerGroup s.params i value (groupOf b) = none ∨
      b.msb = true ∧ i + 1 = maxHdrBytes s.params) :
    vbDecLoop (fuel + 1) i value s =
      .raised (({ s with source := src, sourceAns := ans } : State).raise pvHeader i) := by
  cases group : headerGroup s.params i value (groupOf b) with
  | none => simp [vbDecLoop, sourceRead_byte answers good source, group]
  | some v =>
    rw [group] at rejected
    obtain ⟨cont, last⟩ := rejected.resolve_left (by simp)
    simp [vbDecLoop, sourceRead_byte answers good source, group, cont, last]

end Byte

/-! ### Runs of bytes -/

theorem vbDecodeBytes_consumed {p : Config.Params} {fuel i value n c : Nat} {src rest : List Byte}
    (decoded : vbDecodeBytes p fuel i value src = .decoded n c rest) :
    ∃ read, src = read ++ rest ∧ c = i + read.length ∧ 1 ≤ read.length := by
  induction fuel generalizing i value src with
  | zero => cases decoded
  | succ fuel ih =>
    obtain ⟨b, src', v, rfl, -, next⟩ := vbDecodeBytes_decoded_cases decoded
    rcases next with ⟨-, -, decoded⟩ | ⟨-, -, rfl, rfl⟩
    · obtain ⟨read, rfl, rfl, -⟩ := ih decoded
      exact ⟨b :: read, rfl, by simp; omega, by simp⟩
    · exact ⟨[b], rfl, rfl, le_rfl⟩

/-- With a good verdict for each of the header's bytes the loop on the source goes as VB_DEC on a byte list. -/
theorem vbDecLoop_of_decoded {s : State} {fuel i value n c : Nat} {rest : List Byte} {as : List Answer}
    (as' : List Answer) (decoded : vbDecodeBytes s.params fuel i value s.source = .decoded n c rest)
    (answers : s.sourceAns = as ++ as') (length : i + as.length = c) (good : ∀ a ∈ as, a.ok = true) :
    vbDecLoop fuel i value s = .decoded n c { s with source := rest, sourceAns := as' } := by
  induction fuel generalizing i value s as with
  | zero => cases decoded
  | succ fuel ih =>
    obtain ⟨read, -, count, nonempty⟩ := vbDecodeBytes_consumed decoded
    obtain ⟨a, as, rfl⟩ : ∃ a as₁, as = a :: as₁ := List.exists_cons_of_length_pos (by omega)
    obtain ⟨goodA, good⟩ := List.forall_mem_cons.1 good
    obtain ⟨b, src, v, source, group, next⟩ := vbDecodeBytes_decoded_cases decoded
    rw [List.cons_append] at answers
    rw [List.length_cons] at length
    rcases next with ⟨cont, more, decoded⟩ | ⟨last, rfl, rfl, rfl⟩
    · rw [vbDecLoop_cont answers goodA source cont group more,
        ih (s := { s with source := src, sourceAns := as ++ as' }) decoded rfl (by omega) good]
    · obtain rfl : as = [] := List.eq_nil_of_length_eq_zero (by omega)
      exact vbDecLoop_last answers goodA source last group

/-- The loop passes over marked bytes that the width allows; their groups fit. -/
theorem vbDecLoop_marked {s : State} {h rest : List Byte} {as as' : List Answer} {i value : Nat} (fuel : Nat)
    (marked : ∀ c ∈ h, 128 ≤ c.toNat) (more : i + h.length < maxHdrBytes s.params) (source : s.source = h ++ rest)
    (answers : s.sourceAns = as ++ as') (length : as.length = h.length) (good : ∀ a ∈ as, a.ok = true) :
    ∃ v, vbDecLoop (h.length + fuel) i value s =
      vbDecLoop fuel (i + h.length) v { s with source := rest, sourceAns := as' } := by
  induction h generalizing s as i value with
  | nil =>
    obtain rfl : as = [] := List.eq_nil_of_length_eq_zero length
    refine ⟨value, ?_⟩
    simp only [List.nil_append] at source answers
    rw [← source, ← answers, List.length_nil, Nat.zero_add, Nat.add_zero]
  | cons b h ih =>
    obtain ⟨a, as, rfl⟩ : ∃ a as₁, as = a :: as₁ := List.exists_cons_of_length_pos (by simp [length])
    obtain ⟨goodA, good⟩ := List.forall_mem_cons.1 good
    obtain ⟨cont, marked⟩ := List.forall_mem_cons.1 marked
    rw [List.cons_append] at source answers
    rw [List.length_cons] at more
    have group := headerGroup_eq_some value (headerGroup_fits (groupOf b) (by omega : i + 1 < maxHdrBytes s.params))
    obtain ⟨v, run⟩ := ih (s := { s with source := h ++ rest, sourceAns := as ++ as' }) (i := i + 1)
      (value := value ||| (groupOf b).toNat * 2 ^ (7 * i)) marked (by simp only; omega) rfl rfl
      (Nat.succ.inj length) good
    refine ⟨v, ?_⟩
    rw [List.length_cons, Nat.add_right_comm, vbDecLoop_cont answers goodA source
      (BitVec.msb_eq_true_iff_two_mul_ge.2 (by omega)) group (by omega), run, Nat.add_assoc i, Nat.add_comm 1]

/-! ### VB_DEC as an instruction -/

/-- VB_DEC behind the marked bytes `h`: it is about to read the byte after them. -/
theorem vbDecLoop_after {s : State} {h rest : List Byte} {as as' : List Answer} (marked : ∀ c ∈ h, 128 ≤ c.toNat)
    (more : h.length < maxHdrBytes s.params) (source : s.source = h ++ rest) (answers : s.sourceAns = as ++ as')
    (length : as.length = h.length) (good : ∀ a ∈ as, a.ok = true) :
    ∃ fuel v, vbDecLoop (maxHdrBytes s.params) 0 0 s =
      vbDecLoop (fuel + 1) h.length v { s with source := rest, sourceAns := as' } := by
  obtain ⟨fuel, permitted⟩ := Nat.exists_eq_add_of_lt more
  obtain ⟨v, run⟩ := vbDecLoop_marked (i := 0) (value := 0) (fuel + 1) marked (by omega) source answers length good
  exact ⟨fuel, v, by rw [permitted, Nat.add_assoc, run, Nat.zero_add]⟩

section Enabled

variable {s t : State} (hdr : s.st = .dHdr)
include hdr

theorem exec_vbDec_decoded {value consumed : Nat}
    (run : vbDecLoop (maxHdrBytes s.params) 0 0 s = .decoded value consumed t) :
    exec .vbDec s = .next { t with dp := .header value consumed } := by
  show execVbDec s = _
  rw [execVbDec, if_pos hdr, run]

theorem exec_vbDec_raised (run : vbDecLoop (maxHdrBytes s.params) 0 0 s = .raised t) : exec .vbDec s = .next t := by
  show execVbDec s = _
  rw [execVbDec, if_pos hdr, run]

theorem exec_vbDec_waiting (run : vbDecLoop (maxHdrBytes s.params) 0 0 s = .waiting) : exec .vbDec s = .next s := by
  show execVbDec s = _
  rw [execVbDec, if_pos hdr, run]

end Enabled

/-- Settles O20: VB_DEC on a byte list reads the header, and the loop on the source goes as that. -/
theorem vbDecReadsEveryLegalHeader : Obligations.VbDecReadsEveryLegalHeader := by
  intro s h rest as as' hdr header short fits source answers length good
  have decoded := vbDecode_append rest header short fits
  rw [← source] at decoded
  exact exec_vbDec_decoded hdr (vbDecLoop_of_decoded as' decoded answers (by omega) good)

/-- Settles O21: the loop passes over the marked bytes before it and raises at this one. -/
theorem vbDecRejectsAHeaderThatDoesNotFit : Obligations.VbDecRejectsAHeaderThatDoesNotFit := by
  intro s h rest b as as' legal hdr marked more rejected source answers length good
  rcases List.eq_nil_or_concat' as with rfl | ⟨as, a, rfl⟩
  · cases length
  · have goodA : a.ok = true := good a (by simp)
    rw [List.length_append, List.length_singleton] at length
    rw [List.append_assoc, List.singleton_append] at answers
    obtain ⟨fuel, v, run⟩ := vbDecLoop_after marked more source answers (Nat.add_right_cancel length)
      fun a old => good a (List.mem_append_left _ old)
    have atByte : headerGroup s.params h.length v (groupOf b) = none ∨
        b.msb = true ∧ h.length + 1 = maxHdrBytes s.params := by
      refine rejected.imp (fun exceeds => headerGroup_eq_none v ?_) fun ⟨cont, last⟩ =>
        ⟨BitVec.msb_eq_true_iff_two_mul_ge.2 (by omega), last⟩
      rwa [groupOf_toNat]
    have short := maxHdrBytes_le legal
    rw [vbDecLoop_raises (s := { s with source := b :: rest, sourceAns := a :: as' }) rfl goodA rfl atByte,
      State.raise_of_lt_16 (s := { s with source := rest, sourceAns := as' }) pvHeader legal (by omega)] at run
    exact exec_vbDec_raised hdr run

/-- Settles O22: the loop passes over the marked bytes and fails, or waits, at the next. -/
theorem vbDecReportsASourceFailure : Obligations.VbDecReportsASourceFailure := by
  intro s h rest as hdr marked more source length good
  refine ⟨fun a as' answers fails => ?fails, fun answers => ?waits⟩
  case fails =>
    obtain ⟨fuel, v, run⟩ := vbDecLoop_after marked more source answers length good
    rw [vbDecLoop_fail (s := { s with source := rest, sourceAns := a :: as' }) rfl fails] at run
    rw [exec_vbDec_raised hdr run, State.raise, State.lenReg_zero]
    rfl
  case waits =>
    obtain ⟨fuel, v, run⟩ := vbDecLoop_after (as' := []) marked more source (by simp [answers]) length good
    rw [vbDecLoop_waiting rfl] at run
    exact exec_vbDec_waiting hdr run

/-! ### Instructions that are not enabled -/

/-- Settles O37: each of these instructions begins with the test of ST, and of OP where it has one. -/
theorem instructionsNotEnabledChangeNothing : Obligations.InstructionsNotEnabledChangeNothing := by
  refine fun s => ⟨fun hdr => ⟨if_neg hdr, fun g => ⟨if_neg hdr, if_neg hdr⟩⟩, fun ext r p => ?illegal,
    fun other r p => ?generic, fun other r p => ?tree⟩
  case illegal => exact (exec_illegalInstr r p s).trans (if_neg ext)
  case generic =>
    have off : ¬ (s.st = .dExt ∧ s.op = 2) := not_and_or.2 other
    exact ⟨(exec_wInstr r p s).trans (if_neg off), if_neg off⟩
  case tree =>
    have off : ¬ (s.st = .dExt ∧ s.op = 3) := not_and_or.2 other
    exact (exec_xuInstr r p s).trans (if_neg off)

end Sys2Proof.Machine
end

section
/-! Reset, the fetch and START (spec/10_state.md R42, R43, spec/45_commands_and_sequencer.md R245, R252, R254): what the
fetch runs, and what an accepted START forgets. -/

namespace Sys2Proof.Machine

open Sys2Proof.Safety

/-! ### Reset -/

/-- Settles O7: each value is a field of the reset state, and the flags are low because it is in IDLE. -/
theorem resetStateHasTheSpecValues : Obligations.ResetStateHasTheSpecValues := by
  obtain ⟨busy, done, fault⟩ := State.outputs_low_of_idle State.reset_st
  exact ⟨rfl, rfl, rfl, rfl, rfl, rfl, rfl, rfl, rfl, rfl, rfl, rfl, busy, done, fault, rfl, rfl⟩

/-- Settles O8: the step that takes the event is the reset operation, which names every register. -/
theorem resetClearsEveryRegister : Obligations.ResetClearsEveryRegister := fun _ _ reset => step_reset reset

/-! ### The fetch -/

theorem fetchHeader_byte {s : State} {a : Answer} {ans : List Answer} {b : Byte} {src : List Byte}
    (answers : s.sourceAns = a :: ans) (good : a.ok = true) (source : s.source = b :: src) :
    fetchHeader s =
      .instr (decodeByte b) { s with source := src, sourceAns := ans, nbytes := s.nbytesReg (s.nbytes + 1) } := by
  rw [fetchHeader, sourceRead_byte answers good source]
  rfl

theorem fetchHeader_fail {s : State} {a : Answer} {ans : List Answer} (answers : s.sourceAns = a :: ans)
    (fails : a.ok = false ∨ s.source = []) :
    fetchHeader s = .settled (.next (({ s with sourceAns := ans } : State).raise ioSource 0)) := by
  rw [fetchHeader, sourceRead_byte_fail answers fails]

theorem fetchWord_of_decode {s : State} {i : Instr} (decoded : decode (.word s.op s.wreg) = .instr i) :
    fetchWord s = .instr i s := by
  rw [fetchWord, decoded]

/-- Settles O9: the three places of the fetch, the command port, the source in D_HDR and WREG in D_EXT. -/
theorem stepRunsTheDecodedInstruction : Obligations.StepRunsTheDecodedInstruction := by
  refine ⟨fun s op len es i command decoded => ?port, fun s t a as b bs i turn hdr answers good source decoded => ?byte,
    fun s t i turn ext decoded => ?word⟩
  case port =>
    cases decoded
    exact step_command command
  case byte =>
    cases decoded
    rw [step_turn turn, fetchSequencer_dHdr hdr, fetchHeader_byte answers good source]
    rfl
  case word => rw [step_turn turn, fetchSequencer_dExt ext, fetchWord_of_decode decoded, runFetched_instr]

/-! ### START -/

/-- START ENCODE in an accepting state is the same with every register cleared first (R43, R247). -/
theorem exec_encode_forgets {s : State} (len : Nat) (ready : s.st = .idle ∨ s.st = .done) :
    exec (.encode len) s = exec (.encode len) s.resetEvent := by
  have cleared : s.resetEvent.st = .idle ∨ s.resetEvent.st = .done := .inl rfl
  by_cases empty : s.lenReg len = 0
  · rw [exec_encode_empty ready rfl empty, exec_encode_empty cleared rfl empty]
    rfl
  · cases scan : firstTooLarge s.vin (s.lenReg len) with
    | some i =>
      rw [exec_encode_tooLarge ready rfl scan, exec_encode_tooLarge (s := s.resetEvent) cleared rfl scan]
      rfl
    | none =>
      rw [exec_encode_begins ready rfl empty scan, exec_encode_begins (s := s.resetEvent) cleared rfl empty scan]
      rfl

/-- The START of either decoder, likewise (R43, R248). -/
theorem State.startDecode_forgets {s : State} (op : BitVec 2) (ready : s.st = .idle ∨ s.st = .done) :
    s.startDecode op = s.resetEvent.startDecode op := by
  rw [State.startDecode_of_ready op ready, State.startDecode_of_ready (s := s.resetEvent) op (.inl rfl)]
  rfl

theorem exec_start_forgets {s : State} {i : Instr} (ready : s.st = .idle ∨ s.st = .done)
    (start : i = .decode ∨ i = .decodeFast ∨ ∃ len, i = .encode len) : exec i s = exec i s.resetEvent := by
  rcases start with rfl | rfl | ⟨len, rfl⟩
  · rw [exec_decode, exec_decode, State.startDecode_forgets 2 ready]
  · rw [exec_decodeFast, exec_decodeFast, State.startDecode_forgets 3 ready]
  · exact exec_encode_forgets len ready

/-- Settles O15: an accepted START goes as after reset, and the two states agree on all that reset leaves. -/
theorem startForgetsEveryRegister : Obligations.StartForgetsEveryRegister := by
  intro s t i readyS readyT start params vout vin source sourceAns sink sinkAns events dp
  have cleared : s.resetEvent = t.resetEvent := by
    rw [State.resetEvent, params, vout, vin, source, sourceAns, sink, sinkAns, events, dp, ← State.resetEvent]
  rw [exec_start_forgets readyS start, exec_start_forgets readyT start, cleared]

/-- The command codes and their instructions (R99). -/
theorem decodeCmd_code_cases (op : BitVec 2) :
    (∀ len, decodeCmd op len = .nop) ∨ (op = 1 ∧ ∀ len, decodeCmd op len = .encode len) ∨
      (op = 2 ∧ ∀ len, decodeCmd op len = .decode) ∨ (op = 3 ∧ ∀ len, decodeCmd op len = .decodeFast) := by
  have codes : op = 0 ∨ op = 1 ∨ op = 2 ∨ op = 3 := by revert op; decide
  rcases codes with rfl | rfl | rfl | rfl
  · exact .inl fun _ => rfl
  · exact .inr (.inl ⟨rfl, fun _ => rfl⟩)
  · exact .inr (.inr (.inl ⟨rfl, fun _ => rfl⟩))
  · exact .inr (.inr (.inr ⟨rfl, fun _ => rfl⟩))

/-- Only the code 1 has a length (R99). -/
theorem decodeCmd_length_irrelevant {op : BitVec 2} (other : op ≠ 1) (len len' : Nat) :
    decodeCmd op len = decodeCmd op len' := by
  rcases decodeCmd_code_cases op with run | ⟨encode, -⟩ | ⟨-, run⟩ | ⟨-, run⟩
  · rw [run, run]
  · exact absurd encode other
  · rw [run, run]
  · rw [run, run]

/-- Settles O16: the decoded command does not depend on the length. -/
theorem lengthIsReadByEncodeOnly : Obligations.LengthIsReadByEncodeOnly := by
  intro s op len len' es other
  rw [step_command (s := { s with events := .command op len :: es }) rfl,
    step_command (s := { s with events := .command op len' :: es }) rfl]
  exact congrArg (fun i => exec i { s with events := es }) (decodeCmd_length_irrelevant other _ _)

end Sys2Proof.Machine
end

section
/-! The sequencer's own steps (spec/45_commands_and_sequencer.md R249 to R253): each with the verdict it gets. -/

namespace Sys2Proof.Machine

open Sys2Proof.Safety

/-! ### The encoder's steps -/

section Sink

variable {s : State} {a : Answer} {ans : List Answer} (answers : s.sinkAns = a :: ans)
include answers

theorem stepEHdr_cont (good : a.ok = true) (more : 128 ≤ s.hreg) :
    stepEHdr s = .next { s with
      sink := s.sink ++ [contByte s.hreg], sinkAns := ans, nbytes := s.nbytesReg (s.nbytes + 1), hidx := s.hidx + 1,
      hreg := s.hreg >>> 7, st := .eHdr } := by
  rw [stepEHdr, sinkWrite_ok answers good]
  simp only [if_pos more]

theorem stepEHdr_last (good : a.ok = true) (last : s.hreg < 128) :
    stepEHdr s = .next { s with
      sink := s.sink ++ [lastByte s.hreg], sinkAns := ans, nbytes := s.nbytesReg (s.nbytes + 1), hidx := s.hidx + 1,
      hreg := s.hreg >>> 7, st := .ePack } := by
  rw [stepEHdr, sinkWrite_ok answers good]
  simp only [if_neg last.not_ge]

/-- A byte that the sink fails is not taken: at most 0 bytes of one move (U7). -/
theorem stepEHdr_fail (bad : a.ok = false) :
    stepEHdr s = .next (({ s with sinkAns := ans } : State).raise ioSink 0) := by
  rw [stepEHdr, sinkWrite_fail answers bad]
  simp only [movedOf, List.length_singleton, Nat.sub_self, Nat.min_zero, List.take_zero, List.append_nil]

theorem stepEEmit_ok (good : a.ok = true) :
    stepEEmit s = .next { s with
      sink := s.sink ++ le32 s.wreg, sinkAns := ans, nbytes := s.nbytesReg (s.nbytes + 4),
      icur := s.lenReg (s.icur + s.kreg.toNat), st := .ePack } := by
  rw [stepEEmit, sinkWrite_ok answers good]

theorem stepEEmit_fail (bad : a.ok = false) :
    stepEEmit s = .next (({ s with
      sink := s.sink ++ (le32 s.wreg).take (movedOf a 4), sinkAns := ans } : State).raise ioSink 0) := by
  rw [stepEEmit, sinkWrite_fail answers bad, le32_length]

end Sink

theorem stepEHdr_waiting {s : State} (silent : s.sinkAns = []) : stepEHdr s = .next s := by
  rw [stepEHdr, sinkWrite_waiting silent]

theorem stepEEmit_waiting {s : State} (silent : s.sinkAns = []) : stepEEmit s = .next s := by
  rw [stepEEmit, sinkWrite_waiting silent]

theorem movedOf_le (a : Answer) (n : Nat) : movedOf a n ≤ n - 1 := Nat.min_le_right _ _

theorem stepEPack_done {s : State} (complete : s.icur = s.n) : stepEPack s = .next { s with st := .done } :=
  if_pos complete

theorem stepEPack_word {s : State} {r : Fin 9} {k : Nat} (more : s.icur ≠ s.n)
    (selected : selectRow (vinAt s.vin) s.n s.icur = some (r, k)) :
    stepEPack s = .next { s with
      wreg := packWord (vinAt s.vin) r k s.icur, kreg := BitVec.ofNat 5 k, st := .eEmit } := by
  rw [stepEPack, if_neg more, selected]

theorem contByte_eq (n : Nat) : contByte n = BitVec.ofNat 8 (128 + n % 128) := by
  rw [← contByte_toNat, BitVec.ofNat_toNat, BitVec.setWidth_eq]

theorem lastByte_eq {n : Nat} (last : n < 128) : lastByte n = BitVec.ofNat 8 n := by
  rw [← Nat.mod_eq_of_lt last, ← lastByte_toNat, BitVec.ofNat_toNat, BitVec.setWidth_eq, lastByte_toNat,
    Nat.mod_eq_of_lt last]

/-- Settles O38: E_HDR on each verdict, its byte and its shift written as numbers. -/
theorem eHdrEmitsOneHeaderByte : Obligations.EHdrEmitsOneHeaderByte := by
  intro s t a as turn hdr answers
  rw [step_turn turn, fetchSequencer_eHdr hdr, runFetched_settled]
  refine ⟨fun good more => ?goesOn, fun good last => ?last, fun bad => ?fails⟩
  case goesOn =>
    rw [stepEHdr_cont answers good more, contByte_eq, Nat.shiftRight_eq_div_pow]
    simp only [hdr]
    rfl
  case last =>
    rw [stepEHdr_last answers good last, lastByte_eq last, Nat.shiftRight_eq_div_pow, Nat.div_eq_of_lt last]
    rfl
  case fails =>
    rw [stepEHdr_fail answers bad, State.raise, State.lenReg_zero]
    rfl

/-- Settles O39: at the end of the input DONE, before it the Word that SELECT and PACK give. -/
theorem ePackBuildsTheGreedyWord : Obligations.EPackBuildsTheGreedyWord := by
  intro s t turn pack
  rw [step_turn turn, fetchSequencer_ePack pack, runFetched_settled]
  refine ⟨stepEPack_done, fun more legal => ?_⟩
  obtain ⟨r, k, selected, isRun, full, first⟩ := exists_selectRow more (legal t.icur more)
  have ⟨cap, _, fit, _⟩ := isRun
  exact ⟨r, k, _, stepEPack_word more.ne selected, isRun, full, first, packWord_spec cap fit⟩

/-- Settles O40: E_EMIT on each verdict; the sum of the cursor fits, and the free number is the answer's. -/
theorem eEmitWritesTheWord : Obligations.EEmitWritesTheWord := by
  intro s t a as turn emit answers
  rw [step_turn turn, fetchSequencer_eEmit emit, runFetched_settled]
  refine ⟨fun good held => ?taken, fun bad => ⟨movedOf a 4, movedOf_le a 4, ?failed⟩⟩
  case taken =>
    rw [stepEEmit_ok answers good, State.lenReg_of_lt held]
    rfl
  case failed =>
    rw [stepEEmit_fail answers bad, State.raise, State.lenReg_zero]
    rfl

/-! ### The decoders' reads -/

section Source

variable {s : State} {a : Answer} {ans : List Answer} (answers : s.sourceAns = a :: ans)
include answers

theorem stepDWord_ok (good : a.ok = true) (enough : 4 ≤ s.source.length) :
    stepDWord s = .next { s with
      source := s.source.drop 4, sourceAns := ans, wreg := wordOfBytes (s.source.take 4),
      nbytes := s.nbytesReg (s.nbytes + 4), st := .dExt } := by
  rw [stepDWord, sourceRead_ok answers good enough]

theorem stepDWord_fail (fails : a.ok = false ∨ s.source.length < 4) :
    stepDWord s = .next (({ s with
      source := s.source.drop (movedOf a 4), sourceAns := ans } : State).raise ioSource 0) := by
  rw [stepDWord, sourceRead_fail answers fails]

end Source

theorem stepDWord_waiting {s : State} (silent : s.sourceAns = []) : stepDWord s = .next s := by
  rw [stepDWord, sourceRead_waiting silent]

theorem fetchHeader_waiting {s : State} (silent : s.sourceAns = []) : fetchHeader s = .settled (.next s) := by
  rw [fetchHeader, sourceRead_waiting silent]

/-- Settles O41: D_WORD on each verdict; four bytes give the Word of their number, and the free number is the
answer's. -/
theorem dWordReadsOneWord : Obligations.DWordReadsOneWord := by
  intro s t a as turn word answers
  rw [step_turn turn, fetchSequencer_dWord word, runFetched_settled]
  refine ⟨fun b0 b1 b2 b3 rest good source => ?read, fun fails => ⟨movedOf a 4, movedOf_le a 4, ?failed⟩⟩
  case read =>
    rw [stepDWord_ok answers good (by simp [source]), source, ← wordOfBytes_toNat, BitVec.ofNat_toNat,
      BitVec.setWidth_eq]
    rfl
  case failed =>
    rw [stepDWord_fail answers fails, State.raise, State.lenReg_zero]
    rfl

/-- Settles O42: a read of one byte that fails loses none. -/
theorem headerReadFailureRaisesIoSource : Obligations.HeaderReadFailureRaisesIoSource := by
  intro s t a as turn hdr answers fails
  rw [step_turn turn, fetchSequencer_dHdr hdr, fetchHeader_fail answers fails, runFetched_settled, State.raise,
    State.lenReg_zero]
  rfl

/-! ### Waiting -/

theorem run_of_step_self {M : Host.Core} {s : M.State} (still : M.step s = .next s) (k : Nat) :
    M.run k s = .next s := by
  induction k with
  | zero => rfl
  | succ k ih => rw [run_succ_of_next still, ih]

theorem step_of_silent_sink {s : State} (quiet : s.events = []) (writes : s.st = .eHdr ∨ s.st = .eEmit)
    (silent : s.sinkAns = []) : step s = .next s := by
  rw [step_of_no_events quiet]
  rcases writes with hdr | emit
  · rw [fetchSequencer_eHdr hdr, runFetched_settled, stepEHdr_waiting silent]
  · rw [fetchSequencer_eEmit emit, runFetched_settled, stepEEmit_waiting silent]

theorem step_of_silent_source {s : State} (quiet : s.events = []) (reads : s.st = .dHdr ∨ s.st = .dWord)
    (silent : s.sourceAns = []) : step s = .next s := by
  rw [step_of_no_events quiet]
  rcases reads with hdr | word
  · rw [fetchSequencer_dHdr hdr, fetchHeader_waiting silent, runFetched_settled]
  · rw [fetchSequencer_dWord word, runFetched_settled, stepDWord_waiting silent]

/-- Settles O43: the step leaves the state, so every number of steps does. -/
theorem unansweredTransactionWaitsForEver : Obligations.UnansweredTransactionWaitsForEver := by
  intro s k quiet waiting
  rw [State.busy_iff]
  rcases waiting with ⟨writes, silent⟩ | ⟨reads, silent⟩
  · exact ⟨run_of_step_self (M := Sys2Proof.core) (step_of_silent_sink quiet writes silent) k,
      by rcases writes with hdr | emit <;> simp [*]⟩
  · exact ⟨run_of_step_self (M := Sys2Proof.core) (step_of_silent_source quiet reads silent) k,
      by rcases reads with hdr | word <;> simp [*]⟩

end Sys2Proof.Machine
end

section
/-! What one step can do, said once (spec/45_commands_and_sequencer.md R245 to R257): the sequencer's turn by the lines
of the transition table, the commands, and the outside's other events. What every step keeps is read off from here. -/

namespace Sys2Proof.Machine

open Sys2Proof.Safety

/-- `s` with the coming byte of the source read and counted (R252). -/
abbrev State.byteRead (s : State) (ans : List Answer) : State :=
  { s with source := s.source.drop 1, sourceAns := ans, nbytes := s.nbytesReg (s.nbytes + 1) }

/-- `s` after the last byte of its header, which completes N (R252). -/
abbrev State.headerRead (s : State) (ans : List Answer) (v : Nat) : State :=
  { s.byteRead ans with hreg := s.lenReg v, hidx := s.hidx + 1, n := s.lenReg v }

/-- Where the sequencer's turn in `s` can lead (R249 to R257). -/
inductive Turn (s : State) : State → Prop
  /-- Nothing is enabled, or a peer gives no verdict (R255, R256, R261). -/
  | stay : Turn s s
  | headerGoesOn (ans : List Answer) (hdr : s.st = .eHdr) (more : 128 ≤ s.hreg) : Turn s { s with
      sink := s.sink ++ [contByte s.hreg], sinkAns := ans, nbytes := s.nbytesReg (s.nbytes + 1), hidx := s.hidx + 1,
      hreg := s.hreg >>> 7, st := .eHdr }
  | headerEnds (ans : List Answer) (hdr : s.st = .eHdr) : Turn s { s with
      sink := s.sink ++ [lastByte s.hreg], sinkAns := ans, nbytes := s.nbytesReg (s.nbytes + 1), hidx := s.hidx + 1,
      hreg := s.hreg >>> 7, st := .ePack }
  | encoded (pack : s.st = .ePack) (complete : s.icur = s.n) : Turn s { s with st := .done }
  | packed (r : Fin 9) (k : Nat) (pack : s.st = .ePack) (more : s.icur ≠ s.n)
      (selected : selectRow (vinAt s.vin) s.n s.icur = some (r, k)) : Turn s { s with
      wreg := packWord (vinAt s.vin) r k s.icur, kreg := BitVec.ofNat 5 k, st := .eEmit }
  | emitted (ans : List Answer) (emit : s.st = .eEmit) : Turn s { s with
      sink := s.sink ++ le32 s.wreg, sinkAns := ans, nbytes := s.nbytesReg (s.nbytes + 4),
      icur := s.lenReg (s.icur + s.kreg.toNat), st := .ePack }
  | sinkFailed (bs : List Byte) (ans : List Answer) (writes : s.st = .eHdr ∨ s.st = .eEmit) (short : bs.length ≤ 4) :
      Turn s (({ s with sink := s.sink ++ bs, sinkAns := ans } : State).raise ioSink 0)
  | sourceFailed (m : Nat) (ans : List Answer) (reads : s.st = .dHdr ∨ s.st = .dWord) (short : m ≤ 4) :
      Turn s (({ s with source := s.source.drop m, sourceAns := ans } : State).raise ioSource 0)
  | headerRejected (h : Nat) (ans : List Answer) (hdr : s.st = .dHdr) (joins : h = s.hreg ∨ ∃ v, h = s.lenReg v) :
      Turn s (({ s.byteRead ans with hreg := h } : State).raise pvHeader s.hidx.toNat)
  | headerExtended (v : Nat) (ans : List Answer) (g : BitVec 7) (hdr : s.st = .dHdr)
      (group : headerGroup s.params s.hidx.toNat s.hreg g = some v) (more : s.hidx.toNat + 1 ≠ maxHdrBytes s.params) :
      Turn s { s.byteRead ans with hreg := s.lenReg v, hidx := s.hidx + 1, st := .dHdr }
  | noRoom (v : Nat) (ans : List Answer) (hdr : s.st = .dHdr) :
      Turn s ((s.headerRead ans v).raise allocFail (s.lenReg v))
  | emptySequence (v : Nat) (ans : List Answer) (hdr : s.st = .dHdr) (zero : s.lenReg v = 0) :
      Turn s { s.headerRead ans v with st := .done }
  | allocated (v : Nat) (ans : List Answer) (hdr : s.st = .dHdr)
      (room : (s.headerRead ans v).need ≤ s.params.outSlots) (positive : 0 < s.lenReg v) :
      Turn s { s.headerRead ans v with st := .dWord }
  | wordRead (w : Word) (ans : List Answer) (word : s.st = .dWord) : Turn s { s with
      source := s.source.drop 4, sourceAns := ans, wreg := w, nbytes := s.nbytesReg (s.nbytes + 4), st := .dExt }
  | wordWritten (fast : Bool) (r : Fin 9) (ext : s.st = .dExt) (op : s.op = if fast then 3 else 2)
      (room : s.ocnt + wordCount fast s.n s.ocnt r ≤ s.params.outSlots) :
      Turn s (s.putFields s.wreg (rom r).bits (wordCount fast s.n s.ocnt r)).finishExt
  | selectorRejected (sel : Nat) (ext : s.st = .dExt) : Turn s (s.raise pvSelector sel)
  | noDecoder (ext : s.st = .dExt) (not2 : s.op ≠ 2) (not3 : s.op ≠ 3) : Turn s s.finishExt

/-- OP names the decoder `fast`, and a Word of row `r` would not fit into VOUT. -/
def State.NoRoomFor (s : State) (fast : Bool) (r : Fin 9) : Prop :=
  (s.op = if fast then 3 else 2) ∧ s.params.outSlots < s.ocnt + wordCount fast s.n s.ocnt r

/-- The model's two stops in the sequencer's turn: SELECT meets no row (log entry 12), or a Word leaves VOUT (log
entry 13). -/
def State.Stops (s : State) : Prop :=
  (s.st = .ePack ∧ s.icur ≠ s.n ∧ selectRow (vinAt s.vin) s.n s.icur = none) ∨
    (s.st = .dExt ∧ ∃ fast r, s.NoRoomFor fast r)

/-- The outcome is a state that `Turn` lists, or it is no state and `s` is at a stop. -/
def TurnOutcome (s : State) (o : Host.Outcome State Fault Refusal) : Prop :=
  (∃ t, o = .next t ∧ Turn s t) ∨ (∀ t, o ≠ .next t) ∧ s.Stops

/-! ### The sequencer's turn -/

theorem stepEHdr_turn {s : State} (hdr : s.st = .eHdr) : ∃ t, stepEHdr s = .next t ∧ Turn s t := by
  rcases answers : s.sinkAns with _ | ⟨a, ans⟩
  · exact ⟨_, stepEHdr_waiting answers, .stay⟩
  · cases verdict : a.ok with
    | false =>
      refine ⟨_, stepEHdr_fail answers verdict, ?_⟩
      have failed := Turn.sinkFailed (s := s) [] ans (.inl hdr) (by simp)
      rwa [List.append_nil] at failed
    | true =>
      rcases Nat.lt_or_ge s.hreg 128 with last | more
      · exact ⟨_, stepEHdr_last answers verdict last, .headerEnds ans hdr⟩
      · exact ⟨_, stepEHdr_cont answers verdict more, .headerGoesOn ans hdr more⟩

theorem stepEEmit_turn {s : State} (emit : s.st = .eEmit) : ∃ t, stepEEmit s = .next t ∧ Turn s t := by
  rcases answers : s.sinkAns with _ | ⟨a, ans⟩
  · exact ⟨_, stepEEmit_waiting answers, .stay⟩
  · cases verdict : a.ok with
    | false => exact ⟨_, stepEEmit_fail answers verdict, .sinkFailed _ ans (.inr emit) (by simp)⟩
    | true => exact ⟨_, stepEEmit_ok answers verdict, .emitted ans emit⟩

theorem stepDWord_turn {s : State} (word : s.st = .dWord) : ∃ t, stepDWord s = .next t ∧ Turn s t := by
  rcases answers : s.sourceAns with _ | ⟨a, ans⟩
  · exact ⟨_, stepDWord_waiting answers, .stay⟩
  · by_cases fails : a.ok = false ∨ s.source.length < 4
    · have moved := movedOf_le a 4
      exact ⟨_, stepDWord_fail answers fails, .sourceFailed _ ans (.inr word) (by omega)⟩
    · obtain ⟨good, enough⟩ := not_or.1 fails
      exact ⟨_, stepDWord_ok answers (by simpa using good) (by omega), .wordRead _ ans word⟩

/-- E_PACK goes on, or VIN has changed since START checked it. -/
theorem stepEPack_turn {s : State} (pack : s.st = .ePack) : TurnOutcome s (stepEPack s) := by
  by_cases complete : s.icur = s.n
  · exact .inl ⟨_, stepEPack_done complete, .encoded pack complete⟩
  · cases selected : selectRow (vinAt s.vin) s.n s.icur with
    | none =>
      rw [stepEPack, if_neg complete, selected]
      exact .inr ⟨fun _ => nofun, .inl ⟨pack, complete, selected⟩⟩
    | some rk => exact .inl ⟨_, stepEPack_word complete selected, .packed _ _ pack complete selected⟩

/-- Allocation, by the room in VOUT and by N (R252). -/
theorem allocate_turn {s : State} (v : Nat) (ans : List Answer) (hdr : s.st = .dHdr) :
    Turn s (s.headerRead ans v).allocate := by
  rcases Nat.lt_or_ge s.params.outSlots (s.headerRead ans v).need with short | room
  · rw [State.allocate, if_pos short]
    exact .noRoom v ans hdr
  · rcases Nat.eq_zero_or_pos (s.lenReg v) with zero | positive
    · rw [State.allocate_of_zero room zero]
      exact .emptySequence v ans hdr zero
    · rw [State.allocate_of_pos room positive]
      exact .allocated v ans hdr room positive

theorem exec_vbCont_turn {s : State} (ans : List Answer) (g : BitVec 7) (hdr : s.st = .dHdr) :
    ∃ t, exec (.vbCont g) (s.byteRead ans) = .next t ∧ Turn s t := by
  cases group : headerGroup s.params s.hidx.toNat s.hreg g with
  | none => exact ⟨_, exec_vbCont_raises (s := s.byteRead ans) hdr group, .headerRejected s.hreg ans hdr (.inl rfl)⟩
  | some v =>
    by_cases last : s.hidx.toNat + 1 = maxHdrBytes s.params
    · exact ⟨_, exec_vbCont_tooLong (s := s.byteRead ans) hdr group last,
        .headerRejected (s.lenReg v) ans hdr (.inr ⟨v, rfl⟩)⟩
    · refine ⟨_, ?_, .headerExtended v ans g hdr group last⟩
      show execVbCont g (s.byteRead ans) = _
      simp only [execVbCont, if_pos hdr, group, if_neg last]
      rfl

theorem exec_vbLast_turn {s : State} (ans : List Answer) (g : BitVec 7) (hdr : s.st = .dHdr) :
    ∃ t, exec (.vbLast g) (s.byteRead ans) = .next t ∧ Turn s t := by
  cases group : headerGroup s.params s.hidx.toNat s.hreg g with
  | none => exact ⟨_, exec_vbLast_raises (s := s.byteRead ans) hdr group, .headerRejected s.hreg ans hdr (.inl rfl)⟩
  | some v =>
    refine ⟨_, ?_, allocate_turn v ans hdr⟩
    show execVbLast g (s.byteRead ans) = _
    simp only [execVbLast, if_pos hdr, group]
    rfl

theorem fetchHeader_turn {s : State} (hdr : s.st = .dHdr) :
    ∃ t, runFetched (fetchHeader s) = .next t ∧ Turn s t := by
  rcases answers : s.sourceAns with _ | ⟨a, ans⟩
  · exact ⟨_, congrArg runFetched (fetchHeader_waiting answers), .stay⟩
  · by_cases fails : a.ok = false ∨ s.source = []
    · exact ⟨_, congrArg runFetched (fetchHeader_fail answers fails), .sourceFailed 0 ans (.inl hdr) (by omega)⟩
    · obtain ⟨good, more⟩ := not_or.1 fails
      obtain ⟨b, src, source⟩ := List.exists_cons_of_ne_nil more
      have read : runFetched (fetchHeader s) = exec (decodeByte b) (s.byteRead ans) := by
        rw [fetchHeader_byte answers (by simpa using good) source, runFetched_instr, State.byteRead, source]
        rfl
      rw [read, decodeByte]
      split
      · exact exec_vbCont_turn ans _ hdr
      · exact exec_vbLast_turn ans _ hdr

theorem wordExt_turn {s : State} {fast : Bool} {r : Fin 9} (ext : s.st = .dExt) (op : s.op = if fast then 3 else 2) :
    TurnOutcome s (wordExt fast r s.wreg s) := by
  rcases Nat.lt_or_ge s.params.outSlots (s.ocnt + wordCount fast s.n s.ocnt r) with short | room
  · rw [wordExt_fault ext op short]
    exact .inr ⟨fun _ => nofun, .inr ⟨ext, fast, r, op, short⟩⟩
  · exact .inl ⟨_, wordExt_next ext op room, .wordWritten fast r ext op room⟩

theorem fetchWord_turn {s : State} (ext : s.st = .dExt) : TurnOutcome s (runFetched (fetchWord s)) := by
  rcases fetchWord_cases s with ⟨r, op, -, run⟩ | ⟨r, op, -, run⟩ | ⟨r, -, run⟩ | ⟨not2, not3, -, run⟩ <;> rw [run]
  · exact wordExt_turn (fast := false) ext op
  · exact wordExt_turn (fast := true) ext op
  · exact .inl ⟨_, if_pos ext, .selectorRejected _ ext⟩
  · exact .inl ⟨_, rfl, .noDecoder ext not2 not3⟩

theorem turn_outcome (s : State) : TurnOutcome s (runFetched (fetchSequencer s)) := by
  rcases turn_cases s with ⟨-, run⟩ | ⟨st, run⟩ | ⟨st, run⟩ | ⟨st, run⟩ | ⟨st, run⟩ | ⟨st, run⟩ | ⟨st, run⟩ <;>
    rw [run]
  · exact .inl ⟨s, rfl, .stay⟩
  · exact .inl (stepEHdr_turn st)
  · exact stepEPack_turn st
  · exact .inl (stepEEmit_turn st)
  · exact .inl (fetchHeader_turn st)
  · exact .inl (stepDWord_turn st)
  · exact fetchWord_turn st

/-! ### The commands -/

/-- Where a command of code `op` can lead from `s` (R244 to R248). -/
inductive Started (op : BitVec 2) (s : State) : State → Prop
  /-- NOP, or a START in a state that accepts none (R245). -/
  | lost : Started op s s
  | empty (ready : s.st = .idle ∨ s.st = .done) (code : op = 1) : Started op s ((s.startRegs 1 0 0).raise pvEmpty 0)
  | tooLarge (n i : Nat) (ready : s.st = .idle ∨ s.st = .done) (code : op = 1) (held : n < 2 ^ s.params.lenBits) :
      Started op s ((s.startRegs 1 n n).raise pvValue i)
  | encoding (n : Nat) (ready : s.st = .idle ∨ s.st = .done) (code : op = 1) (held : n < 2 ^ s.params.lenBits)
      (positive : 0 < n) (values : ValuesLegal s.vin n) : Started op s { s.startRegs 1 n n with st := .eHdr }
  | decoding (ready : s.st = .idle ∨ s.st = .done) (code : op = 2 ∨ op = 3) :
      Started op s { s.startRegs op 0 0 with st := .dHdr }

theorem exec_encode_started {s : State} (len : Nat) (ready : s.st = .idle ∨ s.st = .done) :
    ∃ t, exec (.encode len) s = .next t ∧ Started 1 s t := by
  have held := s.lenReg_lt len
  rcases Nat.eq_zero_or_pos (s.lenReg len) with empty | positive
  · exact ⟨_, exec_encode_empty ready empty rfl, .empty ready rfl⟩
  · cases scan : firstTooLarge s.vin (s.lenReg len) with
    | some i => exact ⟨_, exec_encode_tooLarge ready rfl scan, .tooLarge _ i ready rfl held⟩
    | none =>
      exact ⟨_, exec_encode_begins ready rfl positive.ne' scan,
        .encoding _ ready rfl held positive (firstTooLarge_eq_none.1 scan)⟩

theorem exec_decodeCmd_started (op : BitVec 2) (len : Nat) (s : State) :
    ∃ t, exec (decodeCmd op len) s = .next t ∧ Started op s t := by
  by_cases ready : s.st = .idle ∨ s.st = .done
  · rcases decodeCmd_code_cases op with run | ⟨rfl, run⟩ | ⟨rfl, run⟩ | ⟨rfl, run⟩ <;> rw [run]
    · exact ⟨s, exec_nop s, .lost⟩
    · exact exec_encode_started len ready
    · rw [exec_decode, State.startDecode_of_ready 2 ready]
      exact ⟨_, rfl, .decoding ready (.inl rfl)⟩
    · rw [exec_decodeFast, State.startDecode_of_ready 3 ready]
      exact ⟨_, rfl, .decoding ready (.inr rfl)⟩
  · obtain ⟨notIdle, notDone⟩ := not_or.1 ready
    exact ⟨s, exec_decodeCmd_lost notIdle notDone op len, .lost⟩

/-! ### The step -/

/-- Where a step can lead: the sequencer's turn, a command, reset, and the caller's preparations, which need the core to
be at rest (R44, R258). -/
inductive Moves (s : State) : State → Prop
  | turn (es : List Event) {t : State} (tick : s.events = [] ∨ s.events = .tick :: es)
      (turn : Turn { s with events := es } t) : Moves s t
  | command (op : BitVec 2) (len : Nat) (es : List Event) {t : State} (command : s.events = .command op len :: es)
      (started : Started op { s with events := es } t) : Moves s t
  | reset (es : List Event) (reset : s.events = .reset :: es) : Moves s ({ s with events := es } : State).resetEvent
  | placeVin (vs : List Slot) (es : List Event) (place : s.events = .placeVin vs :: es) (rest : s.busy = false) :
      Moves s { s with events := es, vin := vs }
  | connectSource (bs : List Byte) (es : List Event) (connect : s.events = .connectSource bs :: es)
      (rest : s.busy = false) : Moves s { s with events := es, source := bs }

theorem sequencerTurn_tick {s u : State} (turn : sequencerTurn s = some u) :
    ∃ es, u = { s with events := es } ∧ (s.events = [] ∨ s.events = .tick :: es) := by
  unfold sequencerTurn at turn
  split at turn
  case h_1 silent =>
    cases turn
    exact ⟨s.events, rfl, .inl silent⟩
  case h_2 es tick =>
    cases turn
    exact ⟨es, rfl, .inr tick⟩
  case h_3 => cases turn

theorem placeVin_next {s t : State} {vs : List Slot} (run : placeVin vs s = .next t) :
    s.busy = false ∧ t = { s with vin := vs } := by
  rw [placeVin] at run
  split at run
  case isTrue => cases run
  case isFalse rest =>
    cases run
    exact ⟨by simpa using rest, rfl⟩

theorem connectSource_next {s t : State} {bs : List Byte} (run : connectSource bs s = .next t) :
    s.busy = false ∧ t = { s with source := bs } := by
  rw [connectSource] at run
  split at run
  case isTrue => cases run
  case isFalse rest =>
    cases run
    exact ⟨by simpa using rest, rfl⟩

theorem moves_of_step {s t : State} (run : step s = .next t) : Moves s t := by
  rcases step_cases s with ⟨u, turn, eq⟩ | ⟨op, len, es, command, eq⟩ | ⟨es, reset, eq⟩ | ⟨vs, es, place, eq⟩ |
      ⟨bs, es, connect, eq⟩ <;> rw [eq] at run
  · obtain ⟨es, rfl, tick⟩ := sequencerTurn_tick turn
    rcases turn_outcome { s with events := es } with ⟨t', next, moved⟩ | ⟨noNext, -⟩
    · cases next.symm.trans run
      exact .turn es tick moved
    · exact absurd run (noNext t)
  · obtain ⟨t', next, started⟩ := exec_decodeCmd_started op (s.lenReg len) { s with events := es }
    cases next.symm.trans run
    exact .command op len es command started
  · cases run
    exact .reset es reset
  · obtain ⟨rest, rfl⟩ := placeVin_next run
    exact .placeVin vs es place rest
  · obtain ⟨rest, rfl⟩ := connectSource_next run
    exact .connectSource bs es connect rest

/-! ### What holds of every step -/

/-- Settles O47: in FAULT no turn and no command does anything; what is left is the caller's. -/
theorem faultIsLeftByResetOnly : Obligations.FaultIsLeftByResetOnly := by
  intro s t fault run notReset
  rcases step_cases s with ⟨u, turn, eq⟩ | ⟨op, len, es, -, eq⟩ | ⟨es, reset, -⟩ | ⟨vs, es, -, eq⟩ |
      ⟨bs, es, connect, eq⟩
  · obtain ⟨es, rfl⟩ := sequencerTurn_eq turn
    rw [eq, fetchSequencer_rest (t := { s with events := es }) (.inr (.inr fault))] at run
    cases run
    exact ⟨rfl, fun _ => rfl⟩
  · rw [eq, exec_decodeCmd_lost (s := { s with events := es }) (by simp [fault]) (by simp [fault])] at run
    cases run
    exact ⟨rfl, fun _ => rfl⟩
  · exact absurd reset (notReset es)
  · obtain ⟨-, rfl⟩ := placeVin_next (eq.symm.trans run)
    exact ⟨rfl, fun _ => rfl⟩
  · obtain ⟨-, rfl⟩ := connectSource_next (eq.symm.trans run)
    exact ⟨rfl, fun other => absurd connect (other bs es)⟩

theorem Turn.vout {s t : State} (turn : Turn s t) : t.vout = s.vout ∨ s.st = .dExt := by
  cases turn with
  | wordWritten fast r ext => exact .inr ext
  | _ => exact .inl rfl

theorem Turn.sink {s t : State} (turn : Turn s t) :
    ∃ bs, t.sink = s.sink ++ bs ∧ bs.length ≤ 4 ∧ (bs = [] ∨ s.st = .eHdr ∨ s.st = .eEmit) := by
  cases turn with
  | headerGoesOn ans hdr => exact ⟨_, rfl, by simp, .inr (.inl hdr)⟩
  | headerEnds ans hdr => exact ⟨_, rfl, by simp, .inr (.inl hdr)⟩
  | emitted ans emit => exact ⟨_, rfl, by simp, .inr (.inr emit)⟩
  | sinkFailed bs ans writes short => exact ⟨bs, rfl, short, .inr writes⟩
  | _ => exact ⟨[], (List.append_nil _).symm, by simp, .inl rfl⟩

theorem Turn.source {s t : State} (turn : Turn s t) :
    ∃ m, m ≤ 4 ∧ t.source = s.source.drop m ∧ (m = 0 ∨ s.st = .dHdr ∨ s.st = .dWord) := by
  cases turn with
  | sourceFailed m ans reads short => exact ⟨m, short, rfl, .inr reads⟩
  | headerRejected h ans hdr => exact ⟨1, by omega, rfl, .inr (.inl hdr)⟩
  | headerExtended v ans g hdr => exact ⟨1, by omega, rfl, .inr (.inl hdr)⟩
  | noRoom v ans hdr => exact ⟨1, by omega, rfl, .inr (.inl hdr)⟩
  | emptySequence v ans hdr => exact ⟨1, by omega, rfl, .inr (.inl hdr)⟩
  | allocated v ans hdr => exact ⟨1, by omega, rfl, .inr (.inl hdr)⟩
  | wordRead w ans word => exact ⟨4, by omega, rfl, .inr (.inr word)⟩
  | _ => exact ⟨0, by omega, rfl, .inl rfl⟩

/-- A command touches neither VOUT nor the peers. -/
theorem Started.spaces {op : BitVec 2} {s t : State} (started : Started op s t) :
    t.vout = s.vout ∧ t.sink = s.sink ∧ t.source = s.source := by
  cases started <;> exact ⟨rfl, rfl, rfl⟩

/-- Settles O50: the sequencer's turn by its lines; everything else writes none of the three, but for the caller's own
connecting of a source. -/
theorem eachSpaceIsReachedByItsOwnSteps : Obligations.EachSpaceIsReachedByItsOwnSteps := by
  intro s t run
  have untouched : ∃ bs, s.sink = s.sink ++ bs ∧ bs.length ≤ 4 ∧ (bs = [] ∨ s.st = .eHdr ∨ s.st = .eEmit) :=
    ⟨[], by simp, by simp, .inl rfl⟩
  have unread : ∃ m, m ≤ 4 ∧ s.source = s.source.drop m ∧ (m = 0 ∨ s.st = .dHdr ∨ s.st = .dWord) :=
    ⟨0, by omega, rfl, .inl rfl⟩
  cases moves_of_step run with
  | turn es _ turn => exact ⟨turn.vout, turn.sink, fun _ => turn.source⟩
  | command op len es _ started =>
    obtain ⟨vout, sink, source⟩ := started.spaces
    rw [sink, source]
    exact ⟨.inl vout, untouched, fun _ => unread⟩
  | connectSource bs es connect => exact ⟨.inl rfl, untouched, fun other => absurd connect (other bs es)⟩
  | _ => exact ⟨.inl rfl, untouched, fun _ => unread⟩

theorem Turn.params_op {s t : State} (turn : Turn s t) : t.params = s.params ∧ t.op = s.op := by
  cases turn <;> exact ⟨rfl, rfl⟩

theorem Started.params {op : BitVec 2} {s t : State} (started : Started op s t) : t.params = s.params := by
  cases started <;> rfl

theorem Started.op {op : BitVec 2} {s t : State} (started : Started op s t) :
    t.op = s.op ∨ (s.st = .idle ∨ s.st = .done) ∧ t.op = op := by
  cases started with
  | lost => exact .inl rfl
  | empty ready code => exact .inr ⟨ready, code.symm⟩
  | tooLarge n i ready code => exact .inr ⟨ready, code.symm⟩
  | encoding n ready code => exact .inr ⟨ready, code.symm⟩
  | decoding ready code => exact .inr ⟨ready, rfl⟩

/-- Settles O51: no turn writes OP, an accepted START writes its own code, reset 0, and nothing writes a parameter. -/
theorem operationAndParametersStayFixed : Obligations.OperationAndParametersStayFixed := by
  intro s t run
  cases moves_of_step run with
  | turn es _ turn =>
    obtain ⟨params, op⟩ := turn.params_op
    exact ⟨params, .inl op⟩
  | command op len es command started =>
    exact ⟨started.params, started.op.imp_right fun ⟨ready, code⟩ => .inr ⟨ready, op, len, es, command, code⟩⟩
  | reset es reset => exact ⟨rfl, .inr (.inl ⟨es, reset⟩)⟩
  | placeVin => exact ⟨rfl, .inl rfl⟩
  | connectSource => exact ⟨rfl, .inl rfl⟩

/-- R257's transitions between different sequencer states, reset apart. -/
def transitions : List (SeqState × SeqState) :=
  [(.idle, .eHdr), (.done, .eHdr), (.idle, .fault), (.done, .fault), (.idle, .dHdr), (.done, .dHdr), (.eHdr, .ePack),
    (.eHdr, .fault), (.ePack, .eEmit), (.ePack, .done), (.eEmit, .ePack), (.eEmit, .fault), (.dHdr, .dWord),
    (.dHdr, .done), (.dHdr, .fault), (.dWord, .dExt), (.dWord, .fault), (.dExt, .dWord), (.dExt, .done),
    (.dExt, .fault)]

theorem finishExt_transition {s t : State} (ext : s.st = .dExt) : (s.st, t.finishExt.st) ∈ transitions := by
  rw [ext, State.finishExt_st]
  split <;> decide

theorem Turn.transition {s t : State} (turn : Turn s t) : s.st = t.st ∨ (s.st, t.st) ∈ transitions := by
  cases turn with
  | stay => exact .inl rfl
  | headerGoesOn ans hdr => exact .inl hdr
  | headerEnds ans hdr => simp [hdr, transitions]
  | encoded pack => simp [pack, transitions]
  | packed r k pack => simp [pack, transitions]
  | emitted ans emit => simp [emit, transitions]
  | sinkFailed bs ans writes => rcases writes with st | st <;> simp [st, transitions]
  | sourceFailed m ans reads => rcases reads with st | st <;> simp [st, transitions]
  | headerRejected h ans hdr => simp [hdr, transitions]
  | headerExtended v ans g hdr => exact .inl hdr
  | noRoom v ans hdr => simp [hdr, transitions]
  | emptySequence v ans hdr => simp [hdr, transitions]
  | allocated v ans hdr => simp [hdr, transitions]
  | wordRead w ans word => simp [word, transitions]
  | wordWritten fast r ext => exact .inr (finishExt_transition ext)
  | selectorRejected sel ext => simp [ext, transitions]
  | noDecoder ext => exact .inr (finishExt_transition ext)

theorem Started.transition {op : BitVec 2} {s t : State} (started : Started op s t) :
    s.st = t.st ∨ (s.st, t.st) ∈ transitions := by
  cases started with
  | lost => exact .inl rfl
  | empty ready => rcases ready with st | st <;> simp [st, transitions]
  | tooLarge n i ready => rcases ready with st | st <;> simp [st, transitions]
  | encoding n ready => rcases ready with st | st <;> simp [st, transitions]
  | decoding ready => rcases ready with st | st <;> simp [st, transitions]

/-- Settles O48: the lines of the turn and of the commands are the table's, and the caller's preparations leave ST. -/
theorem onlyListedTransitionsOccur : Obligations.OnlyListedTransitionsOccur := by
  intro s t run notReset
  cases moves_of_step run with
  | turn es _ turn => exact turn.transition
  | command op len es _ started => exact started.transition
  | reset es reset => exact absurd reset (notReset es)
  | placeVin => exact .inl rfl
  | connectSource => exact .inl rfl

/-- Each fault code with the sequencer states of the steps that raise it (R271). -/
def RaisedIn (code : BitVec 4) (st : SeqState) : Prop :=
  (code = 1 ∧ (st = .idle ∨ st = .done)) ∨ (code = 2 ∧ (st = .idle ∨ st = .done)) ∨ (code = 3 ∧ st = .dExt) ∨
    (code = 4 ∧ st = .dHdr) ∨ (code = 5 ∧ (st = .eHdr ∨ st = .eEmit)) ∨ (code = 6 ∧ (st = .dHdr ∨ st = .dWord)) ∨
    (code = 7 ∧ st = .dHdr)

theorem finishExt_not_fault (s : State) : s.finishExt.st ≠ .fault := by
  rw [State.finishExt_st]
  split <;> decide

theorem Turn.raisedIn {s t : State} (turn : Turn s t) (before : s.st ≠ .fault) (after : t.st = .fault) :
    RaisedIn t.fcode s.st := by
  cases turn with
  | stay => exact absurd after before
  | sinkFailed bs ans writes => exact .inr (.inr (.inr (.inr (.inl ⟨rfl, writes⟩))))
  | sourceFailed m ans reads => exact .inr (.inr (.inr (.inr (.inr (.inl ⟨rfl, reads⟩)))))
  | headerRejected h ans hdr => exact .inr (.inr (.inr (.inl ⟨rfl, hdr⟩)))
  | noRoom v ans hdr => exact .inr (.inr (.inr (.inr (.inr (.inr ⟨rfl, hdr⟩)))))
  | selectorRejected sel ext => exact .inr (.inr (.inl ⟨rfl, ext⟩))
  | wordWritten => exact absurd after (finishExt_not_fault _)
  | noDecoder => exact absurd after (finishExt_not_fault _)
  | _ => cases after

theorem Started.raisedIn {op : BitVec 2} {s t : State} (started : Started op s t) (before : s.st ≠ .fault)
    (after : t.st = .fault) : RaisedIn t.fcode s.st := by
  cases started with
  | lost => exact absurd after before
  | empty ready => exact .inl ⟨rfl, ready⟩
  | tooLarge n i ready => exact .inr (.inl ⟨rfl, ready⟩)
  | _ => cases after

/-- Settles O49: FAULT is entered by a line of the turn or by a START, each with its own code. -/
theorem faultCodesComeFromTheirSteps : Obligations.FaultCodesComeFromTheirSteps := by
  intro s t run before after
  cases moves_of_step run with
  | turn es _ turn => exact turn.raisedIn before after
  | command op len es _ started => exact started.raisedIn before after
  | reset => cases after
  | placeVin => exact absurd after before
  | connectSource => exact absurd after before

end Sys2Proof.Machine
end

section
/-! The invariant of the reachable states (spec/10_state.md R22 to R33, spec/20_memory.md R63): every line of the turn
and every START keeps it, and from it no step stops. -/

namespace Sys2Proof.Machine

open Sys2Proof.Safety

/-! ### The invariant in parts -/

/-- The part of the invariant that does not depend on the sequencer state: parameters, widths, HIDX and VOUT. -/
structure Sound (s : State) : Prop where
  params : s.params.Legal
  widths : Widths s
  hidx : s.hidx.toNat ≤ maxHdrBytes s.params
  voutWf : Memory.wf s.vout
  voutIn : ∀ e ∈ s.vout, e.1 < s.params.outSlots

theorem sound_of_inv {s : State} (inv : Inv s) : Sound s :=
  ⟨inv.params, inv.widths, inv.hidx, inv.voutWf, inv.voutIn⟩

/-- Outside FAULT the fault registers are 0. -/
theorem Sound.inv {s : State} (sound : Sound s) (running : s.st ≠ .fault) (clear : s.fcode = 0 ∧ s.finfo = 0)
    (legal : StateLegal s) : Inv s :=
  ⟨sound.params, sound.widths, fun _ => clear, fun fault => absurd fault running, sound.hidx, sound.voutWf,
    sound.voutIn, legal⟩

/-- Fault entry with one of the codes 1 to 7 makes a sound state one of the invariant (R271, R285). -/
theorem Sound.inv_raise {s : State} (sound : Sound s) {code : BitVec 4} (info : Nat)
    (listed : 1 ≤ code.toNat ∧ code.toNat ≤ 7) : Inv (s.raise code info) where
  params := sound.params
  widths := { sound.widths with finfo := s.lenReg_lt info }
  noFault := fun other => absurd rfl other
  inFault := fun _ => listed
  hidx := sound.hidx
  voutWf := sound.voutWf
  voutIn := sound.voutIn
  legal := trivial

/-! ### The header index and the header's value -/

theorem maxHdrBytes_pos {p : Config.Params} (legal : p.Legal) : 0 < maxHdrBytes p := by
  obtain ⟨minBits, -, -⟩ := legal
  rw [maxHdrBytes]
  omega

theorem hidx_succ {s : State} (legal : s.params.Legal) (within : s.hidx.toNat < maxHdrBytes s.params) :
    (s.hidx + 1).toNat = s.hidx.toNat + 1 := by
  have maxBytes := maxHdrBytes_le legal
  have one : (1 : BitVec 4).toNat = 1 := rfl
  rw [BitVec.toNat_add, one]
  exact Nat.mod_eq_of_lt (by omega)

theorem hidx_succ_le {s : State} (legal : s.params.Legal) (within : s.hidx.toNat < maxHdrBytes s.params) :
    (s.hidx + 1).toNat ≤ maxHdrBytes s.params := by
  rw [hidx_succ legal within]
  exact within

/-- E_HDR needs another byte only where the width allows one more (R8, R249). -/
theorem header_index_bound {p : Config.Params} {n i : Nat} (width : n < 2 ^ p.lenBits)
    (more : 128 ≤ n >>> (7 * i)) : i + 1 < maxHdrBytes p := by
  rw [Nat.shiftRight_eq_div_pow, Nat.le_div_iff_mul_le (Nat.two_pow_pos _)] at more
  have grown : 2 ^ (7 * (i + 1)) ≤ n := by
    rw [Nat.mul_succ, Nat.pow_add, Nat.mul_comm]
    exact more
  have place := (Nat.pow_lt_pow_iff_right (by omega)).1 (grown.trans_lt width)
  rw [maxHdrBytes]
  omega

/-- A value below its byte's place ends below the next byte's place with the group in it (R97). -/
theorem headerGroup_lt_place {p : Config.Params} {i value v : Nat} {g : BitVec 7} (below : value < 2 ^ (7 * i))
    (group : headerGroup p i value g = some v) : v < 2 ^ (7 * (i + 1)) := by
  have place : g.toNat <<< (7 * i) < 2 ^ (7 * (i + 1)) := by
    rw [Nat.shiftLeft_eq, Nat.mul_succ, Nat.pow_add, Nat.mul_comm]
    exact Nat.mul_lt_mul_of_pos_left g.isLt (Nat.two_pow_pos _)
  rw [headerGroup] at group
  split at group
  case isTrue => cases group
  case isFalse =>
    cases group
    exact Nat.or_lt_two_pow (below.trans_le (Nat.pow_le_pow_right (by omega) (by omega))) place

theorem State.lenReg_le (s : State) (v : Nat) : s.lenReg v ≤ v := Nat.mod_le _ _

/-- A Word's fields end at N under DECODE, and below N + 28 under DECODE_FAST (R193, R211). -/
theorem stateLegal_wordWritten {s : State} {fast : Bool} {r : Fin 9} {vout : Memory} (op : s.op = if fast then 3 else 2)
    (decoding : Decoding s) :
    StateLegal { s with vout := vout, ocnt := s.ocnt + wordCount fast s.n s.ocnt r,
                        st := if s.n ≤ s.ocnt + wordCount fast s.n s.ocnt r then .done else .dWord } := by
  have pad := wordCount_le_need (fast := fast) (r := r) decoding.missing
  split
  case isTrue complete =>
    cases fast with
    | false => exact .inr (.inl ⟨op, Nat.le_antisymm pad complete⟩)
    | true => exact .inr (.inr ⟨op, complete, pad⟩)
  case isFalse missing => exact { decoding with missing := Nat.lt_of_not_le missing }

/-! ### The lines of the turn -/

section Turns

variable {s : State} (inv : Inv s)
include inv

theorem encoding_of_eEmit (emit : s.st = .eEmit) :
    Encoding s ∧ 1 ≤ s.kreg.toNat ∧ s.kreg.toNat ≤ 28 ∧ s.icur + s.kreg.toNat ≤ s.n := by
  simpa only [StateLegal, emit] using inv.legal

theorem encoding_of_ePack (pack : s.st = .ePack) : Encoding s := by
  simpa only [StateLegal, pack] using inv.legal

theorem encoding_of_eHdr (hdr : s.st = .eHdr) :
    Encoding s ∧ s.icur = 0 ∧ s.hidx.toNat < maxHdrBytes s.params ∧ s.hreg = s.n >>> (7 * s.hidx.toNat) := by
  simpa only [StateLegal, hdr] using inv.legal

theorem header_of_dHdr (hdr : s.st = .dHdr) :
    (s.op = 2 ∨ s.op = 3) ∧ s.n = 0 ∧ s.ocnt = 0 ∧ s.hidx.toNat < maxHdrBytes s.params ∧
      s.hreg < 2 ^ (7 * s.hidx.toNat) := by
  simpa only [StateLegal, hdr] using inv.legal

theorem decoding_of_dWord (word : s.st = .dWord) : Decoding s := by
  simpa only [StateLegal, word] using inv.legal

theorem decoding_of_dExt (ext : s.st = .dExt) : Decoding s := by
  simpa only [StateLegal, ext] using inv.legal

/-- A header byte is counted and leaves a shorter value (R249). -/
theorem sound_headerSent {st : SeqState} (sink : List Byte) (ans : List Answer)
    (within : s.hidx.toNat < maxHdrBytes s.params) :
    Sound { s with sink := sink, sinkAns := ans, nbytes := s.nbytesReg (s.nbytes + 1), hidx := s.hidx + 1,
                   hreg := s.hreg >>> 7, st := st } :=
  { sound_of_inv inv with
    widths := { inv.widths with
      nbytes := s.nbytesReg_lt _
      hreg := (Nat.shiftRight_le _ _).trans_lt inv.widths.hreg }
    hidx := hidx_succ_le inv.params within }

theorem inv_headerGoesOn (ans : List Answer) (hdr : s.st = .eHdr) (more : 128 ≤ s.hreg) :
    Inv { s with sink := s.sink ++ [contByte s.hreg], sinkAns := ans, nbytes := s.nbytesReg (s.nbytes + 1),
                 hidx := s.hidx + 1, hreg := s.hreg >>> 7, st := .eHdr } := by
  have clear := inv.noFault (by simp [hdr])
  obtain ⟨encoding, icur, within, value⟩ := encoding_of_eHdr inv hdr
  have next := hidx_succ inv.params within
  rw [value] at more
  refine (sound_headerSent inv _ ans within).inv nofun clear
    ⟨{ encoding with }, icur, next ▸ header_index_bound inv.widths.n more, ?_⟩
  show s.hreg >>> 7 = s.n >>> (7 * (s.hidx + 1).toNat)
  rw [next, value, ← Nat.shiftRight_add, Nat.mul_succ]

theorem inv_headerEnds (ans : List Answer) (hdr : s.st = .eHdr) :
    Inv { s with sink := s.sink ++ [lastByte s.hreg], sinkAns := ans, nbytes := s.nbytesReg (s.nbytes + 1),
                 hidx := s.hidx + 1, hreg := s.hreg >>> 7, st := .ePack } := by
  have clear := inv.noFault (by simp [hdr])
  obtain ⟨encoding, -, within, -⟩ := encoding_of_eHdr inv hdr
  exact (sound_headerSent inv _ ans within).inv nofun clear { encoding with }

theorem inv_encoded (pack : s.st = .ePack) (complete : s.icur = s.n) : Inv { s with st := .done } :=
  have clear := inv.noFault (by simp [pack])
  Sound.inv { sound_of_inv inv with widths := { inv.widths with } } nofun clear
    (.inl ⟨(encoding_of_ePack inv pack).op, complete⟩)

theorem inv_packed {r : Fin 9} {k : Nat} (w : Word) (pack : s.st = .ePack) (more : s.icur ≠ s.n)
    (selected : selectRow (vinAt s.vin) s.n s.icur = some (r, k)) :
    Inv { s with wreg := w, kreg := BitVec.ofNat 5 k, st := .eEmit } := by
  have clear := inv.noFault (by simp [pack])
  have encoding := encoding_of_ePack inv pack
  obtain ⟨positive, cap, within, -⟩ := selectRow_bounds (lt_of_le_of_ne encoding.cursor more) selected
  obtain ⟨-, -, capLe, -⟩ := rom_facts r
  have count : (BitVec.ofNat 5 k).toNat = k := Nat.mod_eq_of_lt (by omega)
  refine Sound.inv { sound_of_inv inv with widths := { inv.widths with } } nofun clear
    ⟨{ encoding with }, ?_⟩
  simp only [count]
  omega

theorem inv_emitted (sink : List Byte) (ans : List Answer) (emit : s.st = .eEmit) :
    Inv { s with sink := sink, sinkAns := ans, nbytes := s.nbytesReg (s.nbytes + 4),
                 icur := s.lenReg (s.icur + s.kreg.toNat), st := .ePack } := by
  have clear := inv.noFault (by simp [emit])
  obtain ⟨encoding, -, -, within⟩ := encoding_of_eEmit inv emit
  exact Sound.inv
    { sound_of_inv inv with widths := { inv.widths with nbytes := s.nbytesReg_lt _, icur := s.lenReg_lt _ } } nofun
    clear { encoding with cursor := (s.lenReg_le _).trans within }

/-- Reading a byte of the header keeps a sound state sound, whatever LEN_BITS value joins HREG (R252). -/
theorem sound_byteRead {h : Nat} (ans : List Answer) (held : h < 2 ^ s.params.lenBits) :
    Sound { s.byteRead ans with hreg := h } :=
  { sound_of_inv inv with widths := { inv.widths with nbytes := s.nbytesReg_lt _, hreg := held } }

theorem inv_headerExtended {v : Nat} {g : BitVec 7} (ans : List Answer) (hdr : s.st = .dHdr)
    (group : headerGroup s.params s.hidx.toNat s.hreg g = some v)
    (more : s.hidx.toNat + 1 ≠ maxHdrBytes s.params) :
    Inv { s.byteRead ans with hreg := s.lenReg v, hidx := s.hidx + 1, st := .dHdr } := by
  have clear := inv.noFault (by simp [hdr])
  obtain ⟨op, length, count, within, below⟩ := header_of_dHdr inv hdr
  have next := hidx_succ inv.params within
  have read := sound_byteRead inv ans (s.lenReg_lt v)
  refine Sound.inv { read with widths := { read.widths with }, hidx := hidx_succ_le inv.params within } nofun
    clear ⟨op, length, count, ?_, ?_⟩
  · show (s.hidx + 1).toNat < maxHdrBytes s.params
    omega
  · show s.lenReg v < 2 ^ (7 * (s.hidx + 1).toNat)
    rw [next]
    exact (s.lenReg_le v).trans_lt (headerGroup_lt_place below group)

theorem sound_headerRead {st : SeqState} (ans : List Answer) (v : Nat)
    (within : s.hidx.toNat < maxHdrBytes s.params) : Sound { s.headerRead ans v with st := st } :=
  have read := sound_byteRead inv ans (s.lenReg_lt v)
  { read with
    widths := { read.widths with n := s.lenReg_lt v }
    hidx := hidx_succ_le inv.params within }

theorem inv_emptySequence {v : Nat} (ans : List Answer) (hdr : s.st = .dHdr) (zero : s.lenReg v = 0) :
    Inv { s.headerRead ans v with st := .done } := by
  have clear := inv.noFault (by simp [hdr])
  obtain ⟨op, -, count, within, -⟩ := header_of_dHdr inv hdr
  refine (sound_headerRead inv ans v within).inv nofun clear
    (.inr (op.imp (fun generic => ⟨generic, ?_⟩) fun unrolled => ⟨unrolled, ?_⟩))
  · exact count.trans zero.symm
  · show s.lenReg v ≤ s.ocnt ∧ s.ocnt ≤ s.lenReg v + Config.overrunPad
    omega

theorem inv_allocated {v : Nat} (ans : List Answer) (hdr : s.st = .dHdr)
    (room : (s.headerRead ans v).need ≤ s.params.outSlots) (positive : 0 < s.lenReg v) :
    Inv { s.headerRead ans v with st := .dWord } := by
  have clear := inv.noFault (by simp [hdr])
  obtain ⟨op, -, count, within, -⟩ := header_of_dHdr inv hdr
  exact (sound_headerRead inv ans v within).inv nofun clear
    ⟨op, room, count.trans_lt positive⟩

theorem inv_wordRead (source : List Byte) (ans : List Answer) (w : Word) (word : s.st = .dWord) :
    Inv { s with source := source, sourceAns := ans, wreg := w, nbytes := s.nbytesReg (s.nbytes + 4), st := .dExt } :=
  have clear := inv.noFault (by simp [word])
  Sound.inv { sound_of_inv inv with widths := { inv.widths with nbytes := s.nbytesReg_lt _ } } nofun
    clear { decoding_of_dWord inv word with }

theorem inv_wordWritten {fast : Bool} {r : Fin 9} (w : Word) (ext : s.st = .dExt) (op : s.op = if fast then 3 else 2)
    (room : s.ocnt + wordCount fast s.n s.ocnt r ≤ s.params.outSlots) :
    Inv (s.putFields w (rom r).bits (wordCount fast s.n s.ocnt r)).finishExt := by
  have clear := inv.noFault (by simp [ext])
  have decoding := decoding_of_dExt inv ext
  have counted := ocnt_counted (wordCount_le_need (fast := fast) (r := r) decoding.missing) inv.params inv.widths.n
  have items : s.ocnt + (fieldSlots w (rom r).bits (wordCount fast s.n s.ocnt r)).length ≤ s.params.outSlots := by
    rwa [fieldSlots_length]
  rw [State.finishExt_putFields counted]
  exact Sound.inv
    { sound_of_inv inv with
      widths := { inv.widths with ocnt := counted }
      voutWf := Memory.writeRun_wf inv.voutWf _ _
      voutIn := Memory.writeRun_below inv.voutIn _ _ items }
    (by simp only; split <;> nofun) clear (stateLegal_wordWritten op decoding)

/-- The peers have no part in what is sound. -/
theorem sound_peers (source sink : List Byte) (sourceAns sinkAns : List Answer) :
    Sound { s with source := source, sourceAns := sourceAns, sink := sink, sinkAns := sinkAns } :=
  { sound_of_inv inv with widths := { inv.widths with } }

/-- Every line of the turn keeps the invariant. -/
theorem Turn.keeps_inv {t : State} (turn : Turn s t) : Inv t := by
  have sound := sound_of_inv inv
  cases turn with
  | stay => exact inv
  | headerGoesOn ans hdr more => exact inv_headerGoesOn inv ans hdr more
  | headerEnds ans hdr => exact inv_headerEnds inv ans hdr
  | encoded pack complete => exact inv_encoded inv pack complete
  | packed r k pack more selected => exact inv_packed inv _ pack more selected
  | emitted ans emit => exact inv_emitted inv _ ans emit
  | sinkFailed => exact (sound_peers inv _ _ _ _).inv_raise 0 (by decide)
  | sourceFailed => exact (sound_peers inv _ _ _ _).inv_raise 0 (by decide)
  | headerRejected h ans hdr joins =>
    refine (sound_byteRead inv ans ?_).inv_raise _ (by decide)
    rcases joins with rfl | ⟨v, rfl⟩
    · exact inv.widths.hreg
    · exact s.lenReg_lt v
  | headerExtended v ans g hdr group more => exact inv_headerExtended inv ans hdr group more
  | noRoom v ans hdr =>
    obtain ⟨-, -, -, within, -⟩ := header_of_dHdr inv hdr
    exact (sound_headerRead inv (st := s.st) ans v within).inv_raise _ (by decide)
  | emptySequence v ans hdr zero => exact inv_emptySequence inv ans hdr zero
  | allocated v ans hdr room positive => exact inv_allocated inv ans hdr room positive
  | wordRead w ans word => exact inv_wordRead inv _ ans w word
  | wordWritten fast r ext op room => exact inv_wordWritten inv _ ext op room
  | selectorRejected sel ext => exact sound.inv_raise sel (by decide)
  | noDecoder ext not2 not3 => exact ((decoding_of_dExt inv ext).op.elim not2 not3).elim

/-! ### The commands -/

theorem sound_startRegs {st : SeqState} {n : Nat} (op : BitVec 2) (held : n < 2 ^ s.params.lenBits) :
    Sound { s.startRegs op n n with st := st } :=
  { sound_of_inv inv with
    widths := ⟨held, Nat.two_pow_pos _, Nat.two_pow_pos _, Nat.two_pow_pos _, held, Nat.two_pow_pos _⟩
    hidx := Nat.zero_le _ }

theorem Started.keeps_inv {op : BitVec 2} {t : State} (started : Started op s t) : Inv t := by
  have firstByte := maxHdrBytes_pos inv.params
  cases started with
  | lost => exact inv
  | empty => exact (sound_startRegs inv (st := s.st) 1 (Nat.two_pow_pos _)).inv_raise 0 (by decide)
  | tooLarge n i _ _ held => exact (sound_startRegs inv (st := s.st) 1 held).inv_raise i (by decide)
  | encoding n _ _ held positive values =>
    exact (sound_startRegs inv 1 held).inv nofun ⟨rfl, rfl⟩
      ⟨⟨rfl, positive, values, Nat.zero_le n⟩, rfl, firstByte, rfl⟩
  | decoding _ code =>
    exact (sound_startRegs inv op (Nat.two_pow_pos _)).inv nofun ⟨rfl, rfl⟩
      ⟨code, rfl, rfl, firstByte, Nat.two_pow_pos _⟩

/-! ### The step -/

theorem inv_events (es : List Event) : Inv { s with events := es } := by
  have legal := inv.legal
  refine { inv with widths := { inv.widths with }, legal := ?_ }
  cases st : s.st <;> simp only [StateLegal, st] at legal ⊢
  case eHdr =>
    obtain ⟨encoding, header⟩ := legal
    exact ⟨{ encoding with }, header⟩
  case ePack => exact { legal with }
  case eEmit =>
    obtain ⟨encoding, count⟩ := legal
    exact ⟨{ encoding with }, count⟩
  case dHdr => exact legal
  case dWord => exact { legal with }
  case dExt => exact { legal with }
  case done => exact legal

/-- At rest the sequencer state implies nothing of VIN and of the source. -/
theorem inv_prepared (vin : List Slot) (source : List Byte) (rest : s.busy = false) :
    Inv { s with vin := vin, source := source } := by
  have legal := inv.legal
  refine { inv with widths := { inv.widths with }, legal := ?_ }
  cases st : s.st <;> simp only [State.busy, st, Bool.true_eq_false] at rest <;> simp only [StateLegal, st] at legal ⊢
  exact legal

end Turns

/-- Settles O44: every register is 0 in the reset state, which is in IDLE. -/
theorem invariantHoldsAtReset : Obligations.InvariantHoldsAtReset :=
  Sound.inv ⟨by decide, ⟨by decide, by decide, by decide, by decide, by decide, by decide⟩, by decide,
    State.reset_vout_wf, nofun⟩ nofun ⟨rfl, rfl⟩ trivial

/-- Settles O45: what is fetched runs on a state of the invariant, and each thing a step can be keeps it. -/
theorem everyStepKeepsTheInvariant : Obligations.EveryStepKeepsTheInvariant := by
  intro s t inv run
  cases moves_of_step run with
  | turn es _ turn => exact turn.keeps_inv (inv_events inv es)
  | command op len es _ started => exact started.keeps_inv (inv_events inv es)
  | reset es =>
    exact (sound_startRegs (inv_events inv es) (st := .idle) 0 (Nat.two_pow_pos _)).inv nofun ⟨rfl, rfl⟩ trivial
  | placeVin vs es _ rest => exact inv_prepared (inv_events inv es) vs s.source rest
  | connectSource bs es _ rest => exact inv_prepared (inv_events inv es) s.vin bs rest

/-! ### No stop -/

/-- From the invariant neither stop of the turn is met: SELECT finds a row, and the slots written exist (R165, R223). -/
theorem not_stops {s : State} (inv : Inv s) : ¬ s.Stops := by
  rintro (⟨pack, more, unmet⟩ | ⟨ext, fast, r, op, short⟩)
  · have encoding := encoding_of_ePack inv pack
    have within := lt_of_le_of_ne encoding.cursor more
    obtain ⟨r, k, met⟩ := selectRow_isSome within (encoding.values _ within)
    cases unmet.symm.trans met
  · have decoding := decoding_of_dExt inv ext
    have room := decoding.room
    rw [State.need_of_op op] at room
    have pad := wordCount_le_need (fast := fast) (r := r) decoding.missing
    omega

/-- Settles O46: no turn stops, no command ever does, and the caller's preparations are refused only while busy. -/
theorem noReachableStepStops : Obligations.NoReachableStepStops := by
  intro s inv still
  rcases step_cases s with ⟨u, turn, eq⟩ | ⟨op, len, es, -, eq⟩ | ⟨es, -, eq⟩ | ⟨vs, es, place, eq⟩ |
      ⟨bs, es, connect, eq⟩ <;> rw [eq]
  · obtain ⟨es, rfl⟩ := sequencerTurn_eq turn
    rcases turn_outcome { s with events := es } with ⟨t, next, -⟩ | ⟨-, stops⟩
    · exact ⟨t, next⟩
    · exact absurd stops (not_stops (inv_events inv es))
  · obtain ⟨t, next, -⟩ := exec_decodeCmd_started op (s.lenReg len) { s with events := es }
    exact ⟨t, next⟩
  · exact ⟨_, rfl⟩
  · have rest : s.busy = false := by simpa only [CallerKeepsStill, place] using still
    exact ⟨_, if_neg (ne_true_of_eq_false rest)⟩
  · have rest : s.busy = false := by simpa only [CallerKeepsStill, connect] using still
    exact ⟨_, if_neg (ne_true_of_eq_false rest)⟩

end Sys2Proof.Machine
end

section
/-! The whole operations as functions (spec/42_block_encoder.md R171, R173, spec/43_generic_decoder.md R196,
spec/44_unrolled_decoder.md R222 to R226): how long a Stream is, what a decode consumes and writes, and that the two
decoders end alike. -/

namespace Sys2Proof.Machine

open Sys2Proof.Safety

/-! ### The length of a Stream -/

/-- A Word takes 1 to 28 Values, so the Words from a cursor on are bounded both ways (R173 (b)). -/
theorem encodeBody_length {v : Nat → Slot} {n fuel idx : Nat}
    (legal : ∀ i, i < n → (v i).toNat ≤ Config.maxValue) (within : idx ≤ n) (enough : n ≤ idx + fuel) :
    ∃ m, (encodeBody v n fuel idx).length = 4 * m ∧ n - idx ≤ 28 * m ∧ m ≤ n - idx := by
  induction fuel generalizing idx with
  | zero => exact ⟨0, rfl, by omega, by omega⟩
  | succ fuel ih =>
    rcases Nat.eq_or_lt_of_le within with rfl | more
    · exact ⟨0, by rw [encodeBody_complete le_rfl]; rfl, by omega, by omega⟩
    · obtain ⟨r, k, selected⟩ := selectRow_isSome more (legal idx more)
      obtain ⟨positive, cap, inside, -⟩ := selectRow_bounds more selected
      obtain ⟨-, -, capLe, -⟩ := rom_facts r
      obtain ⟨m, length, low, high⟩ := ih (idx := idx + k) inside (by omega)
      refine ⟨m + 1, ?_, by omega, by omega⟩
      rw [encodeBody_word more selected, List.length_append, le32_length, length]
      omega

/-- Settles O52: the header, and then the Words from cursor 0 on. -/
theorem streamLengthIsHeaderPlusWords : Obligations.StreamLengthIsHeaderPlusWords := by
  intro v _ values
  obtain ⟨m, length, low, high⟩ := encodeBody_length (fuel := v.length) (idx := 0) (valuesLegal_of_forall values)
    (Nat.zero_le _) (by omega)
  refine ⟨m, ?_, by omega, by omega⟩
  rw [encodeStream, List.length_append, length]

/-- Row 0 accepts Values of one bit, and it is the first row (R141, R165). -/
theorem selectRow_of_bits {v : Nat → Slot} {n idx : Nat} (more : idx < n)
    (bits : ∀ i, i < n → (v i).toNat ≤ 1) : selectRow v n idx = some (0, min 28 (n - idx)) := by
  have isRun : IsRun v n (rom 0) idx (min 28 (n - idx)) := by
    refine ⟨Nat.min_le_left _ _, Nat.min_le_right _ _, fun j within => ?_, fun cap input => ?_⟩
    · exact Nat.lt_succ_of_le (bits (idx + j) (by omega))
    · have full : (rom 0).cap = 28 := rfl
      omega
  have run := isRun_unique isRun (runLength_isRun v n 0 idx)
  have accepted : accepts v n 0 idx = true := by
    rw [accepts_iff, ← run]
    exact (le_total 28 (n - idx)).imp Nat.min_eq_left fun _ => by omega
  have legal : (v idx).toNat ≤ Config.maxValue := (bits idx more).trans (by decide)
  obtain ⟨r, k, selected⟩ := selectRow_isSome more legal
  obtain ⟨-, rfl, first⟩ := selectRow_some selected
  rcases eq_or_ne r 0 with rfl | later
  · rw [selected, run]
  · cases accepted.symm.trans (first 0 (Fin.pos_of_ne_zero later))

theorem encodeBody_length_of_bits {v : Nat → Slot} {n fuel idx : Nat} (bits : ∀ i, i < n → (v i).toNat ≤ 1)
    (within : idx ≤ n) (enough : n ≤ idx + fuel) :
    (encodeBody v n fuel idx).length = 4 * ((n - idx + 27) / 28) := by
  induction fuel generalizing idx with
  | zero =>
    rw [encodeBody_complete (by omega), List.length_nil]
    omega
  | succ fuel ih =>
    rcases Nat.eq_or_lt_of_le within with rfl | more
    · rw [encodeBody_complete le_rfl, List.length_nil]
      omega
    · rw [encodeBody_word more (selectRow_of_bits more bits), List.length_append, le32_length,
        ih (by omega) (by omega)]
      omega

/-- Settles O53: every Word is one of row 0, and full but for the last. -/
theorem trivialInputTakesTheFewestWords : Obligations.TrivialInputTakesTheFewestWords := by
  intro v _ values
  have bits : ∀ i, i < v.length → (vinAt v i).toNat ≤ 1 := by
    intro i within
    rw [vinAt, List.getElem?_eq_getElem within]
    exact values _ (List.getElem_mem within)
  rw [encodeStream, List.length_append, encodeBody_length_of_bits bits (Nat.zero_le _) (by omega), Nat.sub_zero]

/-! ### The ends of a decode -/

section Ends

variable {p : Config.Params} {fast : Bool} {src words : List Byte} {n c : Nat}

theorem decodeStream_of_faulted {code : BitVec 4} {info : Nat} (header : vbDecode p src = .faulted code info) :
    decodeStream p fast src = .faulted code info := by
  rw [decodeStream, header]

theorem decodeStream_of_noRoom (header : vbDecode p src = .decoded n c words)
    (short : p.outSlots < n + if fast then Config.overrunPad else 0) :
    decodeStream p fast src = .faulted allocFail n := by
  rw [decodeStream, header]
  exact if_pos short

theorem decodeStream_of_room (header : vbDecode p src = .decoded n c words)
    (room : n + (if fast then Config.overrunPad else 0) ≤ p.outSlots) :
    decodeStream p fast src = decodeBody fast n n [] c words := by
  rw [decodeStream, header]
  exact if_neg room.not_gt

/-- A decode that ends well has read a header, had room, and run the loop. -/
theorem decodeStream_finished {out : List Slot} {m total : Nat} {rest : List Byte}
    (finished : decodeStream p fast src = .finished out m total rest) :
    ∃ n c words, vbDecode p src = .decoded n c words ∧ n + (if fast then Config.overrunPad else 0) ≤ p.outSlots ∧
      decodeBody fast n n [] c words = .finished out m total rest := by
  cases header : vbDecode p src with
  | faulted code info => cases (decodeStream_of_faulted header).symm.trans finished
  | decoded n c words =>
    rcases Nat.lt_or_ge p.outSlots (n + if fast then Config.overrunPad else 0) with short | room
    · cases (decodeStream_of_noRoom header short).symm.trans finished
    · exact ⟨n, c, words, rfl, room, (decodeStream_of_room header room).symm.trans finished⟩

end Ends

/-- What the loop of a decode that ends well has consumed and written (R196, R222, R223). -/
theorem decodeBody_finished {fast : Bool} {n fuel nbytes m total : Nat} {slots out : List Slot} {src rest : List Byte}
    (enough : n ≤ slots.length + fuel) (pad : slots.length ≤ n + if fast then Config.overrunPad else 0)
    (finished : decodeBody fast n fuel slots nbytes src = .finished out m total rest) :
    m = n ∧ (∃ read, src = read ++ rest ∧ total = nbytes + read.length) ∧ n ≤ out.length ∧
      out.length ≤ n + if fast then Config.overrunPad else 0 := by
  induction fuel generalizing slots nbytes src with
  | zero =>
    cases finished
    exact ⟨rfl, ⟨[], rfl, rfl⟩, enough, pad⟩
  | succ fuel ih =>
    rcases Nat.lt_or_ge slots.length n with missing | complete
    · obtain ⟨four, r, selector⟩ := decodeBody_finished_word missing finished
      have taken := wordCount_pos (fast := fast) (r := r) missing
      have within := wordCount_le_need (fast := fast) (r := r) missing
      rw [decodeBody_word missing four selector] at finished
      obtain ⟨length, ⟨read, source, count⟩, bounds⟩ := ih (by rw [List.length_append, fieldSlots_length]; omega)
        (by rw [List.length_append, fieldSlots_length]; exact within) finished
      refine ⟨length, ⟨src.take 4 ++ read, ?_, ?_⟩, bounds⟩
      · rw [List.append_assoc, ← source, List.take_append_drop]
      · rw [count, List.length_append, List.length_take, Nat.min_eq_left four, Nat.add_assoc]
    · rw [decodeBody_complete complete] at finished
      cases finished
      exact ⟨rfl, ⟨[], rfl, rfl⟩, complete, pad⟩

/-- What a whole decode that ends well has consumed and written. -/
theorem decodeStream_consumed {p : Config.Params} {fast : Bool} {src rest : List Byte} {out : List Slot}
    {n total : Nat} (finished : decodeStream p fast src = .finished out n total rest) :
    (∃ read, src = read ++ rest ∧ read.length = total) ∧ n ≤ out.length ∧
      out.length ≤ n + (if fast then Config.overrunPad else 0) ∧
      n + (if fast then Config.overrunPad else 0) ≤ p.outSlots := by
  obtain ⟨n', c, words, header, room, body⟩ := decodeStream_finished finished
  obtain ⟨rfl, ⟨read, rfl, rfl⟩, low, high⟩ := decodeBody_finished (by simp) (Nat.zero_le _) body
  obtain ⟨first, rfl, rfl, -⟩ := vbDecodeBytes_consumed header
  exact ⟨⟨first ++ read, by rw [List.append_assoc], by rw [List.length_append, Nat.zero_add]⟩, low, high, room⟩

/-- Settles O54: the header's bytes and then the loop's. -/
theorem decodeConsumesWhatItCounts : Obligations.DecodeConsumesWhatItCounts :=
  fun _ _ _ _ _ _ _ _ finished => decodeStream_consumed finished

/-! ### The two decoders -/

/-- The first `n` slots of a decode that ends well: what DECODE_FAST has without its overrun. -/
def DecodeEnd.truncate (n : Nat) : DecodeEnd → DecodeEnd
  | .finished slots m total rest => .finished (slots.take n) m total rest
  | .faulted code info => .faulted code info

theorem decodeBody_short {fast : Bool} {n fuel nbytes : Nat} {slots : List Slot} {src : List Byte}
    (missing : slots.length < n) (short : src.length < 4) :
    decodeBody fast n (fuel + 1) slots nbytes src = .faulted ioSource 0 := by
  rw [decodeBody, if_neg missing.not_ge, if_pos short]

theorem decodeBody_illegal {fast : Bool} {n fuel nbytes : Nat} {slots : List Slot} {src : List Byte}
    (missing : slots.length < n) (enough : 4 ≤ src.length)
    (illegal : 9 ≤ (selectorOf (wordOfBytes (src.take 4))).toNat) :
    decodeBody fast n (fuel + 1) slots nbytes src =
      .faulted pvSelector (selectorOf (wordOfBytes (src.take 4))).toNat := by
  rw [decodeBody, if_neg missing.not_ge, if_neg enough.not_gt]
  exact dif_neg illegal.not_gt

theorem fieldSlots_take (w : Word) (bits k m : Nat) :
    (fieldSlots w bits k).take m = fieldSlots w bits (min m k) := by
  rw [fieldSlots, ← List.map_take, List.take_range, fieldSlots]

/-- A tree's items without the overrun are the generic extractor's. -/
theorem append_fieldSlots_take {slots : List Slot} {n : Nat} (w : Word) (r : Fin 9) (missing : slots.length < n) :
    (slots ++ fieldSlots w (rom r).bits (wordCount true n slots.length r)).take n =
      slots ++ fieldSlots w (rom r).bits (wordCount false n slots.length r) := by
  rw [List.take_append, List.take_of_length_le missing.le, fieldSlots_take, wordCount_generic, wordCount_unrolled,
    Nat.min_comm]

/-- The loops of the two decoders go alike but for the overrun (R226). -/
theorem decodeBody_generic_eq {n fuel nbytes : Nat} {slots : List Slot} {src : List Byte}
    (within : slots.length ≤ n) :
    decodeBody false n fuel slots nbytes src = (decodeBody true n fuel slots nbytes src).truncate n := by
  induction fuel generalizing slots nbytes src with
  | zero => simp only [decodeBody, DecodeEnd.truncate, List.take_of_length_le within]
  | succ fuel ih =>
    rcases Nat.lt_or_ge slots.length n with missing | complete
    · rcases Nat.lt_or_ge src.length 4 with short | enough
      · rw [decodeBody_short missing short, decodeBody_short missing short, DecodeEnd.truncate]
      · rcases Nat.lt_or_ge (selectorOf (wordOfBytes (src.take 4))).toNat 9 with legal | illegal
        · rw [decodeBody_word (r := ⟨_, legal⟩) missing enough rfl,
            decodeBody_word (r := ⟨_, legal⟩) missing enough rfl]
          have pad : _ ≤ n + 0 := wordCount_le_need (fast := false) (r := ⟨_, legal⟩) missing
          rcases wordCount_generic_cases ⟨_, legal⟩ missing with same | ⟨full, beyond⟩
          · rw [← same]
            exact ih (by rw [List.length_append, fieldSlots_length]; exact pad)
          · rw [decodeBody_complete (by rw [List.length_append, fieldSlots_length]; exact full.ge),
              decodeBody_complete (by rw [List.length_append, fieldSlots_length]; exact beyond), DecodeEnd.truncate,
              append_fieldSlots_take _ _ missing]
        · rw [decodeBody_illegal missing enough illegal, decodeBody_illegal missing enough illegal,
            DecodeEnd.truncate]
    · rw [decodeBody_complete complete, decodeBody_complete complete, DecodeEnd.truncate,
        List.take_of_length_le within]

/-- DECODE where DECODE_FAST has room: the same end without the overrun. -/
theorem decodeStream_generic_eq {p : Config.Params} {src words : List Byte} {n c : Nat}
    (header : vbDecode p src = .decoded n c words) (room : n + Config.overrunPad ≤ p.outSlots) :
    decodeStream p false src = (decodeStream p true src).truncate n := by
  have less : n + 0 ≤ p.outSlots := (Nat.add_le_add_left (Nat.zero_le _) n).trans room
  rw [decodeStream_of_room (fast := true) header room, decodeStream_of_room (fast := false) header less]
  exact decodeBody_generic_eq (Nat.zero_le n)

/-- Settles O55: the header is read alike, DECODE_FAST needs more room, and with that room the loops go alike. -/
theorem fastDecoderAgreesWithGenericDecoder : Obligations.FastDecoderAgreesWithGenericDecoder := by
  intro p src _
  cases header : vbDecode p src with
  | faulted code info =>
    rw [decodeStream_of_faulted header, decodeStream_of_faulted header]
    exact ⟨nofun, fun _ _ _ fault => fault, fun _ _ fault => .inl fault⟩
  | decoded n c words =>
    rcases Nat.lt_or_ge p.outSlots (n + Config.overrunPad) with short | room
    · rw [decodeStream_of_noRoom (fast := true) header short]
      refine ⟨nofun, fun code info other fault => ?_, fun _ _ _ => .inr ⟨n, rfl⟩⟩
      cases fault
      exact absurd rfl other
    · have same := decodeStream_generic_eq header room
      have run := decodeStream_of_room (fast := true) header room
      cases ended : decodeStream p true src with
      | faulted code info =>
        rw [ended] at same
        rw [same]
        exact ⟨nofun, fun _ _ _ fault => fault, fun _ _ fault => .inl fault⟩
      | finished slots m total rest =>
        obtain ⟨rfl, -⟩ := decodeBody_finished (by simp) (Nat.zero_le _) (run.symm.trans ended)
        rw [ended] at same
        rw [same]
        refine ⟨fun slots' n' nbytes' rest' finished => ?_, nofun, nofun⟩
        cases finished
        rfl

/-- Settles O56: the decoders give the Values back slot by slot, and the list of the first of them is the Sequence. -/
theorem decodeOfEncodeIsTheSequence : Obligations.DecodeOfEncodeIsTheSequence := by
  intro p fast v rest legal _ width values room
  obtain ⟨slots, decoded, complete, written⟩ := decodeStream_encodeStream rest legal width values room
  refine ⟨slots, decoded, List.ext_getElem? fun i => ?_⟩
  rw [List.getElem?_take]
  split
  case isTrue within => exact written i within
  case isFalse past => exact (List.getElem?_eq_none (Nat.le_of_not_lt past)).symm

end Sys2Proof.Machine
end

section
/-! The steps of a decode against the function (spec/45_commands_and_sequencer.md R259): a decode that ends well is
already followed to its last state, whose slots are read here; a decode that faults is followed to its fault. -/

namespace Sys2Proof.Machine

open Sys2Proof.Safety

/-! ### A decode that ends well -/

/-- The slots of a decode between two Words or at its end. -/
theorem bodyAt_read (s : State) (slots : List Slot) (nbytes : Nat) (src : List Byte) (ans : List Answer) (w : Word)
    (i : Nat) : Memory.read (s.bodyAt slots nbytes src ans w).vout i =
      if i < slots.length then slots[i]? else Memory.read s.vout i := by
  rw [State.bodyAt, Memory.read_writeRun, Nat.sub_zero, Nat.zero_add]
  exact if_congr (by simp) rfl rfl

/-- Settles O58: the steps reach DONE with the function's slots written from slot 0 on, and these end within the
need. -/
theorem decodeStepsFollowTheFunction : Obligations.DecodeStepsFollowTheFunction := by
  intro s fast len slots n nbytes rest legal ready command good enough finished
  obtain ⟨-, low, high, -⟩ := decodeStream_consumed finished
  obtain ⟨hidx, ans, w, run⟩ := reaches_of_decodeStream legal ready command ⟨good, enough⟩ finished
  obtain ⟨k, steps⟩ := exists_runFor_of_reaches run
  refine ⟨k, _, steps, if_pos low, rfl, rfl, rfl, fun i below => ?result, fun i above => ?untouched, rfl, rfl⟩
  case result => rw [bodyAt_read, if_pos (below.trans_le low)]
  case untouched =>
    rw [bodyAt_read, if_neg (high.trans above).not_gt]
    rfl

/-! ### The header's faults -/

/-- `t` is in FAULT with this code and this information. -/
def FaultedWith (code : BitVec 4) (info : Nat) (t : State) : Prop := t.st = .fault ∧ t.fcode = code ∧ t.finfo = info

/-- Fault entry with a detail that FINFO holds. -/
theorem faultedWith_raise {s : State} {info : Nat} (code : BitVec 4) (held : info < 2 ^ s.params.lenBits) :
    FaultedWith code info (s.raise code info) := ⟨rfl, rfl, State.lenReg_of_lt held⟩

/-- Four bits are within every legal LEN_BITS. -/
theorem lt_two_pow_of_lt_16 {p : Config.Params} {info : Nat} (legal : p.Legal) (small : info < 16) :
    info < 2 ^ p.lenBits := by
  obtain ⟨minBits, -, -⟩ := legal
  have wide : 2 ^ 4 ≤ 2 ^ p.lenBits := Nat.pow_le_pow_right (by omega) (by omega)
  omega

/-- A header that faults has no first byte, has one that is rejected, or goes on after it. -/
theorem vbDecodeBytes_faulted_cases {p : Config.Params} {fuel i value info : Nat} {src : List Byte} {code : BitVec 4}
    (faulted : vbDecodeBytes p (fuel + 1) i value src = .faulted code info) :
    (src = [] ∧ code = ioSource ∧ info = 0) ∨
      ∃ b src', src = b :: src' ∧
        ((code = pvHeader ∧ info = i ∧
            (headerGroup p i value (groupOf b) = none ∨ b.msb = true ∧ i + 1 = maxHdrBytes p)) ∨
          ∃ v, b.msb = true ∧ headerGroup p i value (groupOf b) = some v ∧ i + 1 ≠ maxHdrBytes p ∧
            vbDecodeBytes p fuel (i + 1) v src' = .faulted code info) := by
  cases src with
  | nil =>
    cases faulted
    exact .inl ⟨rfl, rfl, rfl⟩
  | cons b src =>
    refine .inr ⟨b, src, rfl, ?_⟩
    rw [vbDecodeBytes] at faulted
    cases group : headerGroup p i value (groupOf b) with
    | none =>
      rw [group] at faulted
      cases faulted
      exact .inl ⟨rfl, rfl, .inl rfl⟩
    | some v =>
      simp only [group] at faulted
      cases marker : b.msb with
      | false =>
        rw [if_neg (by simp [marker])] at faulted
        cases faulted
      | true =>
        rw [if_pos marker] at faulted
        split at faulted
        case isTrue last =>
          cases faulted
          exact .inl ⟨rfl, rfl, .inr ⟨rfl, last⟩⟩
        case isFalse more => exact .inr ⟨v, rfl, rfl, more, faulted⟩

/-- A byte that VB_DEC rejects raises PV_HEADER with its index, as VB_CONT or as VB_LAST (R123, R252). -/
theorem exec_decodeByte_raises {s : State} {b : Byte} (hdr : s.st = .dHdr)
    (rejected : headerGroup s.params s.hidx.toNat s.hreg (groupOf b) = none ∨
      b.msb = true ∧ s.hidx.toNat + 1 = maxHdrBytes s.params) :
    ∃ h, exec (decodeByte b) s = .next (({ s with hreg := h } : State).raise pvHeader s.hidx.toNat) := by
  cases group : headerGroup s.params s.hidx.toNat s.hreg (groupOf b) with
  | none =>
    refine ⟨s.hreg, ?_⟩
    rw [decodeByte]
    split
    · exact exec_vbCont_raises hdr group
    · exact exec_vbLast_raises hdr group
  | some v =>
    rw [group] at rejected
    obtain ⟨cont, last⟩ := rejected.resolve_left nofun
    rw [decodeByte, if_pos cont]
    exact ⟨s.lenReg v, exec_vbCont_tooLong hdr group last⟩

theorem step_dHdr_fail {s : State} {a : Answer} {ans : List Answer} (quiet : s.events = []) (hdr : s.st = .dHdr)
    (answers : s.sourceAns = a :: ans) (fails : a.ok = false ∨ s.source = []) :
    step s = .next (({ s with sourceAns := ans } : State).raise ioSource 0) := by
  rw [step_of_no_events quiet, fetchSequencer_dHdr hdr, fetchHeader_fail answers fails, runFetched_settled]

/-- A source with no byte left (R277). -/
theorem step_headerAt_exhausted {s : State} {i value : Nat} {a : Answer} (ans : List Answer) (quiet : s.events = []) :
    ∃ t, step (s.headerAt i value [] (a :: ans)) = .next t ∧ FaultedWith ioSource 0 t :=
  ⟨_, step_dHdr_fail (s := s.headerAt i value [] (a :: ans)) quiet rfl rfl (.inr rfl),
    faultedWith_raise ioSource (Nat.two_pow_pos _)⟩

theorem step_headerAt_rejected {s : State} {i value : Nat} {a : Answer} {b : Byte} (ans : List Answer)
    (legal : s.params.Legal) (quiet : s.events = []) (src : List Byte) (within : i < maxHdrBytes s.params)
    (good : a.ok = true)
    (rejected : headerGroup s.params i value (groupOf b) = none ∨ b.msb = true ∧ i + 1 = maxHdrBytes s.params) :
    ∃ t, step (s.headerAt i value (b :: src) (a :: ans)) = .next t ∧ FaultedWith pvHeader i t := by
  have index := headerAt_hidx src ans value legal within
  have maxBytes := maxHdrBytes_le legal
  rw [← index] at rejected
  obtain ⟨h, raised⟩ :=
    exec_decodeByte_raises (s := { s.headerAt i value src ans with nbytes := i + 1 }) rfl rejected
  rw [index] at raised
  refine ⟨_, (step_headerAt src ans legal quiet within good value).trans raised, faultedWith_raise pvHeader ?_⟩
  exact lt_two_pow_of_lt_16 legal (by omega)

/-- D_HDR goes to the fault that VB_DEC on the byte list ends with (R252). -/
theorem reaches_header_fault {s : State} {fuel i value info : Nat} {src : List Byte} {ans : List Answer}
    {code : BitVec 4} (legal : s.params.Legal) (quiet : s.events = []) (within : i < maxHdrBytes s.params)
    (permitted : i + fuel = maxHdrBytes s.params) (below : value < 2 ^ s.params.lenBits) (delivers : Delivers ans src)
    (faulted : vbDecodeBytes s.params fuel i value src = .faulted code info) :
    ∃ t, Reaches (s.headerAt i value src ans) t ∧ FaultedWith code info t := by
  induction fuel generalizing i value src ans with
  | zero => omega
  | succ fuel ih =>
    obtain ⟨a, ans, rfl, good, delivers⟩ := delivers.eq_cons
    rcases vbDecodeBytes_faulted_cases faulted with ⟨rfl, rfl, rfl⟩ | ⟨b, src, rfl, ⟨rfl, rfl, rejected⟩ | next⟩
    · obtain ⟨t, raised, fault⟩ := step_headerAt_exhausted (i := i) (value := value) (a := a) ans quiet
      exact ⟨t, .single raised, fault⟩
    · obtain ⟨t, raised, fault⟩ := step_headerAt_rejected ans legal quiet src within good rejected
      exact ⟨t, .single raised, fault⟩
    · obtain ⟨v, cont, group, more, faulted⟩ := next
      have first := step_headerAt_cont src ans legal quiet within good more cont below group
      obtain ⟨t, run, fault⟩ :=
        ih (by omega) (by omega) (headerGroup_lt below group) (delivers 1 le_rfl (by simp)) faulted
      exact ⟨t, .head first run, fault⟩

/-! ### The Words' faults -/

/-- A loop that faults misses items; it has too few bytes, meets an illegal selector, or goes on after a Word. -/
theorem decodeBody_faulted_cases {fast : Bool} {n fuel nbytes info : Nat} {slots : List Slot} {src : List Byte}
    {code : BitVec 4} (faulted : decodeBody fast n (fuel + 1) slots nbytes src = .faulted code info) :
    slots.length < n ∧
      ((src.length < 4 ∧ code = ioSource ∧ info = 0) ∨
        (4 ≤ src.length ∧ 9 ≤ (selectorOf (wordOfBytes (src.take 4))).toNat ∧ code = pvSelector ∧
          info = (selectorOf (wordOfBytes (src.take 4))).toNat) ∨
        (4 ≤ src.length ∧ ∃ r : Fin 9, (selectorOf (wordOfBytes (src.take 4))).toNat = r.val ∧
          decodeBody fast n fuel
            (slots ++ fieldSlots (wordOfBytes (src.take 4)) (rom r).bits (wordCount fast n slots.length r))
            (nbytes + 4) (src.drop 4) = .faulted code info)) := by
  rcases Nat.lt_or_ge slots.length n with missing | complete
  · refine ⟨missing, ?_⟩
    rcases Nat.lt_or_ge src.length 4 with short | enough
    · cases (decodeBody_short missing short).symm.trans faulted
      exact .inl ⟨short, rfl, rfl⟩
    · rcases Nat.lt_or_ge (selectorOf (wordOfBytes (src.take 4))).toNat 9 with legal | illegal
      · rw [decodeBody_word (r := ⟨_, legal⟩) missing enough rfl] at faulted
        exact .inr (.inr ⟨enough, ⟨_, legal⟩, rfl, faulted⟩)
      · cases (decodeBody_illegal missing enough illegal).symm.trans faulted
        exact .inr (.inl ⟨enough, illegal, rfl, rfl⟩)
  · cases (decodeBody_complete complete).symm.trans faulted

theorem step_dWord_short {s : State} {a : Answer} {ans : List Answer} (quiet : s.events = []) (word : s.st = .dWord)
    (answers : s.sourceAns = a :: ans) (short : s.source.length < 4) :
    step s = .next (({ s with
      source := s.source.drop (movedOf a 4), sourceAns := ans } : State).raise ioSource 0) := by
  rw [step_of_no_events quiet, fetchSequencer_dWord word, runFetched_settled, stepDWord_fail answers (.inr short)]

theorem step_dExt_illegal {s : State} (quiet : s.events = []) (ext : s.st = .dExt)
    (illegal : 9 ≤ (selectorOf s.wreg).toNat) :
    step s = .next (s.raise pvSelector (selectorOf s.wreg).toNat) := by
  rw [step_of_no_events quiet, fetchSequencer_dExt ext, fetchWord_illegal illegal, illegalExt, if_pos ext]

section Word

variable {s : State} {fast : Bool} {slots : List Slot} {nbytes : Nat} {src : List Byte} {a : Answer}
  (ans : List Answer) (w : Word) (allocated : Allocated s fast) (missing : slots.length < s.n)
include allocated missing

/-- D_WORD with fewer than four bytes left (R277). -/
theorem step_bodyAt_short (short : src.length < 4) :
    ∃ t, step (s.bodyAt slots nbytes src (a :: ans) w) = .next t ∧ FaultedWith ioSource 0 t := by
  exact ⟨_, step_dWord_short (s := s.bodyAt slots nbytes src (a :: ans) w) allocated.quiet (if_neg missing.not_ge) rfl
    short, faultedWith_raise ioSource (Nat.two_pow_pos _)⟩

/-- D_WORD and then D_EXT on a Word of an illegal selector (R274). -/
theorem reaches_bodyAt_illegal (good : a.ok = true) (enough : 4 ≤ src.length)
    (counted : nbytes + 4 < 2 ^ (s.params.lenBits + 3))
    (illegal : 9 ≤ (selectorOf (wordOfBytes (src.take 4))).toNat) :
    ∃ t, Reaches (s.bodyAt slots nbytes src (a :: ans) w) t ∧
      FaultedWith pvSelector (selectorOf (wordOfBytes (src.take 4))).toNat t := by
  have read := step_dWord (s := s.bodyAt slots nbytes src (a :: ans) w) allocated.quiet (if_neg missing.not_ge) rfl good
    enough counted
  have raise := step_dExt_illegal
    (s := { s.bodyAt slots (nbytes + 4) (src.drop 4) ans (wordOfBytes (src.take 4)) with st := .dExt })
    allocated.quiet rfl illegal
  exact ⟨_, .head read (.single raise),
    faultedWith_raise pvSelector (lt_two_pow_of_lt_16 allocated.legal (selectorOf _).isLt)⟩

end Word

/-- The steps follow the decoder's loop to its fault. -/
theorem reaches_body_fault {s : State} {fast : Bool} {fuel nbytes info : Nat} {slots : List Slot} {src : List Byte}
    {ans : List Answer} {code : BitVec 4} (w : Word) (allocated : Allocated s fast) (delivers : Delivers ans src)
    (counted : nbytes + 4 * fuel < 2 ^ (s.params.lenBits + 3))
    (faulted : decodeBody fast s.n fuel slots nbytes src = .faulted code info) :
    ∃ t, Reaches (s.bodyAt slots nbytes src ans w) t ∧ FaultedWith code info t := by
  induction fuel generalizing slots nbytes src ans w with
  | zero => cases faulted
  | succ fuel ih =>
    obtain ⟨a, ans, rfl, good, delivers⟩ := delivers.eq_cons
    have counted' : nbytes + 4 < 2 ^ (s.params.lenBits + 3) := by omega
    obtain ⟨missing, ⟨short, rfl, rfl⟩ | ⟨enough, illegal, rfl, rfl⟩ | ⟨enough, r, selector, faulted⟩⟩ :=
      decodeBody_faulted_cases faulted
    · obtain ⟨t, raised, fault⟩ := step_bodyAt_short ans w allocated missing (nbytes := nbytes) (a := a) short
      exact ⟨t, .single raised, fault⟩
    · exact reaches_bodyAt_illegal ans w allocated missing good enough counted' illegal
    · have word := reaches_bodyAt_word ans w allocated good missing enough counted' selector
      obtain ⟨t, run, fault⟩ := ih (wordOfBytes (src.take 4)) (delivers 4 (by omega) enough) (by omega) faulted
      exact ⟨t, word.trans run, fault⟩

/-! ### The whole decode -/

section Whole

variable {s : State} {fast : Bool} {len : Nat} (legal : s.params.Legal) (ready : s.st = .idle ∨ s.st = .done)
  (command : s.events = [.command (if fast then 3 else 2) len]) (delivers : Delivers s.sourceAns s.source)
include legal ready command delivers

/-- ALLOC (R278). -/
theorem reaches_alloc_fault {n c : Nat} {words : List Byte}
    (header : vbDecode s.params s.source = .decoded n c words)
    (short : s.params.outSlots < n + if fast then Config.overrunPad else 0) :
    ∃ t, Reaches s t ∧ FaultedWith allocFail n t := by
  obtain ⟨width, -⟩ := vbDecodeBytes_bounds (Nat.two_pow_pos _) header
  obtain ⟨ans, -, read⟩ := reaches_allocate (s := s.opened (if fast then 3 else 2) 0 0) legal rfl (Nat.zero_add _)
    (Nat.two_pow_pos _) delivers header
  rw [State.allocate_of_no_room width (by rw [State.need_of_op (fast := fast) rfl]; exact short)] at read
  exact ⟨_, .head (step_startDecode ready command) read, rfl, rfl, rfl⟩

theorem reaches_of_decodeStream_fault {code : BitVec 4} {info : Nat}
    (faulted : decodeStream s.params fast s.source = .faulted code info) :
    ∃ t, Reaches s t ∧ FaultedWith code info t := by
  cases header : vbDecode s.params s.source with
  | faulted code' info' =>
    cases (decodeStream_of_faulted header).symm.trans faulted
    obtain ⟨t, run, fault⟩ := reaches_header_fault (s := s.opened (if fast then 3 else 2) 0 0) legal rfl (maxHdrBytes_pos legal)
      (Nat.zero_add _) (Nat.two_pow_pos _) delivers header
    exact ⟨t, .head (step_startDecode ready command) run, fault⟩
  | decoded n c words =>
    rcases Nat.lt_or_ge s.params.outSlots (n + if fast then Config.overrunPad else 0) with short | room
    · cases (decodeStream_of_noRoom header short).symm.trans faulted
      exact reaches_alloc_fault legal ready command delivers header short
    · rw [decodeStream_of_room header room] at faulted
      obtain ⟨width, short⟩ := vbDecodeBytes_bounds (Nat.two_pow_pos _) header
      rw [Nat.zero_add] at short
      have allocated : Allocated (s.opened (if fast then 3 else 2) n (BitVec.ofNat 4 c)) fast :=
        ⟨legal, rfl, rfl, width, room⟩
      obtain ⟨ans, delivers, start⟩ := reaches_bodyAt_nil legal ready command delivers header room
      obtain ⟨t, run, fault⟩ := reaches_body_fault 0 allocated delivers (nbytes_counted legal width short) faulted
      exact ⟨t, start.trans run, fault⟩

end Whole

/-- Settles O59: the header, the allocation and the loop each go to the fault that the function gives. -/
theorem decodeStepsFaultAsTheFunction : Obligations.DecodeStepsFaultAsTheFunction := by
  intro s fast len code info legal ready command good enough faulted
  obtain ⟨t, run, fault⟩ := reaches_of_decodeStream_fault legal ready command ⟨good, enough⟩ faulted
  obtain ⟨k, steps⟩ := exists_runFor_of_reaches run
  exact ⟨k, t, steps, fault⟩

end Sys2Proof.Machine
end

section
/-! The steps of an ENCODE against the function (spec/45_commands_and_sequencer.md R247, R249 to R251, R259): E_HDR byte
by byte as VB_ENC's loop goes, then E_PACK and E_EMIT by turns as the loop of R170 goes. -/

namespace Sys2Proof.Machine

open Sys2Proof.Safety

/-- The sink accepts the coming transactions, and there are verdicts for `k` of them. -/
structure Accepts (ans : List Answer) (k : Nat) : Prop where
  good : ∀ a ∈ ans, a.ok = true
  enough : k ≤ ans.length

theorem Accepts.eq_cons {ans : List Answer} {k : Nat} (h : Accepts ans (k + 1)) :
    ∃ a ans', ans = a :: ans' ∧ a.ok = true ∧ Accepts ans' k := by
  cases ans with
  | nil => exact absurd h.enough (Nat.not_succ_le_zero k)
  | cons a ans' =>
    exact ⟨a, ans', rfl, h.good a List.mem_cons_self, fun b hb => h.good b (List.mem_cons_of_mem a hb),
      Nat.le_of_succ_le_succ h.enough⟩

theorem Accepts.mono {ans : List Answer} {j k : Nat} (h : Accepts ans k) (fewer : j ≤ k) : Accepts ans j :=
  ⟨h.good, fewer.trans h.enough⟩

/-- The encode `s` at the end of a transaction: `sent` has gone to the sink and is counted. -/
def State.sentAt (s : State) (st : SeqState) (sent : List Byte) (ans : List Answer) : State :=
  { s with st := st, nbytes := sent.length, sink := s.sink ++ sent, sinkAns := ans }

/-! ### The header -/

/-- What E_HDR keeps beside what is sent: the value still to come and the byte's index. -/
def State.headerLeft (s : State) (value : Nat) (hidx : BitVec 4) : State := { s with hreg := value, hidx := hidx }

section Header

variable {s : State} {value : Nat} {hidx : BitVec 4} {sent : List Byte} {a : Answer} (ans : List Answer)
  (quiet : s.events = []) (good : a.ok = true) (counted : sent.length + 1 < 2 ^ (s.params.lenBits + 3))
include quiet good counted

theorem step_sentAt_cont (more : 128 ≤ value) :
    step ((s.headerLeft value hidx).sentAt .eHdr sent (a :: ans)) =
      .next ((s.headerLeft (value >>> 7) (hidx + 1)).sentAt .eHdr (sent ++ [contByte value]) ans) := by
  rw [step_of_no_events (s := (s.headerLeft value hidx).sentAt .eHdr sent (a :: ans)) quiet, fetchSequencer_eHdr rfl,
    runFetched_settled, stepEHdr_cont rfl good more, State.nbytesReg]
  simp only [State.sentAt, State.headerLeft, lowBits_of_lt counted, List.length_append, List.length_singleton,
    List.append_assoc]

theorem step_sentAt_last (last : value < 128) :
    step ((s.headerLeft value hidx).sentAt .eHdr sent (a :: ans)) =
      .next ((s.headerLeft (value >>> 7) (hidx + 1)).sentAt .ePack (sent ++ [lastByte value]) ans) := by
  rw [step_of_no_events (s := (s.headerLeft value hidx).sentAt .eHdr sent (a :: ans)) quiet, fetchSequencer_eHdr rfl,
    runFetched_settled, stepEHdr_last rfl good last, State.nbytesReg]
  simp only [State.sentAt, State.headerLeft, lowBits_of_lt counted, List.length_append, List.length_singleton,
    List.append_assoc]

end Header

theorem vbEncLoop_last {value : Nat} (fuel : Nat) (last : value < 128) : vbEncLoop fuel value = [lastByte value] := by
  cases fuel with
  | zero => rfl
  | succ fuel => rw [vbEncLoop, if_neg last.not_ge]

theorem vbEncLoop_cont {value : Nat} (fuel : Nat) (more : 128 ≤ value) :
    vbEncLoop (fuel + 1) value = contByte value :: vbEncLoop fuel (value >>> 7) := by
  rw [vbEncLoop, if_pos more]

/-- E_HDR sends what VB_ENC emits and leaves the other verdicts (R120, R249). -/
theorem reaches_header_sent {s : State} {fuel value k : Nat} {hidx : BitVec 4} {sent : List Byte} {ans : List Answer}
    (quiet : s.events = []) (fits : value < 128 ^ (fuel + 1))
    (counted : sent.length + (vbEncLoop fuel value).length < 2 ^ (s.params.lenBits + 3))
    (accepts : Accepts ans (k + (vbEncLoop fuel value).length)) :
    ∃ value' hidx' ans', Accepts ans' k ∧
      Reaches ((s.headerLeft value hidx).sentAt .eHdr sent ans)
        ((s.headerLeft value' hidx').sentAt .ePack (sent ++ vbEncLoop fuel value) ans') := by
  induction fuel generalizing value hidx sent ans with
  | zero =>
    have last : value < 128 := by simpa using fits
    obtain ⟨a, ans, rfl, good, accepts⟩ := accepts.eq_cons
    exact ⟨_, _, ans, accepts, .single (step_sentAt_last ans quiet good counted last)⟩
  | succ fuel ih =>
    rcases Nat.lt_or_ge value 128 with last | more
    · rw [vbEncLoop_last _ last] at counted accepts ⊢
      obtain ⟨a, ans, rfl, good, accepts⟩ := accepts.eq_cons
      exact ⟨_, _, ans, accepts, .single (step_sentAt_last ans quiet good counted last)⟩
    · rw [vbEncLoop_cont _ more, List.length_cons] at counted accepts
      obtain ⟨a, ans, rfl, good, accepts⟩ := accepts.eq_cons
      have first := step_sentAt_cont (hidx := hidx) (sent := sent) ans quiet good (by omega) more
      have rest : value >>> 7 < 128 ^ (fuel + 1) := by
        rw [Nat.pow_succ] at fits
        rw [Nat.shiftRight_eq_div_pow]
        exact Nat.div_lt_of_lt_mul (by omega)
      obtain ⟨value', hidx', ans', accepts, run⟩ := ih (hidx := hidx + 1) (sent := sent ++ [contByte value]) rest
        (by rw [List.length_append, List.length_singleton]; omega) accepts
      rw [List.append_assoc, List.singleton_append, ← vbEncLoop_cont _ more] at run
      exact ⟨value', hidx', ans', accepts, .head first run⟩

/-! ### The Words -/

/-- What E_PACK and E_EMIT keep beside what is sent: the cursor, the Word and its count. -/
def State.packedTo (s : State) (idx : Nat) (w : Word) (kreg : BitVec 5) : State :=
  { s with icur := idx, wreg := w, kreg := kreg }

/-- One Word: E_PACK, then E_EMIT. -/
theorem reaches_word_sent {s : State} {idx k : Nat} {r : Fin 9} {sent : List Byte} {a : Answer} (ans : List Answer)
    (w : Word) (kreg : BitVec 5) (quiet : s.events = []) (good : a.ok = true) (width : s.n < 2 ^ s.params.lenBits)
    (counted : sent.length + 4 < 2 ^ (s.params.lenBits + 3)) (more : idx < s.n)
    (selected : selectRow (vinAt s.vin) s.n idx = some (r, k)) :
    Reaches ((s.packedTo idx w kreg).sentAt .ePack sent (a :: ans))
      ((s.packedTo (idx + k) (packWord (vinAt s.vin) r k idx) (BitVec.ofNat 5 k)).sentAt .ePack
        (sent ++ le32 (packWord (vinAt s.vin) r k idx)) ans) := by
  obtain ⟨-, cap, within, -⟩ := selectRow_bounds more selected
  obtain ⟨-, -, capLe, -⟩ := rom_facts r
  have count : (BitVec.ofNat 5 k).toNat = k := Nat.mod_eq_of_lt (by omega)
  have pack : step ((s.packedTo idx w kreg).sentAt .ePack sent (a :: ans)) =
      .next ((s.packedTo idx (packWord (vinAt s.vin) r k idx) (BitVec.ofNat 5 k)).sentAt .eEmit sent (a :: ans)) := by
    rw [step_of_no_events (s := (s.packedTo idx w kreg).sentAt .ePack sent (a :: ans)) quiet,
      fetchSequencer_ePack rfl, runFetched_settled,
      stepEPack_word (s := (s.packedTo idx w kreg).sentAt .ePack sent (a :: ans)) more.ne selected]
    rfl
  have held : idx + k < 2 ^ s.params.lenBits := within.trans_lt width
  refine .head pack (.single ?_)
  rw [step_of_no_events (s := (s.packedTo idx _ _).sentAt .eEmit sent (a :: ans)) quiet, fetchSequencer_eEmit rfl,
    runFetched_settled, stepEEmit_ok rfl good, State.nbytesReg, State.lenReg]
  simp only [State.sentAt, State.packedTo, count, lowBits_of_lt counted, lowBits_of_lt held, List.length_append,
    le32_length, List.append_assoc]

/-- E_PACK at the end of the input. -/
theorem step_sentAt_complete {s : State} (w : Word) (kreg : BitVec 5) (sent : List Byte) (ans : List Answer)
    (quiet : s.events = []) :
    step ((s.packedTo s.n w kreg).sentAt .ePack sent ans) = .next ((s.packedTo s.n w kreg).sentAt .done sent ans) := by
  rw [step_of_no_events (s := (s.packedTo s.n w kreg).sentAt .ePack sent ans) quiet, fetchSequencer_ePack rfl,
    runFetched_settled, stepEPack_done rfl]
  rfl

/-- E_PACK and E_EMIT send the Words of the loop of R170 from cursor `idx` on, and end in DONE. -/
theorem reaches_words_sent {s : State} {fuel idx : Nat} {sent : List Byte} {ans : List Answer} (w : Word)
    (kreg : BitVec 5) (quiet : s.events = []) (legal : ValuesLegal s.vin s.n) (width : s.n < 2 ^ s.params.lenBits)
    (within : idx ≤ s.n) (enough : s.n ≤ idx + fuel)
    (counted : sent.length + (encodeBody (vinAt s.vin) s.n fuel idx).length < 2 ^ (s.params.lenBits + 3))
    (accepts : Accepts ans (encodeBody (vinAt s.vin) s.n fuel idx).length) :
    ∃ w' kreg' ans', Reaches ((s.packedTo idx w kreg).sentAt .ePack sent ans)
      ((s.packedTo s.n w' kreg').sentAt .done (sent ++ encodeBody (vinAt s.vin) s.n fuel idx) ans') := by
  induction fuel generalizing idx sent ans w kreg with
  | zero =>
    obtain rfl : idx = s.n := by omega
    rw [encodeBody, List.append_nil]
    exact ⟨w, kreg, ans, .single (step_sentAt_complete w kreg sent ans quiet)⟩
  | succ fuel ih =>
    rcases Nat.eq_or_lt_of_le within with rfl | more
    · rw [encodeBody_complete le_rfl, List.append_nil]
      exact ⟨w, kreg, ans, .single (step_sentAt_complete w kreg sent ans quiet)⟩
    · obtain ⟨r, k, selected⟩ := selectRow_isSome more (legal idx more)
      obtain ⟨positive, -, inside, -⟩ := selectRow_bounds more selected
      rw [encodeBody_word more selected, List.length_append, le32_length] at counted accepts
      have fewer : (encodeBody (vinAt s.vin) s.n fuel (idx + k)).length + 1 ≤
          4 + (encodeBody (vinAt s.vin) s.n fuel (idx + k)).length := by omega
      obtain ⟨a, ans, rfl, good, accepts⟩ := (accepts.mono fewer).eq_cons
      have fits : sent.length + 4 < 2 ^ (s.params.lenBits + 3) := by omega
      have word := reaches_word_sent ans w kreg quiet good width fits more selected
      obtain ⟨w', kreg', ans', run⟩ := ih (sent := sent ++ le32 (packWord (vinAt s.vin) r k idx))
        (packWord (vinAt s.vin) r k idx) (BitVec.ofNat 5 k) inside (by omega)
        (by rw [List.length_append, le32_length]; omega) accepts
      rw [List.append_assoc, ← encodeBody_word more selected] at run
      exact ⟨w', kreg', ans', word.trans run⟩

/-! ### The whole encode -/

/-- NBYTES holds a Stream: its header and at most a Word for each Value (R28, R171). -/
theorem encodeStream_counted {p : Config.Params} {v : List Slot} (legal : p.Legal) (width : v.length < 2 ^ p.lenBits)
    (values : ValuesLegal v v.length) : (encodeStream v).length < 2 ^ (p.lenBits + 3) := by
  obtain ⟨m, length, -, words⟩ := encodeBody_length (fuel := v.length) (idx := 0) values (Nat.zero_le _) (by omega)
  have counted := nbytes_counted legal width (vbEncode_length_le legal width)
  rw [encodeStream, List.length_append, length]
  omega

/-- An accepted START ENCODE of legal Values begins the header with nothing sent (R247). -/
theorem step_startEncode {s : State} {n : Nat} (ready : s.st = .idle ∨ s.st = .done) (width : n < 2 ^ s.params.lenBits)
    (positive : 0 < n) (values : ValuesLegal s.vin n) (command : s.events = [.command 1 n]) :
    step s = .next (((s.opened 1 n 0).headerLeft n 0).sentAt .eHdr [] s.sinkAns) := by
  have held : s.lenReg n = n := State.lenReg_of_lt width
  rw [step_command command, held, State.sentAt, List.append_nil]
  exact exec_encode_begins (s := { s with events := [] }) ready held positive.ne' (firstTooLarge_eq_none.2 values)

/-- The steps of an ENCODE send the Stream of the whole-operation function and end in DONE (R259). -/
theorem reaches_encoded {s : State} (legal : s.params.Legal) (ready : s.st = .idle ∨ s.st = .done)
    (positive : 0 < s.vin.length) (width : s.vin.length < 2 ^ s.params.lenBits)
    (values : ValuesLegal s.vin s.vin.length) (command : s.events = [.command 1 s.vin.length])
    (accepts : Accepts s.sinkAns (encodeStream s.vin).length) :
    ∃ value hidx w kreg ans, Reaches s ((((s.opened 1 s.vin.length 0).headerLeft value hidx).packedTo
      s.vin.length w kreg).sentAt .done (encodeStream s.vin) ans) := by
  have counted := encodeStream_counted legal width values
  have bits : s.vin.length < 128 ^ 10 := (lt_two_pow_64 legal width).trans (by norm_num)
  rw [encodeStream, List.length_append] at counted accepts
  have headerCounted : ([] : List Byte).length + (vbEncode s.vin.length).length < 2 ^ (s.params.lenBits + 3) := by
    rw [List.length_nil]
    omega
  rw [Nat.add_comm] at accepts
  have start := step_startEncode ready width positive values command
  obtain ⟨value, hidx, ans, accepts, header⟩ := reaches_header_sent (s := s.opened 1 s.vin.length 0) (fuel := 9)
    (hidx := 0) rfl bits headerCounted accepts
  obtain ⟨w, kreg, ans, words⟩ := reaches_words_sent
    (s := (s.opened 1 s.vin.length 0).headerLeft value hidx) (idx := 0) (fuel := s.vin.length) 0 0 rfl values width
    (Nat.zero_le _) (Nat.zero_add _).ge counted accepts
  exact ⟨value, hidx, w, kreg, ans, .head start (header.trans words)⟩

/-- Settles O57: the state that the steps end in holds the Stream and its length, and nothing has touched VOUT. -/
theorem encodeStepsWriteTheStream : Obligations.EncodeStepsWriteTheStream := by
  intro s v legal ready nonempty width values vin command good enough
  subst vin
  obtain ⟨value, hidx, w, kreg, ans, run⟩ := reaches_encoded legal ready (List.length_pos_of_ne_nil nonempty) width
    (valuesLegal_of_forall values) command ⟨good, enough⟩
  obtain ⟨k, steps⟩ := exists_runFor_of_reaches run
  exact ⟨k, _, steps, rfl, rfl, rfl, rfl, rfl, rfl⟩

end Sys2Proof.Machine
end
